-- ==== Sys2Proof/Word.lean ====
section
/-! DEFINITION. The word types of the model: what spec/ calls a data word, an entry, and a memory of entries.
Widths are the default parameters of 00_scope.md R6 (Config.lean names them). -/

namespace Sys2Proof

/-- One host data word, and one command word: `HOST_W` bits (R6, R91). -/
abbrev Word := BitVec 64

/-- A rate register, `RATE_W` bits (R37, R38). -/
abbrev Rate := BitVec 32

/-- A number of samples, symbols or bits, or a bit position below it: `AW+1` bits (R40, R45). -/
abbrev Count := BitVec 17

/-- A byte (R41, R46, R47). -/
abbrev Byte := BitVec 8

/-- A host address: `addr[23:20]` is the space, `addr[19:0]` the index (R61). -/
abbrev HostAddr := BitVec 24

/-- One entry of `IQMEM`: a pair of signed two's-complement integers of `IQ_W` bits (R9, R47). -/
structure Sample where
  i : BitVec 16
  q : BitVec 16
  deriving DecidableEq, Repr

/-- A data memory: its specified entries as (index, entry) pairs, indices strictly rising. An entry that is
not listed holds no specified value (R48, R49). -/
abbrev Cells (α : Type) := List (Nat × α)

end Sys2Proof
end

