-- ==== Sys2Proof/Config.lean ====
section
/-! DEFINITION. The implementation parameters of 00_scope.md R6, at their defaults, and the free values:
opaque constants for what spec/ leaves unspecified (93_implementation_defined.md U1 to U3). -/

namespace Sys2Proof

/-- What `round` does at an exact half (R6 `ROUND_TIES`, R147). -/
inductive RoundTies where
  | halfEven
  | halfAway
  deriving DecidableEq, Repr

/-- The parameter record of R6. `MAG` is fixed to its `isqrt` form (R9), with `magFrac` fractional bits. -/
structure Params where
  iqW : Nat
  magFrac : Nat
  aw : Nat
  rateW : Nat
  swMax : Nat
  thW : Nat
  hostW : Nat
  roundTies : RoundTies
  coreId : Nat
  deriving DecidableEq, Repr

/-- The defaults of R6 (log 1). -/
def Config.params : Params :=
  { iqW := 16
    magFrac := 0
    aw := 16
    rateW := 32
    swMax := 8
    thW := 16
    hostW := 64
    roundTies := .halfEven
    coreId := 0x4F4F4B0000000001 }

/-- `N_MAX = 2^AW` at the default `AW = 16`: the depth of the sample memory (R6). -/
abbrev Config.nMax : Nat := 65536

/-- The depth of `PAYMEM`, `N_MAX / 8` (R47). -/
abbrev Config.payDepth : Nat := 8192

/-- `SW_MAX`, the largest sync-word length in bytes (R6). -/
abbrev Config.swMax : Nat := 8

/-- `MAG_FRAC`, the fractional bits kept by the magnitude (R6, R9). -/
abbrev Config.magFrac : Nat := 0

/-- `ROUND_TIES` (R6, R147). -/
abbrev Config.roundTies : RoundTies := .halfEven

/-- `CORE_ID` (R6, R33). -/
abbrev Config.coreId : Word := 0x4F4F4B0000000001#64

/-- FREE VALUE: what entry `index` of host space `space` holds where spec/ specifies nothing (U1, U2), as
seen at the `epoch`-th value of the model's counter. DESIGN CHOICE, log 4. -/
opaque Config.unspecifiedBits (epoch space index : Nat) : BitVec 64

/-- FREE VALUE: what working register number `reg` holds between stages (U3), at the `epoch`-th value of
the model's counter. DESIGN CHOICE, log 5. -/
opaque Config.unspecifiedWork (epoch reg : Nat) : BitVec 64

end Sys2Proof
end

