-- ==== Sys2Proof/Syntax.lean ====
section
/-! DEFINITION. The commands: one constructor per row of spec/opcode_table.json. A command has no operand
fields and no immediate (30_encoding.md R91, R96). -/

namespace Sys2Proof

/-- The seven commands (R2, R93). -/
inductive Instr where
  /-- `ENV`, stage 1, Envelope (R121). -/
  | env
  /-- `TREC`, stage 2, Timing Recovery (R141). -/
  | trec
  /-- `BDEC`, stage 3, Bit Decision (R171). -/
  | bdec
  /-- `FSYNC`, stage 4, Frame Sync (R181). -/
  | fsync
  /-- `PEXT`, stage 5, Payload Extraction (R211). -/
  | pext
  /-- `RUN`, stages 1 to 5 in order (R231). -/
  | run
  /-- `CLR`, clear results, flags and code (R233). -/
  | clr
  deriving DecidableEq, Repr

end Sys2Proof
end

