-- ==== Sys2Proof/WellFormed.lean ====
section
/-! DEFINITION. Which terms are well formed: every command (it has no operand field to check), and which
parameter records meet the constraints of 00_scope.md R6. -/

namespace Sys2Proof

/-- A command has no operand field, no immediate and no mode bits (R91, R96), so every command is well
formed: there is no check to fail. -/
def Instr.wf (i : Instr) : Bool :=
  match i with
  | .env => true
  | .trec => true
  | .bdec => true
  | .fsync => true
  | .pext => true
  | .run => true
  | .clr => true

/-- The constraints on the implementation parameters, in the order of R6's table. -/
def Params.wf (p : Params) : Bool :=
  decide (2 ≤ p.iqW) && decide (p.iqW ≤ 32) &&
  (decide (3 ≤ p.aw) && decide (p.aw ≤ 20)) &&
  decide (p.rateW ≤ 64) &&
  (decide (1 ≤ p.swMax) && decide (p.swMax ≤ 255)) &&
  decide (p.thW ≤ 64) &&
  (decide (p.iqW + p.magFrac + 2 * p.aw + 1 ≤ p.hostW) && decide (p.iqW + 32 ≤ p.hostW) &&
    decide (27 ≤ p.hostW))

end Sys2Proof
end

