-- ==== Sys2Proof/Decode.lean ====
section
/-! DEFINITION. Decoding of a command word (30_encoding.md R94), and the encoder written from the same table
(R93, spec/opcode_table.json). -/

namespace Sys2Proof

/-- What a command word decodes to (R94): one of the seven commands, or `ILLEGAL`. -/
inductive Decoded where
  | command (i : Instr)
  /-- R94's `ILLEGAL`: executing it ends with result code ILLCMD (R253). -/
  | illegal
  deriving DecidableEq, Repr

/-- The field `op = w[3:0]` (R91). -/
def opField (w : Word) : BitVec 4 := w.extractLsb' 0 4

/-- The field `zero = w[63:4]` (R91). -/
def zeroField (w : Word) : BitVec 60 := w.extractLsb' 4 60

/-- Decode is total (R94): `ILLEGAL` when a bit above bit 3 is set or the code is 0x0 or 0x8 to 0xF. -/
def decode (w : Word) : Decoded :=
  if zeroField w ≠ 0#60 then .illegal
  else
    match (opField w).toNat with
    | 0x1 => .command .env
    | 0x2 => .command .trec
    | 0x3 => .command .bdec
    | 0x4 => .command .fsync
    | 0x5 => .command .pext
    | 0x6 => .command .run
    | 0x7 => .command .clr
    | _ => .illegal

/-- The operation code of a command (R93). -/
def opcode (i : Instr) : BitVec 4 :=
  match i with
  | .env => 0x1#4
  | .trec => 0x2#4
  | .bdec => 0x3#4
  | .fsync => 0x4#4
  | .pext => 0x5#4
  | .run => 0x6#4
  | .clr => 0x7#4

/-- The command word (R91): sixty zero bits, then the operation code. -/
def encode (i : Instr) : Word := 0#60 ++ opcode i

/-- What the decoder reads from an instruction whose bits are `w`, bit 0 the least significant bit of the
one command word; bits at and above `nbits` are 0. There is one command length, 64 bits (R91): a longer
instruction does not exist. -/
def decodeTableWord (nbits w : Nat) : Option Instr :=
  if w % 2 ^ nbits < 2 ^ 64 then
    match decode (BitVec.ofNat 64 (w % 2 ^ nbits)) with
    | .command i => some i
    | .illegal => none
  else none

end Sys2Proof
end

