-- ==== Sys2Proof/Machine/State.lean ====
section
/-! DEFINITION. The whole state of the core as plain data (10_state.md R20 to R52), the reasons a step can
stop, and the state after reset (R52, 70_reset_and_hazards.md R292). -/

namespace Sys2Proof.Machine

/-- The sequencer `SEQ` (R29), which stands where a processor has its program counter. -/
inductive Seq where
  | idle
  | sEnv
  | sTrec
  | sBdec
  | sFsync
  | sPext
  deriving DecidableEq, Repr

/-- The five stages (R1), and, in `ERRINFO.STAGE`, `none` (R36). -/
inductive Stage where
  | none
  | env
  | trec
  | bdec
  | fsync
  | pext
  deriving DecidableEq, Repr

/-- The result codes of `STATUS.ERR` (R251). Codes 6 to 15 are reserved and never written. -/
inductive Code where
  | ok
  | config
  | insuff
  | nosync
  | illcmd
  | seq
  deriving DecidableEq, Repr

/-- The configuration registers the host writes (R37 to R44). -/
structure Cfg where
  fs : Rate
  br : Rate
  nsamp : Count
  pre : Byte
  npre : Byte
  swlen : Byte
  th : BitVec 16
  policy : BitVec 2
  paysz : BitVec 16
  deriving DecidableEq, Repr

/-- The result registers (R45). `eps` is `sext_HOST_W` of the final `epsilon`. -/
structure Results where
  envmax : Word
  envsum : Word
  envden : Word
  nbits : Count
  eps : Word
  syncidx : Count
  paystart : BitVec 18
  deriving DecidableEq, Repr

/-- The six valid flags (R26). -/
structure Valid where
  env : Bool
  tr : Bool
  bd : Bool
  prof : Bool
  fs : Bool
  pe : Bool
  deriving DecidableEq, Repr

/-- The three condition flags (R27). -/
structure Cond where
  envZero : Bool
  wTrec : Bool
  wFsync : Bool
  deriving DecidableEq, Repr

/-- The datapath working registers (R21 to R24). They hold no specified value between stages (U3). -/
structure Work where
  index : Count
  epsilon : BitVec 18
  smax : Word
  total : Word
  den : Word
  scan : Count
  syncIndex : Count
  payloadStart : BitVec 18
  found : Bool
  byteIndex : BitVec 16
  byte : Byte
  deriving DecidableEq, Repr

/-- The seven data memories (R47). The eighth, `SYNCW`, is a file of byte registers (R46). -/
structure Memory where
  iq : Cells Sample
  cent : Cells Word
  clk : Cells (BitVec 16)
  syn : Cells Word
  bits : Cells (BitVec 1)
  prof : Cells (BitVec 12)
  pay : List Host.Cell
  deriving DecidableEq, Repr

/-- The response of the host port to one transaction (R63, R64). A refused read returns no data (U4). -/
inductive Response where
  | ok
  | data (w : Word)
  | err
  deriving DecidableEq, Repr

/-- What can happen at the core's boundary: a host transaction (R63, R64), the reset input (R291), or the
core's turn to step (R226, R300). `demodReads` is no transaction: it is the host's decision inside `DEMOD`,
which reads the payload only if `STATUS.ERR = 0` in the word it read last (R108; log 2). -/
inductive HostEvent where
  | read (addr : HostAddr)
  | write (addr : HostAddr) (v : Word)
  | reset
  | core
  | demodReads
  deriving DecidableEq, Repr

/-- Why the machine stops with a fault. -/
inductive Fault where
  /-- Raised by `TREC` and `RUN` when the timing loop is still running after `N` passes, which R151 (h)
  excludes for every `CENTMEM` and `ENVDEN` that ENV produced. Safe (log 7): no state a run from reset
  reaches raises it, and the hardware has no such state. -/
  | timingOverrun
  deriving DecidableEq, Repr

/-- Why an instruction is refused. -/
inductive Refusal where
  /-- An instruction that has no meaning in the model. Safe. No arm of `exec` answers with it. -/
  | notModelled (mnemonic : String)
  deriving DecidableEq, Repr

/-- The state: R20's list, then the model's own fields `port`, `resp` (log 2) and `free` (log 4). -/
structure State where
  /-- `SEQ` (R29). -/
  seq : Seq
  /-- `STATUS.BUSY` (R35). -/
  busy : Bool
  /-- `STATUS.DONE` (R35). -/
  done : Bool
  /-- `STATUS.ERR` (R35, R251). -/
  err : Code
  /-- `STATUS.LASTOP` (R35). -/
  lastop : BitVec 4
  /-- `ERRINFO.STAGE` (R36). -/
  errStage : Stage
  /-- `ERRINFO.SUB` (R36). -/
  errSub : BitVec 4
  /-- The six valid flags (R26). -/
  valid : Valid
  /-- The three condition flags (R27). -/
  cond : Cond
  /-- The configuration registers (R37 to R44). -/
  cfg : Cfg
  /-- The sync-word byte file (R46). -/
  syncw : Vector Byte 8
  /-- The result registers (R45). -/
  res : Results
  /-- The data memories (R47). -/
  mem : Memory
  /-- The pending-command latch `PEND` (R51). -/
  pend : Word
  /-- The working registers (R21 to R24). -/
  work : Work
  /-- MODEL: what the host and the reset input will do, oldest first (log 2). -/
  port : List HostEvent
  /-- MODEL: the host port's last response (log 2). -/
  resp : Option Response
  /-- MODEL: the counter the free values are applied to (log 4, log 5). -/
  free : Nat
  deriving DecidableEq, Repr

/-- The state after reset (R52, R292). The working registers and `PEND` have no specified value there: 0
here is a DESIGN CHOICE (log 6). The memories list nothing: their contents are unspecified. -/
def State.reset : State :=
  { seq := .idle
    busy := false
    done := false
    err := .ok
    lastop := 0#4
    errStage := .none
    errSub := 0#4
    valid := { env := false, tr := false, bd := false, prof := false, fs := false, pe := false }
    cond := { envZero := false, wTrec := false, wFsync := false }
    cfg :=
      { fs := 0#32
        br := 0#32
        nsamp := 0#17
        pre := 0xAA#8
        npre := 2#8
        swlen := 0#8
        th := 12#16
        policy := 1#2
        paysz := 0#16 }
    syncw := #v[0#8, 0#8, 0#8, 0#8, 0#8, 0#8, 0#8, 0#8]
    res :=
      { envmax := 0#64
        envsum := 0#64
        envden := 0#64
        nbits := 0#17
        eps := 0#64
        syncidx := 0#17
        paystart := 0#18 }
    mem := { iq := [], cent := [], clk := [], syn := [], bits := [], prof := [], pay := [] }
    pend := 0#64
    work :=
      { index := 0#17
        epsilon := 0#18
        smax := 0#64
        total := 0#64
        den := 0#64
        scan := 0#17
        syncIndex := 0#17
        payloadStart := 0#18
        found := false
        byteIndex := 0#16
        byte := 0#8 }
    port := []
    resp := none
    free := 0 }

end Sys2Proof.Machine
end

