-- ==== Sys2Proof/Machine/Ops.lean ====
section
/-! DEFINITION. The named operations over memories and working registers, the zero-padding read (20_memory.md
R70), the arithmetic the stages share, and the one shared way a command ends: `complete` (45_control_commands.md
R228), with the prologue (R227) and the configuration check (60_exceptions.md R254). -/

namespace Sys2Proof.Machine

/-! ## Memories of entries (10_state.md R47) -/

/-- `MEM[i]` (R12): the listed entry `i`, `none` where it holds no specified value (R48, R49). -/
def Cells.read {α : Type} : Cells α → Nat → Option α
  | [], _ => none
  | (k, v) :: rest, i => if k = i then some v else Cells.read rest i

/-- `MEM[i] <- v` (R12), keeping the indices strictly rising. -/
def Cells.write {α : Type} : Cells α → Nat → α → Cells α
  | [], i, v => [(i, v)]
  | (k, w) :: rest, i, v =>
    if i < k then (i, v) :: (k, w) :: rest
    else if i = k then (i, v) :: rest
    else (k, w) :: Cells.write rest i v

/-- `for n in 0 .. len-1: MEM[n] <- f n` (R12). -/
def Cells.fill {α : Type} (m : Cells α) (f : Nat → α) : Nat → Cells α
  | 0 => m
  | n + 1 => Cells.write (Cells.fill m f n) n (f n)

/-- Indices from `lo` on strictly rise and stay below `depth`. -/
def Cells.wfFrom {α : Type} (depth : Nat) : Nat → Cells α → Bool
  | _, [] => true
  | lo, (k, _) :: rest => decide (lo ≤ k) && decide (k < depth) && Cells.wfFrom depth (k + 1) rest

/-- The canonical form of a memory of `depth` entries: indices strictly rising and below the depth (R47). -/
def Cells.wf {α : Type} (depth : Nat) (m : Cells α) : Bool := Cells.wfFrom depth 0 m

/-- Every data memory has its canonical form, at its depth of R47. -/
def Memory.wf (m : Memory) : Bool :=
  Cells.wf Config.nMax m.iq && Cells.wf Config.nMax m.cent && Cells.wf Config.nMax m.clk &&
  Cells.wf Config.nMax m.syn && Cells.wf Config.nMax m.bits && Cells.wf Config.nMax m.prof &&
  Cells.wf Config.payDepth m.pay

/-- An entry read inside a command: the listed one, else a free value of the entry's width (R48, R49, U1;
log 4). The counter stands still while a stage reads, and only one stage of a command reads a given memory's
unlisted entries, so an entry has one value for the whole command. -/
def entryOr {w : Nat} (m : Cells (BitVec w)) (free space i : Nat) : BitVec w :=
  (Cells.read m i).getD ((Config.unspecifiedBits free space i).setWidth w)

/-! ## Sums, maxima and searches over index ranges (00_scope.md R10, R12) -/

/-- `Σ_{j=0}^{len-1} f j`. -/
def sumUpTo (f : Nat → Nat) : Nat → Nat
  | 0 => 0
  | n + 1 => sumUpTo f n + f n

/-- The maximum of `f 0 .. f (len-1)`, 0 for the empty sequence (R125). -/
def maxUpTo (f : Nat → Nat) : Nat → Nat
  | 0 => 0
  | n + 1 => max (maxUpTo f n) (f n)

/-- Whether some `j` in `0 .. len-1` has the mark. -/
def anyUpTo (f : Nat → Bool) : Nat → Bool
  | 0 => false
  | n + 1 => anyUpTo f n || f n

/-! ## The zero-padding read (20_memory.md R70) -/

/-- The out-of-range mark of `PadRead(MEM, len, j)`: set unless `0 ≤ j < len`. -/
def outOfRange (len : Nat) (j : Int) : Bool := decide (j < 0) || decide ((len : Int) ≤ j)

/-- The value of `PadRead(MEM, len, j)`: `MEM[j]` when `0 ≤ j < len`, else zero. -/
def padRead {α : Type} (zero : α) (len : Nat) (rd : Nat → α) (j : Int) : α :=
  if outOfRange len j then zero else rd j.toNat

/-! ## Arithmetic (R9, R147) -/

/-- Fixes the bits `b-1 .. 0` of the root, largest first. -/
def isqrtBits : Nat → Nat → Nat → Nat
  | 0, _, r => r
  | b + 1, m, r => isqrtBits b m (if (r + 2 ^ b) * (r + 2 ^ b) ≤ m then r + 2 ^ b else r)

/-- `isqrt(m)`: the largest `r` with `r·r ≤ m` (R9). -/
def isqrt (m : Nat) : Nat := isqrtBits (m.log2 / 2 + 1) m 0

/-- `MAG(I, Q) = isqrt((I·I + Q·Q)·4^MAG_FRAC)` (R9, R123), for any `MAG_FRAC`. -/
def magWith (magFrac : Nat) (x : Sample) : Nat :=
  isqrt ((x.i.toInt * x.i.toInt + x.q.toInt * x.q.toInt).toNat * 4 ^ magFrac)

/-- The amplitude of a sample (R123) at the model's `MAG_FRAC`. -/
def mag (x : Sample) : Nat := magWith Config.magFrac x

/-- `round(n, d)` for `d > 0` (R147), under either tie rule. -/
def roundDivWith (ties : RoundTies) (n d : Int) : Int :=
  let q := n / d
  let r := n - q * d
  if 2 * r < d then q
  else if d < 2 * r then q + 1
  else
    match ties with
    | .halfEven => if q % 2 = 0 then q else q + 1
    | .halfAway => if 0 < n then q + 1 else q

/-- `round(n, d)` at the model's `ROUND_TIES` (R147). -/
def roundDiv (n d : Int) : Int := roundDivWith Config.roundTies n d

/-! ## Working registers (10_state.md R21 to R24) -/

/-- What the working registers hold once a stage has let them go (U3): free values (log 5). -/
def unspecifiedWork (free : Nat) : Work :=
  { index := (Config.unspecifiedWork free 0).setWidth 17
    epsilon := (Config.unspecifiedWork free 1).setWidth 18
    smax := Config.unspecifiedWork free 2
    total := Config.unspecifiedWork free 3
    den := Config.unspecifiedWork free 4
    scan := (Config.unspecifiedWork free 5).setWidth 17
    syncIndex := (Config.unspecifiedWork free 6).setWidth 17
    payloadStart := (Config.unspecifiedWork free 7).setWidth 18
    found := (Config.unspecifiedWork free 8).getLsbD 0
    byteIndex := (Config.unspecifiedWork free 9).setWidth 16
    byte := (Config.unspecifiedWork free 10).setWidth 8 }

/-- A stage lets its working registers go: "discarded after the stage returns" (R21), "Neither survives the
command" (R24), any value (U3). The counter advances, so later free values are other ones. -/
def discardWork (s : State) : State :=
  { s with work := unspecifiedWork s.free, free := s.free + 1 }

/-! ## How a command ends (45_control_commands.md R228, 60_exceptions.md R252) -/

/-- What a command records when it ends: `<Result>(stage, sub)` of R252. -/
structure Record where
  code : Code
  stage : Stage
  sub : BitVec 4
  deriving DecidableEq, Repr

/-- A normal end: code OK, `STAGE = 0`, `SUB = 0` (R251). -/
def okRecord : Record := { code := .ok, stage := .none, sub := 0#4 }

/-- Completion (R228), in place of taking an exception (R252, R262): the last thing every command does. There
is no return from it (R263): the core is idle and accepts any command. -/
def complete (s : State) (r : Record) : State :=
  { s with
    seq := .idle
    err := r.code
    errStage := r.stage
    errSub := r.sub
    lastop := opField s.pend
    busy := false
    done := true }

/-- How the body of a stage ends: normally, by `raise` (R252), or by the model's own fault (log 7). -/
inductive StageEnd where
  | ok (s : State)
  | raised (s : State) (r : Record)
  | overrun
  deriving DecidableEq, Repr

/-- The next body runs only after a normal end: the first `raise` ends the command (R231, R252). -/
def StageEnd.andThen (e : StageEnd) (next : State → StageEnd) : StageEnd :=
  match e with
  | .ok s => next s
  | .raised s r => .raised s r
  | .overrun => .overrun

/-- The end of the body, then completion (R228). -/
def StageEnd.finish (e : StageEnd) : Host.Outcome State Fault Refusal :=
  match e with
  | .ok s => .next (complete s okRecord)
  | .raised s r => .next (complete s r)
  | .overrun => .fault .timingOverrun

/-! ## The prologue (R227) -/

/-- The configuration check (R254): the first `SUB` in 1 to 6 whose condition holds, `none` when the
configuration is legal. -/
def configCheck (c : Cfg) : Option (BitVec 4) :=
  if c.br.toNat = 0 then some 1#4
  else if c.fs.toNat < c.br.toNat then some 2#4
  else if c.paysz.toNat = 0 then some 3#4
  else if Config.swMax < c.swlen.toNat then some 4#4
  else if Config.nMax < c.nsamp.toNat then some 5#4
  else if c.policy = 3#2 then some 6#4
  else none

/-- The prerequisite of a stage command (R227 step 3, R256). -/
def prerequisite (st : Stage) (v : Valid) : Bool :=
  match st with
  | .none => true
  | .env => true
  | .trec => v.env
  | .bdec => v.tr
  | .fsync => v.bd
  | .pext => v.bd && v.fs

/-- The `SUB` of a SEQ refusal: the number of the stage asked for (R256). -/
def Stage.seqSub (st : Stage) : BitVec 4 :=
  match st with
  | .none => 0#4
  | .env => 1#4
  | .trec => 2#4
  | .bdec => 3#4
  | .fsync => 4#4
  | .pext => 5#4

/-- Steps 2 and 3 of the prologue (R227) for the command of stage `st` (`none` for RUN, which has no
prerequisite): the refusal, if there is one. Step 1, the decoding, is the step's (Step.lean). -/
def prologue (st : Stage) (s : State) : Option Record :=
  match configCheck s.cfg with
  | some sub => some { code := .config, stage := .none, sub := sub }
  | none =>
    if prerequisite st s.valid then none
    else some { code := .seq, stage := .none, sub := st.seqSub }

/-- A command with a prologue: refused with no stage started (R259), or its body and completion. -/
def command (st : Stage) (body : State → StageEnd) (s : State) : Host.Outcome State Fault Refusal :=
  match prologue st s with
  | some r => .next (complete s r)
  | none => (body s).finish

end Sys2Proof.Machine
end

