-- ==== Sys2Proof/Machine/Operands.lean ====
section
/-! DEFINITION. The implicit operands of the commands (30_encoding.md R96, R97): what a stage reads from the
configuration registers, the sync-word file and the memories. -/

namespace Sys2Proof.Machine

/-- `sps = FS // BR`, 0 when `BR = 0` (00_scope.md R7, 10_state.md R39). -/
def sps (c : Cfg) : Nat := if c.br.toNat = 0 then 0 else c.fs.toNat / c.br.toNat

/-- `N = NSAMP` (R40). -/
def sampleCount (c : Cfg) : Nat := c.nsamp.toNat

/-- `L = 8·(NPRE + SWLEN)`, the pattern length in bits (R41, R97). -/
def patLen (c : Cfg) : Nat := 8 * (c.npre.toNat + c.swlen.toNat)

/-- `h = L/2` (43_frame_sync.md R182). -/
def halfPat (c : Cfg) : Nat := patLen c / 2

/-- `SYNCW[q]` (R46); there is no byte at or beyond `SW_MAX`. -/
def syncByte (w : Vector Byte 8) (q : Nat) : Byte := if h : q < 8 then w[q] else 0#8

/-- `byteOf(m)` (R97): the preamble byte `NPRE` times, then the sync word. -/
def patByte (c : Cfg) (w : Vector Byte 8) (m : Nat) : Byte :=
  if m < c.npre.toNat then c.pre else syncByte w (m - c.npre.toNat)

/-- `P[j] = byteOf(j // 8)[7 - (j mod 8)]` (R97): MSB first. -/
def patBit (c : Cfg) (w : Vector Byte 8) (j : Nat) : Bool :=
  (patByte c w (j / 8)).getLsbD (7 - j % 8)

/-- `K = Nb = NBITS` (R45). -/
def bitCount (s : State) : Nat := s.res.nbits.toNat

/-- `IQMEM[n]` inside a command: a free pair where the host wrote nothing (R49, U1; log 4). -/
def iqAt (s : State) (n : Nat) : Sample :=
  (Cells.read s.mem.iq n).getD
    { i := (Config.unspecifiedBits s.free 1 n).extractLsb' 0 16
      q := (Config.unspecifiedBits s.free 1 n).extractLsb' 32 16 }

/-- `a[n] = MAG(I[n], Q[n])` (R123). -/
def amplitude (s : State) (n : Nat) : Nat := mag (iqAt s n)

/-- `C[n]`, the signed entry of `CENTMEM` (R47). -/
def centAt (s : State) (n : Nat) : Int := (entryOr s.mem.cent s.free 2 n).toInt

/-- `Y[k]`, the signed entry of `SYNMEM` (R47). -/
def synAt (s : State) (k : Nat) : Int := (entryOr s.mem.syn s.free 4 k).toInt

/-- `B[k]`, as the integer 0 or 1 (R47, R183). -/
def bitAt (s : State) (k : Nat) : Nat := (entryOr s.mem.bits s.free 5 k).toNat

/-- `CorrelationProfile[i]`, the entry of `PROFMEM` (R47). -/
def profAt (s : State) (i : Nat) : Nat := (entryOr s.mem.prof s.free 6 i).toNat

end Sys2Proof.Machine
end

