-- ==== Sys2Proof/Machine/Flags.lean ====
section
/-! DEFINITION. Every flag computation: what a starting stage and a host write clear (45_control_commands.md
R229, R230, 10_state.md R28), what CLR clears (R233), and the words `STATUS` and `ERRINFO` (R35, R36). -/

namespace Sys2Proof.Machine

/-- Clears the valid flag of stage `st` and every later one (R229; R28 clears the same sets). -/
def Valid.clearFrom (st : Stage) (v : Valid) : Valid :=
  match st with
  | .none => v
  | .env => { env := false, tr := false, bd := false, prof := false, fs := false, pe := false }
  | .trec => { v with tr := false, bd := false, prof := false, fs := false, pe := false }
  | .bdec => { v with bd := false, prof := false, fs := false, pe := false }
  | .fsync => { v with prof := false, fs := false, pe := false }
  | .pext => { v with pe := false }

/-- Clears the condition flags whose guarding valid flag is cleared (R27, R229). -/
def Cond.clearFrom (st : Stage) (c : Cond) : Cond :=
  match st with
  | .none => c
  | .env => { envZero := false, wTrec := false, wFsync := false }
  | .trec => { c with wTrec := false, wFsync := false }
  | .bdec => { c with wFsync := false }
  | .fsync => { c with wFsync := false }
  | .pext => c

/-- The result registers a starting stage sets to 0 (R230). -/
def Results.clearOf (st : Stage) (r : Results) : Results :=
  match st with
  | .none => r
  | .env => { r with envmax := 0#64, envsum := 0#64, envden := 0#64 }
  | .trec => { r with nbits := 0#17, eps := 0#64 }
  | .bdec => r
  | .fsync => { r with syncidx := 0#17, paystart := 0#18 }
  | .pext => r

/-- The sequencer's value during a stage (R29). -/
def Stage.toSeq (st : Stage) : Seq :=
  match st with
  | .none => .idle
  | .env => .sEnv
  | .trec => .sTrec
  | .bdec => .sBdec
  | .fsync => .sFsync
  | .pext => .sPext

/-- A stage starts: the sequencer moves to it (R12, R29), its flags and the later ones are cleared (R229) and
its result registers are 0 (R230). -/
def beginStage (st : Stage) (s : State) : State :=
  { s with
    seq := st.toSeq
    valid := s.valid.clearFrom st
    cond := s.cond.clearFrom st
    res := s.res.clearOf st }

/-- A host write changes an input of stage `st`: the flags of everything computed from it are cleared, the
result registers keep their values (R28, R45). -/
def invalidateFrom (st : Stage) (s : State) : State :=
  { s with valid := s.valid.clearFrom st, cond := s.cond.clearFrom st }

/-- What CLR clears (R233): every valid and condition flag and every result register. -/
def clearResults (s : State) : State :=
  { s with
    valid := s.valid.clearFrom .env
    cond := s.cond.clearFrom .env
    res :=
      { envmax := 0#64
        envsum := 0#64
        envden := 0#64
        nbits := 0#17
        eps := 0#64
        syncidx := 0#17
        paystart := 0#18 } }

/-- The number of a result code (R251). -/
def Code.bits (c : Code) : BitVec 4 :=
  match c with
  | .ok => 0#4
  | .config => 1#4
  | .insuff => 2#4
  | .nosync => 3#4
  | .illcmd => 4#4
  | .seq => 5#4

/-- The number of a stage in `ERRINFO.STAGE` (R36). -/
def Stage.bits (st : Stage) : BitVec 4 :=
  match st with
  | .none => 0#4
  | .env => 1#4
  | .trec => 2#4
  | .bdec => 3#4
  | .fsync => 4#4
  | .pext => 5#4

/-- One bit as a bit field. -/
def bitOf (b : Bool) : BitVec 1 := BitVec.ofBool b

/-- `STATUS` (R35), most significant field first. -/
def statusWord (s : State) : Word :=
  0#37 ++ bitOf s.cond.wFsync ++ bitOf s.cond.wTrec ++ bitOf s.cond.envZero ++ 0#2 ++
    bitOf s.valid.pe ++ bitOf s.valid.fs ++ bitOf s.valid.prof ++ bitOf s.valid.bd ++
    bitOf s.valid.tr ++ bitOf s.valid.env ++ 0#4 ++ s.lastop ++ s.err.bits ++ 0#2 ++
    bitOf s.done ++ bitOf s.busy

/-- `ERRINFO` (R36): `SUB` in bits 7:4, `STAGE` in bits 3:0. -/
def errinfoWord (s : State) : Word := 0#56 ++ s.errSub ++ s.errStage.bits

end Sys2Proof.Machine
end

