-- ==== Sys2Proof/Machine/BitDecision.lean ====
section
/-! DEFINITION. Stage 3, the Bit Decision Stage: command BDEC (42_bit_decision.md R170 to R172). -/

namespace Sys2Proof.Machine

/-- `B[k] = 1` if `Y[k] > 0` else 0: the comparison is strict (R171). -/
def decideBit (y : Int) : BitVec 1 := if 0 < y then 1#1 else 0#1

/-- The state after the body of BDEC (R171). -/
def bdecDone (s : State) : State :=
  let s0 := beginStage .bdec s
  discardWork
    { s0 with
      mem := { s0.mem with
        bits := Cells.fill s0.mem.bits (fun k => decideBit (synAt s k)) (bitCount s) }
      valid := { s0.valid with bd := true } }

/-- The body of BDEC (R171): it raises nothing. -/
def bdecBody (s : State) : StageEnd := .ok (bdecDone s)

/-- The meaning of `BDEC` (R171). -/
def execBdec (s : State) : Host.Outcome State Fault Refusal := command .bdec bdecBody s

end Sys2Proof.Machine
end

