-- ==== Sys2Proof/Machine/Envelope.lean ====
section
/-! DEFINITION. Stage 1, the Envelope Stage: command ENV (40_envelope.md R120 to R131). -/

namespace Sys2Proof.Machine

/-- `S[n] = Σ_{j=0}^{sps-1} apad(n - sps//2 + j)`, `apad` zero outside `0 .. N-1` (R124); no flag (R122). -/
def windowSum (count width : Nat) (a : Nat → Nat) (n : Nat) : Nat :=
  sumUpTo (fun j => padRead 0 count a ((n : Int) - ((width / 2 : Nat) : Int) + (j : Int))) width

/-- What ENV computes from the amplitudes (R125 to R128). -/
structure Envelope where
  smax : Nat
  total : Nat
  den : Nat
  zero : Bool
  deriving DecidableEq, Repr

/-- `Smax`, `T`, `D` and `ENV_ZERO` (R125, R127, R128). -/
def envelopeOf (count : Nat) (sum : Nat → Nat) : Envelope :=
  let smax := maxUpTo sum count
  { smax := smax
    total := sumUpTo sum count
    den := if smax = 0 then 1 else count * smax
    zero := decide (smax = 0) }

/-- `C[n] = N·S[n] - T`, and 0 for an all-zero envelope (R127, R128). -/
def centered (count : Nat) (e : Envelope) (sum : Nat → Nat) (n : Nat) : Int :=
  if e.zero then 0 else (count : Int) * (sum n : Int) - (e.total : Int)

/-- The window sums of the capture now in `IQMEM`, `FS`, `BR`, `NSAMP` (R121). -/
def captureSum (s : State) : Nat → Nat :=
  windowSum (sampleCount s.cfg) (sps s.cfg) (amplitude s)

/-- The state after the body of ENV (R121), from "clear ENV_VALID" to "ENV_VALID <- 1". -/
def envDone (s : State) : State :=
  let count := sampleCount s.cfg
  let sum := captureSum s
  let e := envelopeOf count sum
  let s0 := beginStage .env s
  discardWork
    { s0 with
      mem := { s0.mem with
        cent := Cells.fill s0.mem.cent (fun n => BitVec.ofInt 64 (centered count e sum n)) count }
      res := { s0.res with
        envmax := BitVec.ofNat 64 e.smax
        envsum := BitVec.ofNat 64 e.total
        envden := BitVec.ofNat 64 e.den }
      cond := { s0.cond with envZero := e.zero }
      valid := { s0.valid with env := true } }

/-- The body of ENV (R121): total, it raises nothing. -/
def envBody (s : State) : StageEnd := .ok (envDone s)

/-- The meaning of `ENV` (R121). -/
def execEnv (s : State) : Host.Outcome State Fault Refusal := command .env envBody s

end Sys2Proof.Machine
end

