-- ==== Sys2Proof/Machine/FrameSync.lean ====
section
/-! DEFINITION. Stage 4, the Frame Sync Stage: command FSYNC (43_frame_sync.md R180 to R195). -/

namespace Sys2Proof.Machine

/-- The index of the bit met by `P[j]` at position `i`: `i - h + j` (R184). -/
def corrIndex (half i j : Nat) : Int := (i : Int) - (half : Int) + (j : Int)

/-- `CorrelationProfile[i] = Σ_j Bpad(i - h + j)·P[j]` (R183, R184): coinciding ones. -/
def score (bit : Nat → Nat) (count : Nat) (pat : Nat → Bool) (len i : Nat) : Nat :=
  sumUpTo (fun j => padRead 0 count bit (corrIndex (len / 2) i j) * (pat j).toNat) len

/-- `W_FSYNC`: some read of the correlation was outside `0 .. Nb-1` (R185); every `j` is read. -/
def corrWarn (count len : Nat) : Bool :=
  anyUpTo (fun i => anyUpTo (fun j => outOfRange count (corrIndex (len / 2) i j)) len) count

/-- Whether position `i` qualifies (R186): all three comparisons strict, differences signed. -/
def qualifies (prof : Nat → Nat) (th i : Nat) : Bool :=
  decide ((th : Int) < (prof i : Int)) &&
  decide ((th : Int) < (prof i : Int) - (prof (i - 1) : Int)) &&
  decide ((th : Int) < (prof i : Int) - (prof (i + 1) : Int))

/-- The scan's working registers (R23). -/
structure Scan where
  syncIndex : Nat
  payloadStart : Nat
  found : Bool
  deriving DecidableEq, Repr

/-- Whether the qualifying position `i` is taken (R181, R187 to R189): `FIRST` 0, `LAST` 1, `STRONGEST` 2. -/
def takes (policy : BitVec 2) (prof : Nat → Nat) (i : Nat) (st : Scan) : Bool :=
  if policy = 1#2 then true
  else if policy = 0#2 then !st.found
  else if policy = 2#2 then !st.found || decide (prof st.syncIndex ≤ prof i)
  else false

/-- One position of the scan (R181, R190). -/
def scanPosition (prof : Nat → Nat) (th : Nat) (policy : BitVec 2) (half i : Nat) (st : Scan) : Scan :=
  if qualifies prof th i then
    if takes policy prof i st then { syncIndex := i, payloadStart := i + half, found := true }
    else { st with found := true }
  else st

/-- The scan over `i = 1 .. last` in this order (R186), from `syncIndex = 0`, `found = 0`. -/
def scanUpTo (prof : Nat → Nat) (th : Nat) (policy : BitVec 2) (half : Nat) : Nat → Scan
  | 0 => { syncIndex := 0, payloadStart := 0, found := false }
  | last + 1 => scanPosition prof th policy half (last + 1) (scanUpTo prof th policy half last)

/-- The scan of the profile now in `PROFMEM`: `i = 1 .. Nb-2`, none when `Nb < 3` (R186). -/
def scanOf (s : State) : Scan :=
  scanUpTo (profAt s) s.cfg.th.toNat s.cfg.policy (halfPat s.cfg) (bitCount s - 2)

/-- FSYNC up to the scan (R181): `PROFMEM`, `W_FSYNC`, `PROF_VALID`. -/
def profiled (s : State) : State :=
  let count := bitCount s
  let len := patLen s.cfg
  let s0 := beginStage .fsync s
  { s0 with
    mem := { s0.mem with
      prof := Cells.fill s0.mem.prof
        (fun i => BitVec.ofNat 12 (score (bitAt s) count (patBit s.cfg s.syncw) len i)) count }
    cond := { s0.cond with wFsync := corrWarn count len }
    valid := { s0.valid with prof := true } }

/-- The state after a scan that accepted a position (R190). -/
def fsyncDone (s : State) (st : Scan) : State :=
  let s1 := profiled s
  discardWork
    { s1 with
      res := { s1.res with
        syncidx := BitVec.ofNat 17 st.syncIndex
        paystart := BitVec.ofNat 18 st.payloadStart }
      valid := { s1.valid with fs := true } }

/-- The body of FSYNC (R181); NOSYNC(4, 0) when no position qualified (R191). -/
def fsyncBody (s : State) : StageEnd :=
  let st := scanOf (profiled s)
  if st.found then .ok (fsyncDone s st)
  else .raised (discardWork (profiled s)) { code := .nosync, stage := .fsync, sub := 0#4 }

/-- The meaning of `FSYNC` (R181). -/
def execFsync (s : State) : Host.Outcome State Fault Refusal := command .fsync fsyncBody s

end Sys2Proof.Machine
end

