-- ==== Sys2Proof/Machine/Payload.lean ====
section
/-! DEFINITION. Stage 5, the Payload Extraction Stage: command PEXT (44_payload_packer.md R210 to R215). -/

namespace Sys2Proof.Machine

/-- `Σ_{k=0}^{7} bit[start + k] << (7 - k)` (R213): the earliest bit becomes bit 7. -/
def packByte (bit : Nat → Nat) (start : Nat) : Byte :=
  BitVec.ofNat 8 (sumUpTo (fun k => bit (start + k) <<< (7 - k)) 8)

/-- The range check `PAYSTART + 8·PAYSZ > Nb`, in unbounded integers (R212). -/
def payloadTooLong (s : State) : Bool :=
  decide (bitCount s < s.res.paystart.toNat + 8 * s.cfg.paysz.toNat)

/-- The state after the packing (R213). -/
def pextDone (s : State) : State :=
  let s0 := beginStage .pext s
  discardWork
    { s0 with
      mem := { s0.mem with
        pay := Cells.fill s0.mem.pay
          (fun b => packByte (bitAt s) (s.res.paystart.toNat + 8 * b)) s.cfg.paysz.toNat }
      valid := { s0.valid with pe := true } }

/-- The body of PEXT (R211); INSUFF(5, 2) before any byte is written (R212). -/
def pextBody (s : State) : StageEnd :=
  if payloadTooLong s then
    .raised (discardWork (beginStage .pext s)) { code := .insuff, stage := .pext, sub := 2#4 }
  else .ok (pextDone s)

/-- The meaning of `PEXT` (R211). -/
def execPext (s : State) : Host.Outcome State Fault Refusal := command .pext pextBody s

end Sys2Proof.Machine
end

