-- ==== Sys2Proof/Machine/Timing.lean ====
section
/-! DEFINITION. Stage 2, the Timing Recovery Stage: command TREC (41_timing_recovery.md R140 to R156). -/

namespace Sys2Proof.Machine

/-- The loop's state: TimingState (R17, R142) with the warning and the two output memories. Integers are
unbounded (R14). -/
structure TimingLoop where
  index : Nat
  epsilon : Int
  warn : Bool
  clk : Cells (BitVec 16)
  syn : Cells Word
  deriving DecidableEq, Repr

/-- The loop guard `index·sps + epsilon < N - sps` (R143). -/
def timingGuard (count width : Nat) (l : TimingLoop) : Bool :=
  decide ((l.index : Int) * width + l.epsilon < (count : Int) - width)

/-- `mid = index·sps + epsilon` (R144). -/
def midInstant (width index : Nat) (epsilon : Int) : Int := (index : Int) * width + epsilon

/-- `prev = (index-1)·sps + epsilon` (R144). -/
def prevInstant (width index : Nat) (epsilon : Int) : Int := ((index : Int) - 1) * width + epsilon

/-- `early = index·sps - sps//2 + epsilon` (R144). -/
def earlyInstant (width index : Nat) (epsilon : Int) : Int :=
  (index : Int) * width - ((width / 2 : Nat) : Int) + epsilon

/-- `round(num, den)` with `num = -sps·(xm - xp)·xe`, `den = 2·D²` (R145, R146): the phase update of a pass
that starts at `index` and `epsilon`, reading the centered sequence `c`. -/
def phaseUpdate (c : Nat → Int) (count width den : Nat) (index : Nat) (epsilon : Int) : Int :=
  let xm := padRead 0 count c (midInstant width index epsilon)
  let xp := padRead 0 count c (prevInstant width index epsilon)
  let xe := padRead 0 count c (earlyInstant width index epsilon)
  roundDiv (-(width : Int) * (xm - xp) * xe) (2 * (den : Int) * (den : Int))

/-- One pass (R141, R144 to R149): the reads use the old `epsilon`, the output the new one. -/
def timingPass (c : Nat → Int) (count width den : Nat) (l : TimingLoop) : TimingLoop :=
  let epsilon := l.epsilon + phaseUpdate c count width den l.index l.epsilon
  let t := midInstant width l.index epsilon
  { index := l.index + 1
    epsilon := epsilon
    warn := l.warn || outOfRange count (midInstant width l.index l.epsilon) ||
      outOfRange count (prevInstant width l.index l.epsilon) ||
      outOfRange count (earlyInstant width l.index l.epsilon) || outOfRange count t
    clk := Cells.write l.clk l.index (BitVec.ofInt 16 t)
    syn := Cells.write l.syn l.index (BitVec.ofInt 64 (padRead 0 count c t)) }

/-- The loop (R141), at most `fuel` passes: `none` when the guard still holds after them. R151 (h) bounds the
passes by `N - 1` for every centered sequence of ENV. -/
def timingRun (c : Nat → Int) (count width den : Nat) : Nat → TimingLoop → Option TimingLoop
  | 0, l => if timingGuard count width l then none else some l
  | fuel + 1, l =>
    if timingGuard count width l then
      timingRun c count width den fuel (timingPass c count width den l)
    else some l

/-- TimingState at the start of every TREC: `index = 0`, `epsilon = 0` (R142). -/
def timingInit (m : Memory) : TimingLoop :=
  { index := 0, epsilon := 0, warn := false, clk := m.clk, syn := m.syn }

/-- The loop on the registers and memories as they are (R141). -/
def timingOf (s : State) : Option TimingLoop :=
  timingRun (centAt s) (sampleCount s.cfg) (sps s.cfg) s.res.envden.toNat (sampleCount s.cfg)
    (timingInit s.mem)

/-- The state after a loop that made at least one pass (R150). -/
def trecDone (s : State) (l : TimingLoop) : State :=
  let s0 := beginStage .trec s
  discardWork
    { s0 with
      mem := { s0.mem with clk := l.clk, syn := l.syn }
      res := { s0.res with
        nbits := BitVec.ofNat 17 l.index
        eps := BitVec.ofInt 64 l.epsilon }
      cond := { s0.cond with wTrec := l.warn }
      valid := { s0.valid with tr := true } }

/-- The body of TREC (R141), from "clear TR_VALID" to "TR_VALID <- 1"; INSUFF(2, 1) when no pass ran (R150). -/
def trecBody (s : State) : StageEnd :=
  match timingOf s with
  | none => .overrun
  | some l =>
    if l.index = 0 then
      .raised (discardWork (beginStage .trec s)) { code := .insuff, stage := .trec, sub := 1#4 }
    else .ok (trecDone s l)

/-- The meaning of `TREC` (R141). -/
def execTrec (s : State) : Host.Outcome State Fault Refusal := command .trec trecBody s

end Sys2Proof.Machine
end

