-- ==== Sys2Proof/Machine/Control.lean ====
section
/-! DEFINITION. The commands RUN and CLR, and the end of an illegal word (45_control_commands.md R225 to R233). -/

namespace Sys2Proof.Machine

/-- The bodies of the five stages in order, up to the first `raise` (R231). -/
def runBody (s : State) : StageEnd :=
  ((((envBody s).andThen trecBody).andThen bdecBody).andThen fsyncBody).andThen pextBody

/-- The meaning of `RUN` (R231): the prologue with no prerequisite, then the five bodies. -/
def execRun (s : State) : Host.Outcome State Fault Refusal := command .none runBody s

/-- The meaning of `CLR` (R233): no configuration check, no prerequisite, raises nothing. -/
def execClr (s : State) : Host.Outcome State Fault Refusal :=
  .next (complete (clearResults s) okRecord)

/-- A pending word that decodes to ILLEGAL (R227 step 1, R253): ILLCMD(0, 0) and no other effect. -/
def execIllegal (s : State) : Host.Outcome State Fault Refusal :=
  .next (complete s { code := .illcmd, stage := .none, sub := 0#4 })

end Sys2Proof.Machine
end

