-- ==== Sys2Proof/Machine/Dispatch.lean ====
section
/-! DEFINITION. One arm per command. -/

namespace Sys2Proof.Machine

def exec (i : Instr) (s : State) : Host.Outcome State Fault Refusal :=
  match i with
  | .env => Sys2Proof.Machine.execEnv s
  | .trec => Sys2Proof.Machine.execTrec s
  | .bdec => Sys2Proof.Machine.execBdec s
  | .fsync => Sys2Proof.Machine.execFsync s
  | .pext => Sys2Proof.Machine.execPext s
  | .run => Sys2Proof.Machine.execRun s
  | .clr => Sys2Proof.Machine.execClr s

end Sys2Proof.Machine
end

