-- ==== Sys2Proof/Machine/HostPort.lean ====
section
/-! DEFINITION. The host port: the register map (10_state.md R32 to R46), the address spaces (20_memory.md R61),
the transactions `MemRead` and `MemWrite` with the busy rule (R63 to R66), and the reset input
(70_reset_and_hazards.md R291). -/

namespace Sys2Proof.Machine

/-- `addr[23:20]` (R61). -/
def spaceOf (addr : HostAddr) : Nat := (addr.extractLsb' 20 4).toNat

/-- `addr[19:0]` (R61). -/
def indexOf (addr : HostAddr) : Nat := (addr.extractLsb' 0 20).toNat

/-! ## Reads -/

/-- A readable register of space 0 (R32 to R46); `none` for `CMD` and the reserved indices. -/
def regRead (s : State) (idx : Nat) : Option Word :=
  match idx with
  | 0x00 => some Config.coreId
  | 0x02 => some (statusWord s)
  | 0x03 => some (errinfoWord s)
  | 0x04 => some (s.cfg.fs.setWidth 64)
  | 0x05 => some (s.cfg.br.setWidth 64)
  | 0x06 => some (BitVec.ofNat 64 (sps s.cfg))
  | 0x07 => some (s.cfg.nsamp.setWidth 64)
  | 0x08 => some (s.cfg.pre.setWidth 64)
  | 0x09 => some (s.cfg.npre.setWidth 64)
  | 0x0A => some (s.cfg.swlen.setWidth 64)
  | 0x0B => some (BitVec.ofNat 64 (patLen s.cfg))
  | 0x0C => some (s.cfg.th.setWidth 64)
  | 0x0D => some (s.cfg.policy.setWidth 64)
  | 0x0E => some (s.cfg.paysz.setWidth 64)
  | 0x10 => some s.res.envmax
  | 0x11 => some s.res.envsum
  | 0x12 => some s.res.envden
  | 0x13 => some (s.res.nbits.setWidth 64)
  | 0x14 => some s.res.eps
  | 0x15 => some (s.res.syncidx.setWidth 64)
  | 0x16 => some (s.res.paystart.setWidth 64)
  | _ => none

/-- The data word of a sample (R61): `I` in bits 15:0, `Q` in bits 47:32, other bits 0. -/
def sampleWord (x : Sample) : Word := 0#16 ++ x.q ++ 0#16 ++ x.i

/-- An output memory's entry as the host reads it: the entry where it is specified (below `len`, valid flag
1), else a free value of the entry's format (R48, U2; log 4). -/
def hostEntry {w : Nat} (valid : Bool) (len : Nat) (m : Cells (BitVec w)) (free space idx : Nat) :
    BitVec w :=
  if valid && decide (idx < len) then entryOr m free space idx
  else (Config.unspecifiedBits free space idx).setWidth w

/-- `MemRead(space, idx)` without the busy rule (R61, R63): `none` is the `ERR` response. -/
def memRead (s : State) (space idx : Nat) : Option Word :=
  match space with
  | 0 => regRead s idx
  | 1 => if idx < Config.nMax then some (sampleWord (iqAt s idx)) else none
  | 2 =>
    if idx < Config.nMax then
      some (hostEntry s.valid.env (sampleCount s.cfg) s.mem.cent s.free 2 idx)
    else none
  | 3 =>
    if idx < Config.nMax then
      some ((hostEntry s.valid.tr (bitCount s) s.mem.clk s.free 3 idx).setWidth 64)
    else none
  | 4 =>
    if idx < Config.nMax then some (hostEntry s.valid.tr (bitCount s) s.mem.syn s.free 4 idx)
    else none
  | 5 =>
    if idx < Config.nMax then
      some ((hostEntry s.valid.bd (bitCount s) s.mem.bits s.free 5 idx).setWidth 64)
    else none
  | 6 =>
    if idx < Config.nMax then
      some ((hostEntry s.valid.prof (bitCount s) s.mem.prof s.free 6 idx).setWidth 64)
    else none
  | 7 =>
    if idx < Config.payDepth then
      some ((hostEntry s.valid.pe s.cfg.paysz.toNat s.mem.pay s.free 7 idx).setWidth 64)
    else none
  | 8 => if idx < Config.swMax then some ((syncByte s.syncw idx).setWidth 64) else none
  | _ => none

/-! ## Writes -/

/-- A write of a configuration register: the field's bits of the word (R32), then the flags of what is
computed from it (R28). -/
def writeCfg (s : State) (st : Stage) (c : Cfg) : State := invalidateFrom st { s with cfg := c }

/-- A write to space 0 (R32, R34, R37 to R44); `none` for read-only and reserved indices. -/
def regWrite (s : State) (idx : Nat) (v : Word) : Option State :=
  match idx with
  | 0x01 => some { s with pend := v, busy := true, done := false }
  | 0x04 => some (writeCfg s .env { s.cfg with fs := v.setWidth 32 })
  | 0x05 => some (writeCfg s .env { s.cfg with br := v.setWidth 32 })
  | 0x07 => some (writeCfg s .env { s.cfg with nsamp := v.setWidth 17 })
  | 0x08 => some (writeCfg s .fsync { s.cfg with pre := v.setWidth 8 })
  | 0x09 => some (writeCfg s .fsync { s.cfg with npre := v.setWidth 8 })
  | 0x0A => some (writeCfg s .fsync { s.cfg with swlen := v.setWidth 8 })
  | 0x0C => some (writeCfg s .fsync { s.cfg with th := v.setWidth 16 })
  | 0x0D => some (writeCfg s .fsync { s.cfg with policy := v.setWidth 2 })
  | 0x0E => some (writeCfg s .pext { s.cfg with paysz := v.setWidth 16 })
  | _ => none

/-- The sample a data word stands for (R61); the other bits are ignored. -/
def wordSample (v : Word) : Sample := { i := v.extractLsb' 0 16, q := v.extractLsb' 32 16 }

/-- `SYNCW[q] <- b` (R46). -/
def setSyncByte (w : Vector Byte 8) (q : Nat) (b : Byte) : Vector Byte 8 :=
  if h : q < 8 then w.set q b h else w

/-- `MemWrite(space, idx, v)` without the busy rule (R61, R64): `none` is the `ERR` response. -/
def memWrite (s : State) (space idx : Nat) (v : Word) : Option State :=
  match space with
  | 0 => regWrite s idx v
  | 1 =>
    if idx < Config.nMax then
      some (invalidateFrom .env
        { s with mem := { s.mem with iq := Cells.write s.mem.iq idx (wordSample v) } })
    else none
  | 8 =>
    if idx < Config.swMax then
      some (invalidateFrom .fsync { s with syncw := setSyncByte s.syncw idx (v.setWidth 8) })
    else none
  | _ => none

/-! ## Transactions -/

/-- The busy rule (R66): while `BUSY = 1` only a read of `STATUS` or `ID` gets `OK`. -/
def readAllowed (s : State) (space idx : Nat) : Bool :=
  !s.busy || (decide (space = 0) && (decide (idx = 0x02) || decide (idx = 0x00)))

/-- The response of the host port to a read (R63, R66). -/
def readResponse (s : State) (addr : HostAddr) : Response :=
  if readAllowed s (spaceOf addr) (indexOf addr) then
    match memRead s (spaceOf addr) (indexOf addr) with
    | some w => .data w
    | none => .err
  else .err

/-- A host read: nothing of the core changes (R63); the model records the response and moves its counter of
free values on, since a word that is unspecified need not be the same twice (log 4). -/
def hostRead (s : State) (addr : HostAddr) : State :=
  { s with resp := some (readResponse s addr), free := s.free + 1 }

/-- A host write (R64, R66): `ERR` changes nothing but the recorded response (R65). -/
def hostWrite (s : State) (addr : HostAddr) (v : Word) : State :=
  if s.busy then { s with resp := some .err }
  else
    match memWrite s (spaceOf addr) (indexOf addr) v with
    | some t => { t with resp := some .ok }
    | none => { s with resp := some .err }

/-- The reset input (R291): the state of R52, whatever the core was doing. The model's own fields go on: the
schedule, the last response, and a counter that gives other free values than before. -/
def resetEvent (s : State) : State :=
  { State.reset with port := s.port, resp := s.resp, free := s.free + 1 }

end Sys2Proof.Machine
end

