-- ==== Sys2Proof/Machine/HostLines.lean ====
section
/-! DEFINITION. The host-side lines of 30_encoding.md R104 to R108: hexadecimal text to bytes and its refusals,
the display of a byte, and the expansion of every line into host events. -/

namespace Sys2Proof.Machine

/-! ## Hexadecimal text (R105 to R107) -/

/-- The value of a hexadecimal digit; `none` for any other character (R105, R106). -/
def hexDigit (c : Char) : Option Nat :=
  let n := c.toNat
  if 48 ≤ n ∧ n ≤ 57 then some (n - 48)
  else if 65 ≤ n ∧ n ≤ 70 then some (n - 55)
  else if 97 ≤ n ∧ n ≤ 102 then some (n - 87)
  else none

/-- The values of all digits, `none` if one is malformed (R106). -/
def hexDigits : List Char → Option (List Nat)
  | [] => some []
  | c :: rest =>
    match hexDigit c, hexDigits rest with
    | some d, some ds => some (d :: ds)
    | _, _ => none

/-- Bytes of an even number of digits: byte `q` is `16·d_{2q} + d_{2q+1}` (R105). -/
def pairBytes : List Nat → List Byte
  | d :: e :: rest => BitVec.ofNat 8 (16 * d + e) :: pairBytes rest
  | _ => []

/-- The bytes of a hex string; an odd number of digits gets a 0 in front (R105). -/
def hexBytes (text : List Char) : Option (List Byte) :=
  match hexDigits text with
  | some ds => some (pairBytes (if ds.length % 2 = 0 then ds else 0 :: ds))
  | none => none

/-- One hexadecimal digit as it is shown (R107). R107 does not say in which case the digits ten to fifteen are
shown, and R105 takes both: upper case is the model's, DESIGN CHOICE, log 8. -/
def hexChar (d : Nat) : Char := if d < 10 then Char.ofNat (48 + d) else Char.ofNat (55 + d)

/-- A byte as it is shown (R107): `0x` and two digits, high digit first. -/
def displayByte (b : Byte) : List Char := ['0', 'x', hexChar (b.toNat / 16), hexChar (b.toNat % 16)]

/-! ## Lines and their host events (R104, R108) -/

/-- The 24-bit address of a place (R104). R104 gives no encoding to an index that the 20 bits of `idx` do not hold
(no entry has one): the model keeps the index modulo `2^20`, and a space modulo `2^4`, DESIGN CHOICE, log 9. -/
def placeAddr (space idx : Nat) : HostAddr := BitVec.ofNat 4 space ++ BitVec.ofNat 20 idx

/-- `WR <register>, v` and `WR <memory>[idx], v`. -/
def lineWr (space idx : Nat) (v : Word) : HostEvent := .write (placeAddr space idx) v

/-- `RD <place>`. -/
def lineRd (space idx : Nat) : HostEvent := .read (placeAddr space idx)

/-- The data word of `(I, Q)` in two's complement (R104, R61). A component that `IQ_W` bits do not hold, for which
R104 gives no word, is kept modulo `2^IQ_W`: DESIGN CHOICE, log 9. -/
def pairWord (i q : Int) : Word := sampleWord { i := BitVec.ofInt 16 i, q := BitVec.ofInt 16 q }

/-- `CMD <mnemonic>`. -/
def lineCmd (i : Instr) : HostEvent := lineWr 0 0x01 (encode i)

/-- `WAIT` when the core steps after `polls` reads of `STATUS` that still show `BUSY = 1` (R108, R300). -/
def lineWait (polls : Nat) : List HostEvent :=
  List.replicate polls (lineRd 0 0x02) ++ [.core, lineRd 0 0x02]

/-- `EXEC <mnemonic>`: `CMD` then `WAIT`. -/
def lineExec (i : Instr) (polls : Nat) : List HostEvent := lineCmd i :: lineWait polls

/-- Consecutive entries of a memory, starting at an index (from `2^20` on, the addresses of log 9). -/
def lineFill (space : Nat) : Nat → List Word → List HostEvent
  | _, [] => []
  | idx, v :: rest => lineWr space idx v :: lineFill space (idx + 1) rest

/-- `SYNCWORD "<hex>"`; `none` where the host-side conversion refuses the text: a character that is no digit,
or more than `SW_MAX` bytes (R106). -/
def lineSyncword (text : List Char) : Option (List HostEvent) :=
  match hexBytes text with
  | some bytes =>
    if bytes.length ≤ Config.swMax then
      some (lineWr 0 0x0A (BitVec.ofNat 64 bytes.length) ::
        lineFill 8 0 (bytes.map fun b => b.setWidth 64))
    else none
  | none => none

/-- `PREAMBLE "<hex>", n`; `none` unless the text is exactly one byte (R105, R106). -/
def linePreamble (text : List Char) (n : Word) : Option (List HostEvent) :=
  match hexBytes text with
  | some [b] => some [lineWr 0 0x08 (b.setWidth 64), lineWr 0 0x09 n]
  | _ => none

/-- `RATES fs, br`. -/
def lineRates (fs br : Word) : List HostEvent := [lineWr 0 0x04 fs, lineWr 0 0x05 br]

/-- `LOADIQ <list>`: the length to `NSAMP`, then the samples. -/
def lineLoadiq (samples : List (Int × Int)) : List HostEvent :=
  lineWr 0 0x07 (BitVec.ofNat 64 samples.length) ::
    lineFill 1 0 (samples.map fun x => pairWord x.1 x.2)

/-- The reads of `DEMOD` (R108): `PAYMEM[b]` for `b = 0 .. PAYSZ-1` if `STATUS.ERR = 0` in the word `status`. -/
def lineDemodReads (status : Word) (paysz : Nat) : List HostEvent :=
  if status.extractLsb' 4 4 = 0#4 then (List.range paysz).map fun b => lineRd 7 b else []

/-- What the host issues when it decides in `DEMOD` (R108): the reads for the word it read last, which after
`EXEC RUN` is `WAIT`'s result, and for the `PAYSZ` it configured; none where the last response has no word. -/
def demodDecision (s : State) : List HostEvent :=
  match s.resp with
  | some (.data status) => lineDemodReads status s.cfg.paysz.toNat
  | _ => []

/-- `DEMOD`: `EXEC RUN`, then the host's decision on the `STATUS` word that it read last (R108). -/
def lineDemod (polls : Nat) : List HostEvent := lineExec .run polls ++ [.demodReads]

end Sys2Proof.Machine
end

