-- ==== Sys2Proof/Machine/Step.lean ====
section
/-! DEFINITION. One step of the machine: the next event of the schedule, or the core's `Execute`
(45_control_commands.md R226). -/

namespace Sys2Proof.Machine

/-- The core's turn (R226): enabled exactly when `BUSY = 1`; otherwise nothing happens (R293). -/
def coreStep (s : State) : Host.Outcome State Fault Refusal :=
  if s.busy then
    match decode s.pend with
    | .command i => exec i s
    | .illegal => execIllegal s
  else .next s

/-- One step: the first event of the schedule takes effect, completely (R73); with no event left the core has
its turn (R300: the step always comes). A host decision replaces itself by the transactions decided on (R108). -/
def step (s : State) : Host.Outcome State Fault Refusal :=
  match s.port with
  | [] => coreStep s
  | .core :: rest => coreStep { s with port := rest }
  | .read addr :: rest => .next (hostRead { s with port := rest } addr)
  | .write addr v :: rest => .next (hostWrite { s with port := rest } addr v)
  | .reset :: rest => .next (resetEvent { s with port := rest })
  | .demodReads :: rest => .next { s with port := demodDecision s ++ rest }

/-- `s` with the command word pending, as an accepted write of `CMD` leaves it (R34), so that the very next
step executes it. The bits above `nbits` are 0. A schedule that would go first lets the core step first;
an empty one needs no change. -/
def State.withFetchWord (s : State) (nbits w : Nat) : State :=
  { s with
    pend := BitVec.ofNat 64 (w % 2 ^ nbits)
    busy := true
    done := false
    port := match s.port with
      | [] => []
      | e :: rest => .core :: e :: rest }

end Sys2Proof.Machine
end

