-- ==== Sys2Proof/Safety.lean ====
section
/-! DEFINITION. What counts as a safe run, in the terms the statements use: the invariants of the core's state,
the meaning of "a result marked valid" (10_state.md R26, R28), and the rules' formulas as the statements write
them. -/

namespace Sys2Proof.Machine

/-! ## The invariants -/

/-- A valid flag is never 1 when the one above it is 0 (R229). -/
def FlagChain (v : Valid) : Prop :=
  (v.tr = true → v.env = true) ∧ (v.bd = true → v.tr = true) ∧ (v.prof = true → v.bd = true) ∧
    (v.fs = true → v.prof = true) ∧ (v.pe = true → v.fs = true)

/-- A condition flag is cleared whenever the valid flag that guards it is (R27). -/
def CondGuarded (v : Valid) (c : Cond) : Prop :=
  (c.envZero = true → v.env = true) ∧ (c.wTrec = true → v.tr = true) ∧
    (c.wFsync = true → v.prof = true)

/-- The rows of R251's table: the `STAGE` and `SUB` a result code is recorded with. -/
def LegalRecord (code : Code) (stage : Stage) (sub : BitVec 4) : Prop :=
  match code with
  | .ok => stage = .none ∧ sub = 0#4
  | .config => stage = .none ∧ 1 ≤ sub.toNat ∧ sub.toNat ≤ 6
  | .insuff => (stage = .trec ∧ sub = 1#4) ∨ (stage = .pext ∧ sub = 2#4)
  | .nosync => stage = .fsync ∧ sub = 0#4
  | .illcmd => stage = .none ∧ sub = 0#4
  | .seq => stage = .none ∧ 2 ≤ sub.toNat ∧ sub.toNat ≤ 5

/-- The entries `0 .. len-1` of a memory are specified (R47 `len`, R48). -/
def Listed {α : Type} (m : Cells α) (len : Nat) : Prop := ∀ n < len, (Cells.read m n).isSome = true

/-- What R129 gives for a centered sequence `c` of `count` entries over the denominator `den`: every entry
lies strictly between `-den` and `den`, and two entries differ by at most `den`. -/
def CenteredBounds (c : Nat → Int) (count : Nat) (den : Nat) : Prop :=
  1 ≤ den ∧ (∀ n < count, -(den : Int) < c n ∧ c n < (den : Int)) ∧
    ∀ n < count, ∀ m < count, c n - c m ≤ (den : Int)

/-- The rates and the sample count passed the configuration check (R254), which a host write to one of them
after it would have undone (R28). -/
def RatesChecked (c : Cfg) : Prop := 1 ≤ sps c ∧ sampleCount c ≤ Config.nMax

/-- `ENV_VALID` (R26): a centered sequence of ENV is present. -/
def EnvelopePresent (s : State) : Prop :=
  RatesChecked s.cfg ∧ Listed s.mem.cent (sampleCount s.cfg) ∧
    CenteredBounds (centAt s) (sampleCount s.cfg) s.res.envden.toNat

/-- `TR_VALID` (R26): at least one symbol, fewer than samples (R151 (h)), clock and synced sequence present. -/
def TimingPresent (s : State) : Prop :=
  1 ≤ bitCount s ∧ bitCount s < sampleCount s.cfg ∧ Listed s.mem.clk (bitCount s) ∧
    Listed s.mem.syn (bitCount s)

/-- `FS_VALID` (R26): an accepted position inside the scan range (R186), its payload start (R190). -/
def SyncPresent (s : State) : Prop :=
  1 ≤ s.res.syncidx.toNat ∧ s.res.syncidx.toNat + 2 ≤ bitCount s ∧
    s.res.paystart.toNat = s.res.syncidx.toNat + halfPat s.cfg

/-- `PE_VALID` (R26): the whole payload lies inside the bit sequence (R212) and is present. -/
def PayloadPresent (s : State) : Prop :=
  s.res.paystart.toNat + 8 * s.cfg.paysz.toNat ≤ bitCount s ∧ Listed s.mem.pay s.cfg.paysz.toNat

/-- The invariant of the core: every state a run from reset reaches has it, whatever the host does. -/
structure Inv (s : State) : Prop where
  /-- Between steps no command is being executed (R29). -/
  seqIdle : s.seq = .idle
  /-- `BUSY` and `DONE` are never both 1 (R35). -/
  busyDone : ¬(s.busy = true ∧ s.done = true)
  record : LegalRecord s.err s.errStage s.errSub
  chain : FlagChain s.valid
  guarded : CondGuarded s.valid s.cond
  memory : Memory.wf s.mem = true
  /-- `K < N ≤ N_MAX` for every TREC, also when its flag has been cleared since (R47, R151 (h)). -/
  symbols : bitCount s < Config.nMax
  envelope : s.valid.env = true → EnvelopePresent s
  timing : s.valid.tr = true → TimingPresent s
  bitsListed : s.valid.bd = true → Listed s.mem.bits (bitCount s)
  profile : s.valid.prof = true → Listed s.mem.prof (bitCount s)
  sync : s.valid.fs = true → SyncPresent s
  payload : s.valid.pe = true → PayloadPresent s

/-! ## A result marked valid is the function of the inputs now present (R26, R28) -/

/-- The centered sequence, its denominator and its condition flag are ENV's function of the capture. Asked
only where the host has written the whole capture: entries it has not written have no value (R49). -/
def EnvelopeCurrent (s : State) : Prop :=
  Listed s.mem.iq (sampleCount s.cfg) →
    let e := envelopeOf (sampleCount s.cfg) (captureSum s)
    s.res.envmax.toNat = e.smax ∧ s.res.envsum.toNat = e.total ∧ s.res.envden.toNat = e.den ∧
      s.cond.envZero = e.zero ∧
      ∀ n < sampleCount s.cfg, centAt s n = centered (sampleCount s.cfg) e (captureSum s) n

/-- Clock, synced sequence, `NBITS`, `EPS` and `W_TREC` are TREC's function of the centered sequence. -/
def TimingCurrent (s : State) : Prop :=
  ∃ l, timingOf s = some l ∧ s.res.nbits = BitVec.ofNat 17 l.index ∧
    s.res.eps = BitVec.ofInt 64 l.epsilon ∧ s.cond.wTrec = l.warn ∧
    ∀ k < bitCount s, Cells.read s.mem.clk k = Cells.read l.clk k ∧
      Cells.read s.mem.syn k = Cells.read l.syn k

/-- The bit sequence is BDEC's function of the synced sequence. -/
def BitsCurrent (s : State) : Prop :=
  ∀ k < bitCount s, Cells.read s.mem.bits k = some (decideBit (synAt s k))

/-- The profile and `W_FSYNC` are FSYNC's function of the bits and the pattern. -/
def ProfileCurrent (s : State) : Prop :=
  s.cond.wFsync = corrWarn (bitCount s) (patLen s.cfg) ∧
    ∀ i < bitCount s, profAt s i =
      score (bitAt s) (bitCount s) (patBit s.cfg s.syncw) (patLen s.cfg) i

/-- `SYNCIDX` and `PAYSTART` are the scan's result on the profile. -/
def SyncCurrent (s : State) : Prop :=
  (scanOf s).found = true ∧ s.res.syncidx.toNat = (scanOf s).syncIndex ∧
    s.res.paystart.toNat = (scanOf s).payloadStart

/-- The payload bytes are PEXT's function of the bits. -/
def PayloadCurrent (s : State) : Prop :=
  ∀ b < s.cfg.paysz.toNat,
    Cells.read s.mem.pay b = some (packByte (bitAt s) (s.res.paystart.toNat + 8 * b))

/-- Every result marked valid was computed from the inputs now in the registers and memories (R26, R28). -/
structure ResultsCurrent (s : State) : Prop where
  envelope : s.valid.env = true → EnvelopeCurrent s
  timing : s.valid.tr = true → TimingCurrent s
  bits : s.valid.bd = true → BitsCurrent s
  profile : s.valid.prof = true → ProfileCurrent s
  sync : s.valid.fs = true → SyncCurrent s
  payload : s.valid.pe = true → PayloadCurrent s

/-! ## The rules' own formulas, as the statements write them -/

/-- A legal configuration (R254): none of the six conditions of its table holds. -/
def LegalConfig (c : Cfg) : Prop :=
  c.br.toNat ≠ 0 ∧ c.br.toNat ≤ c.fs.toNat ∧ c.paysz.toNat ≠ 0 ∧ c.swlen.toNat ≤ Config.swMax ∧
    c.nsamp.toNat ≤ Config.nMax ∧ c.policy ≠ 3#2

/-- `a[n]` with the library's integer square root (R9, R123), `MAG_FRAC = 0`. -/
def ruleAmplitude (s : State) (n : Nat) : Nat :=
  Nat.sqrt ((iqAt s n).i.toInt ^ 2 + (iqAt s n).q.toInt ^ 2).toNat

/-- `S[n] = Σ_{j=0}^{sps-1} apad(n - sps//2 + j)` (R124). -/
def ruleWindow (s : State) (n : Nat) : Nat :=
  ∑ j ∈ Finset.range (sps s.cfg),
    if 0 ≤ (n : Int) - ((sps s.cfg / 2 : Nat) : Int) + j ∧
        (n : Int) - ((sps s.cfg / 2 : Nat) : Int) + j < sampleCount s.cfg then
      ruleAmplitude s ((n : Int) - ((sps s.cfg / 2 : Nat) : Int) + j).toNat
    else 0

/-- `Smax`, 0 when `N = 0` (R125). -/
def ruleMax (s : State) : Nat := (Finset.range (sampleCount s.cfg)).sup (ruleWindow s)

/-- `T` (R125). -/
def ruleTotal (s : State) : Nat := ∑ n ∈ Finset.range (sampleCount s.cfg), ruleWindow s n

/-- The centered sequence padded with zeros (R70, R144). -/
def ruleCentAt (s : State) (j : Int) : Int :=
  if 0 ≤ j ∧ j < sampleCount s.cfg then centAt s j.toNat else 0

/-- `CorrelationProfile[i]` of the bits in `BITMEM` (R184). -/
def ruleScore (s : State) (i : Nat) : Nat :=
  ∑ j ∈ Finset.range (patLen s.cfg),
    (if 0 ≤ (i : Int) - ((patLen s.cfg / 2 : Nat) : Int) + j ∧
        (i : Int) - ((patLen s.cfg / 2 : Nat) : Int) + j < bitCount s then
      bitAt s ((i : Int) - ((patLen s.cfg / 2 : Nat) : Int) + j).toNat
    else 0) * (patBit s.cfg s.syncw j).toNat

/-- `ones(P)`, the number of 1 bits of the pattern (R184). -/
def patternOnes (s : State) : Nat :=
  ∑ j ∈ Finset.range (patLen s.cfg), (patBit s.cfg s.syncw j).toNat

/-- Position `i` is scanned and qualifies (R186): three strict comparisons in the signed integers. -/
def Eligible (s : State) (i : Nat) : Prop :=
  1 ≤ i ∧ i + 2 ≤ bitCount s ∧ (s.cfg.th.toNat : Int) < ruleScore s i ∧
    (s.cfg.th.toNat : Int) < (ruleScore s i : Int) - ruleScore s (i - 1) ∧
    (s.cfg.th.toNat : Int) < (ruleScore s i : Int) - ruleScore s (i + 1)

/-- Which eligible position the policy keeps: the smallest under `FIRST` (R188), the largest under `LAST`
(R187), the last of those with the largest score under `STRONGEST` (R189). -/
def Preferred (s : State) (i : Nat) : Prop :=
  Eligible s i ∧
    (s.cfg.policy = 0#2 → ∀ j, Eligible s j → i ≤ j) ∧
    (s.cfg.policy = 1#2 → ∀ j, Eligible s j → j ≤ i) ∧
    (s.cfg.policy = 2#2 → ∀ j, Eligible s j →
      ruleScore s j ≤ ruleScore s i ∧ (ruleScore s j = ruleScore s i → j ≤ i))

/-! ## What a command leaves unchanged, and what it records -/

/-- What no command changes: the configuration, `SYNCW`, `IQMEM`, `PEND`, and the model's schedule and last
host response. -/
def InputsKept (s t : State) : Prop :=
  t.cfg = s.cfg ∧ t.syncw = s.syncw ∧ t.mem.iq = s.mem.iq ∧ t.pend = s.pend ∧ t.port = s.port ∧
    t.resp = s.resp

/-- Every entry outside `0 .. len-1` is stored as before. For an output memory this, like a list kept while its
valid flag is 0, is the model's DESIGN CHOICE (log 4), not the spec's: R48 leaves such entries unspecified. -/
def KeptBeyond {α : Type} (before after : Cells α) (len : Nat) : Prop :=
  ∀ n, len ≤ n → Cells.read after n = Cells.read before n

/-- The completion of R228 with code `code`, `STAGE = stage`, `SUB = sub`. -/
def CompletedWith (s t : State) (code : Code) (stage : Stage) (sub : BitVec 4) : Prop :=
  t.seq = .idle ∧ t.err = code ∧ t.errStage = stage ∧ t.errSub = sub ∧
    t.lastop.toNat = s.pend.toNat % 16 ∧ t.busy = false ∧ t.done = true

/-- Everything the spec gives the machine but the sequencer, `BUSY`, `DONE`, `ERR`, `LASTOP` and `ERRINFO` is
as before (R259). -/
def OnlyRecordChanged (s t : State) : Prop :=
  t.valid = s.valid ∧ t.cond = s.cond ∧ t.cfg = s.cfg ∧ t.syncw = s.syncw ∧ t.res = s.res ∧
    t.mem = s.mem ∧ t.pend = s.pend ∧ t.work = s.work ∧ t.port = s.port ∧ t.resp = s.resp

/-! ## RUN: the five stages as pure functions, and as five commands -/

/-- The timing loop on the centered sequence of the capture now in `IQMEM`. -/
def capturedLoop (s : State) : Option TimingLoop :=
  let e := envelopeOf (sampleCount s.cfg) (captureSum s)
  timingRun (centered (sampleCount s.cfg) e (captureSum s)) (sampleCount s.cfg) (sps s.cfg) e.den
    (sampleCount s.cfg) (timingInit s.mem)

/-- The bit decided from the `k`-th synced sample of a loop (R171). -/
def loopBit (l : TimingLoop) (k : Nat) : Nat :=
  match Cells.read l.syn k with
  | some y => (decideBit y.toInt).toNat
  | none => 0

/-- The correlation profile of those bits (R184). -/
def loopScore (s : State) (l : TimingLoop) (i : Nat) : Nat :=
  score (loopBit l) l.index (patBit s.cfg s.syncw) (patLen s.cfg) i

/-- The scan of that profile (R186). -/
def loopScan (s : State) (l : TimingLoop) : Scan :=
  scanUpTo (loopScore s l) s.cfg.th.toNat s.cfg.policy (halfPat s.cfg) (l.index - 2)

/-- The host issues command `i`: the accepted write of `CMD` (R34), then the core's execution. -/
def issue (i : Instr) (s : State) : Host.Outcome State Fault Refusal :=
  exec i { s with pend := encode i, busy := true, done := false }

/-- The host issues the next command only after a zero code (R231). -/
def thenIssue (o : Host.Outcome State Fault Refusal) (i : Instr) : Host.Outcome State Fault Refusal :=
  match o with
  | .next t => if t.err = .ok then issue i t else .next t
  | .fault f => .fault f
  | .refused r => .refused r

/-- ENV, TREC, BDEC, FSYNC, PEXT one after another, stopping at the first non-zero code (R231). -/
def issueFive (s : State) : Host.Outcome State Fault Refusal :=
  thenIssue (thenIssue (thenIssue (thenIssue (issue .env s) .trec) .bdec) .fsync) .pext

/-- "except that `LASTOP = 6`" (R231), and `PEND` holds the word of RUN. -/
def withRunWord (o : Host.Outcome State Fault Refusal) : Host.Outcome State Fault Refusal :=
  match o with
  | .next t => .next { t with pend := encode .run, lastop := 6#4 }
  | .fault f => .fault f
  | .refused r => .refused r

/-! ## Hexadecimal text (R105) -/

/-- The hexadecimal digits (R105): `0-9`, `A-F` or `a-f`. -/
def hexAlphabet : List Char :=
  ['0', '1', '2', '3', '4', '5', '6', '7', '8', '9', 'A', 'B', 'C', 'D', 'E', 'F', 'a', 'b', 'c', 'd', 'e',
    'f']

/-- Some character of the text is no hexadecimal digit (R106). -/
def Malformed (text : List Char) : Prop := ∃ c ∈ text, c ∉ hexAlphabet

/-- The value of a digit by its place in the alphabet, the lower case letters six places late. -/
def ruleDigit (c : Char) : Nat :=
  if hexAlphabet.idxOf c < 16 then hexAlphabet.idxOf c else hexAlphabet.idxOf c - 6

/-- The value of the text as a number, first digit most significant (R105). -/
def textValue (text : List Char) : Nat := text.foldl (fun v c => 16 * v + ruleDigit c) 0

/-- The value of a byte string as a number, first byte most significant (R105). -/
def bytesValue (bytes : List Byte) : Nat := bytes.foldl (fun v b => 256 * v + b.toNat) 0

/-! ## Safe runs -/

/-- A safe run: `k` steps from `s` end in a next state, for every `k`. No fault, no refusal. -/
def NeverStops (s : State) : Prop := ∀ k, ∃ t, Host.Core.run Sys2Proof.core k s = .next t

end Sys2Proof.Machine
end

