-- ==== Sys2Proof/Certificates/Slice0/Obligations.lean ====
section
/-! DEFINITION. The statements for the provers: `def Obligations.<Name> : Prop`, listed in OBLIGATIONS.json. -/

open Sys2Proof Sys2Proof.Machine

/-! ## Command words, and the step that runs them -/

/-- Every command is read back from its word, and no other word decodes to it (R91, R93, R94). -/
def Obligations.CommandWordRoundTrip : Prop :=
  ∀ i : Instr, i.wf = true →
    decode (encode i) = .command i ∧ decodeTableWord 64 (encode i).toNat = some i ∧
      ∀ w : Word, decode w = .command i → w = encode i

/-- R94: decoding of any 64-bit word, in terms of the number it stands for. -/
def Obligations.DecodeIsTotal : Prop :=
  ∀ w : Word,
    (w.toNat / 16 ≠ 0 → decode w = .illegal) ∧
    (w.toNat / 16 = 0 →
      (w.toNat % 16 = 0 ∨ 8 ≤ w.toNat % 16 → decode w = .illegal) ∧
      (w.toNat % 16 = 1 → decode w = .command .env) ∧
      (w.toNat % 16 = 2 → decode w = .command .trec) ∧
      (w.toNat % 16 = 3 → decode w = .command .bdec) ∧
      (w.toNat % 16 = 4 → decode w = .command .fsync) ∧
      (w.toNat % 16 = 5 → decode w = .command .pext) ∧
      (w.toNat % 16 = 6 → decode w = .command .run) ∧
      (w.toNat % 16 = 7 → decode w = .command .clr))

/-- Words of R93's table and three illegal ones, read by the decoder. -/
def Obligations.TableWordsDecode : Prop :=
  decodeTableWord 64 0x0000000000000001 = some .env ∧
    decodeTableWord 64 0x0000000000000003 = some .bdec ∧
    decodeTableWord 64 0x0000000000000006 = some .run ∧
    decodeTableWord 64 0x0000000000000007 = some .clr ∧
    decodeTableWord 64 0x0000000000000000 = none ∧
    decodeTableWord 64 0x0000000000000008 = none ∧
    decodeTableWord 64 0x0000000000000010 = none

/-- When the pending word decodes to `i` and the core has its turn, the step is `exec i` (R226): nothing is
fetched, and around `exec` the model's step only takes the core's turn off the schedule (log 2). -/
def Obligations.StepRunsDecodedCommand : Prop :=
  ∀ (s : State) (i : Instr), s.busy = true → decode s.pend = .command i →
    (s.port = [] → step s = exec i s) ∧
      ∀ rest, s.port = .core :: rest → step s = exec i { s with port := rest }

/-- A word placed by `withFetchWord` is the one the very next step executes (log 2). -/
def Obligations.PlacedWordRunsNext : Prop :=
  ∀ (s : State) (i : Instr),
    step (s.withFetchWord 64 (encode i).toNat) =
      exec i { s with pend := encode i, busy := true, done := false }

/-- The core's step is enabled exactly when `BUSY = 1` (R226): an idle core changes nothing (R293). That its turn
then answers the same state, and that it has the turn when the schedule is empty, is the model's choice (DESIGN
CHOICE, log 2). -/
def Obligations.IdleCoreDoesNothing : Prop :=
  ∀ s : State, s.busy = false →
    coreStep s = .next s ∧ (s.port = [] → step s = .next s)

/-- R253: a word that decodes to ILLEGAL is accepted by the port and ends with ILLCMD, nothing else changed. -/
def Obligations.IllegalWordEndsIllcmd : Prop :=
  ∀ (s : State) (w : Word), s.busy = false →
    (w.toNat / 16 ≠ 0 ∨ w.toNat % 16 = 0 ∨ 8 ≤ w.toNat % 16) →
    hostWrite s 0x000001#24 w = { s with pend := w, busy := true, done := false, resp := some .ok } ∧
      coreStep (hostWrite s 0x000001#24 w) =
        .next { s with
          pend := w
          resp := some .ok
          seq := .idle
          err := .illcmd
          errStage := .none
          errSub := 0#4
          lastop := BitVec.ofNat 4 (w.toNat % 16)
          busy := false
          done := true }

/-! ## Prologue and completion -/

/-- R254: every command but CLR checks the whole configuration; the first condition of the table that holds
gives `SUB`, and CLR, or a command of a legal configuration, never ends with CONFIG. -/
def Obligations.ConfigCheckOrder : Prop :=
  ∀ (s : State) (i : Instr),
    (i ≠ .clr → ∀ sub : Nat,
      ((sub = 1 ∧ s.cfg.br.toNat = 0) ∨
        (sub = 2 ∧ s.cfg.br.toNat ≠ 0 ∧ s.cfg.fs.toNat < s.cfg.br.toNat) ∨
        (sub = 3 ∧ s.cfg.br.toNat ≠ 0 ∧ s.cfg.br.toNat ≤ s.cfg.fs.toNat ∧ s.cfg.paysz.toNat = 0) ∨
        (sub = 4 ∧ s.cfg.br.toNat ≠ 0 ∧ s.cfg.br.toNat ≤ s.cfg.fs.toNat ∧ s.cfg.paysz.toNat ≠ 0 ∧
          8 < s.cfg.swlen.toNat) ∨
        (sub = 5 ∧ s.cfg.br.toNat ≠ 0 ∧ s.cfg.br.toNat ≤ s.cfg.fs.toNat ∧ s.cfg.paysz.toNat ≠ 0 ∧
          s.cfg.swlen.toNat ≤ 8 ∧ 65536 < s.cfg.nsamp.toNat) ∨
        (sub = 6 ∧ s.cfg.br.toNat ≠ 0 ∧ s.cfg.br.toNat ≤ s.cfg.fs.toNat ∧ s.cfg.paysz.toNat ≠ 0 ∧
          s.cfg.swlen.toNat ≤ 8 ∧ s.cfg.nsamp.toNat ≤ 65536 ∧ s.cfg.policy.toNat = 3)) →
      ∃ t, exec i s = .next t ∧ CompletedWith s t .config .none (BitVec.ofNat 4 sub) ∧
        OnlyRecordChanged s t) ∧
    (LegalConfig s.cfg ∨ i = .clr → ∀ t, exec i s = .next t → t.err ≠ .config)

/-- R256: a stage command whose input is not marked valid is refused with SEQ and the number of its stage; ENV,
RUN and CLR never end with SEQ. -/
def Obligations.SequenceRefusals : Prop :=
  ∀ s : State,
    (LegalConfig s.cfg →
      (s.valid.env = false → ∃ t, exec .trec s = .next t ∧ CompletedWith s t .seq .none 2#4 ∧
        OnlyRecordChanged s t) ∧
      (s.valid.tr = false → ∃ t, exec .bdec s = .next t ∧ CompletedWith s t .seq .none 3#4 ∧
        OnlyRecordChanged s t) ∧
      (s.valid.bd = false → ∃ t, exec .fsync s = .next t ∧ CompletedWith s t .seq .none 4#4 ∧
        OnlyRecordChanged s t) ∧
      (s.valid.bd = false ∨ s.valid.fs = false →
        ∃ t, exec .pext s = .next t ∧ CompletedWith s t .seq .none 5#4 ∧ OnlyRecordChanged s t)) ∧
    ∀ (i : Instr) (t : State), exec i s = .next t → t.err = .seq →
      (i = .trec ∧ s.valid.env = false) ∨ (i = .bdec ∧ s.valid.tr = false) ∨
        (i = .fsync ∧ s.valid.bd = false) ∨
        (i = .pext ∧ (s.valid.bd = false ∨ s.valid.fs = false))

/-- R259: a command that ends with ILLCMD, CONFIG or SEQ leaves every flag, result register, configuration
register and memory as it was. -/
def Obligations.RefusedCommandChangesOnlyRecord : Prop :=
  ∀ s t : State, s.busy = true → coreStep s = .next t →
    (t.err = .illcmd ∨ t.err = .config ∨ t.err = .seq) → OnlyRecordChanged s t

/-- R228: what every completed command records; the code and its `STAGE`, `SUB` are a row of R251's table. -/
def Obligations.CompletionRecordsTheResult : Prop :=
  ∀ s t : State, s.busy = true → coreStep s = .next t →
    CompletedWith s t t.err t.errStage t.errSub ∧ LegalRecord t.err t.errStage t.errSub ∧
      (t.err = .ok → t.errStage = .none ∧ t.errSub = 0#4)

/-- R35: `ERR`, `LASTOP` and `ERRINFO` change only when a command completes (or the reset input acts). -/
def Obligations.OnlyCompletionChangesTheRecord : Prop :=
  ∀ s t : State, step s = .next t → s.port.head? ≠ some .reset →
    (s.busy = false ∨ t.busy = true) →
    t.err = s.err ∧ t.lastop = s.lastop ∧ t.errStage = s.errStage ∧ t.errSub = s.errSub

/-! ## Stage 1, ENV -/

/-- R123: the amplitude is the largest integer whose square does not exceed `(I² + Q²)·4^MAG_FRAC`, with the
rule's four examples. -/
def Obligations.AmplitudeIsIntegerSquareRoot : Prop :=
  (∀ (f : Nat) (x : Sample),
    ((magWith f x : Int) ^ 2 ≤ (x.i.toInt ^ 2 + x.q.toInt ^ 2) * 4 ^ f) ∧
      (x.i.toInt ^ 2 + x.q.toInt ^ 2) * 4 ^ f < ((magWith f x : Int) + 1) ^ 2) ∧
    (∀ (s : State) (n : Nat) (x : Sample), Cells.read s.mem.iq n = some x →
      amplitude s n = magWith Config.magFrac x) ∧
    mag { i := 3#16, q := 4#16 } = 5 ∧ mag { i := 1#16, q := 1#16 } = 1 ∧
    mag { i := 0#16, q := 0#16 } = 0 ∧ mag { i := 0x8000#16, q := 0x8000#16 } = 46340

/-- R124, R125, R128: ENV completes for every legal configuration; window sums, maximum, total, denominator and
the centered sequence are stored exactly; no other register, input or specified entry changes. That `CENTMEM` from
`N` on and the lists of `CLKMEM` to `PAYMEM`, whose flags ENV clears, stay is the model's choice (log 4). -/
def Obligations.EnvComputesCenteredSequence : Prop :=
  ∀ s : State, LegalConfig s.cfg → ∃ t, exec .env s = .next t ∧ CompletedWith s t .ok .none 0#4 ∧
    (∀ n < sampleCount s.cfg, ∃ v, Cells.read t.mem.cent n = some v ∧
      v.toInt = if ruleMax s = 0 then 0
        else (sampleCount s.cfg : Int) * ruleWindow s n - ruleTotal s) ∧
    t.res.envmax.toNat = ruleMax s ∧ t.res.envsum.toNat = ruleTotal s ∧
    t.res.envden.toNat = (if ruleMax s = 0 then 1 else sampleCount s.cfg * ruleMax s) ∧
    t.cond = { envZero := decide (ruleMax s = 0), wTrec := false, wFsync := false } ∧
    t.valid = { env := true, tr := false, bd := false, prof := false, fs := false, pe := false } ∧
    t.res.nbits = s.res.nbits ∧ t.res.eps = s.res.eps ∧ t.res.syncidx = s.res.syncidx ∧
    t.res.paystart = s.res.paystart ∧ InputsKept s t ∧
    KeptBeyond s.mem.cent t.mem.cent (sampleCount s.cfg) ∧ t.mem.clk = s.mem.clk ∧
    t.mem.syn = s.mem.syn ∧ t.mem.bits = s.mem.bits ∧ t.mem.prof = s.mem.prof ∧
    t.mem.pay = s.mem.pay

/-- R127: a capture of zero amplitudes (an empty one too) gives `ENV_ZERO`, `D = 1` and a zero sequence with code OK; TREC then never moves
`epsilon`, ends, and gives an all-zero synced sequence at `t_k = k·sps`. -/
def Obligations.AllZeroEnvelope : Prop :=
  ∀ s : State, LegalConfig s.cfg →
    (∀ n < sampleCount s.cfg, ruleAmplitude s n = 0) →
    ∃ t, exec .env s = .next t ∧ t.err = .ok ∧ t.cond.envZero = true ∧ t.res.envden = 1#64 ∧
      (∀ n < sampleCount s.cfg, Cells.read t.mem.cent n = some 0#64) ∧
      (sps s.cfg < sampleCount s.cfg →
        ∃ u, exec .trec t = .next u ∧ u.err = .ok ∧ u.res.eps = 0#64 ∧
          u.res.nbits.toNat = (sampleCount s.cfg - 1) / sps s.cfg ∧
          ∀ k < u.res.nbits.toNat, Cells.read u.mem.syn k = some 0#64 ∧
            Cells.read u.mem.clk k = some (BitVec.ofNat 16 (k * sps s.cfg)))

/-- R129 (a), (b), (c): what follows for every sequence ENV leaves with `ENV_ZERO = 0`. -/
def Obligations.CenteredSequenceProperties : Prop :=
  ∀ s t : State, LegalConfig s.cfg → exec .env s = .next t → t.cond.envZero = false →
    (∑ n ∈ Finset.range (sampleCount s.cfg), centAt t n) = 0 ∧
    (∀ n < sampleCount s.cfg,
      -(t.res.envsum.toNat : Int) ≤ centAt t n ∧
      centAt t n ≤ (t.res.envden.toNat : Int) - t.res.envsum.toNat ∧
      -(t.res.envden.toNat : Int) < centAt t n ∧ centAt t n < t.res.envden.toNat) ∧
    ∃ n < sampleCount s.cfg, centAt t n = (t.res.envden.toNat : Int) - t.res.envsum.toNat ∧
      0 ≤ centAt t n

/-! ## Stage 2, TREC -/

/-- R147, under either tie rule: the floor quotient or the next integer by the remainder, which is an integer
nearest to `n / d`; the even one, or the one farther from 0, at an exact half. -/
def Obligations.RoundIsNearestInteger : Prop :=
  (∀ (ties : RoundTies) (n d : Int), 0 < d →
    (2 * (n - n / d * d) < d → roundDivWith ties n d = n / d) ∧
    (d < 2 * (n - n / d * d) → roundDivWith ties n d = n / d + 1) ∧
    (2 * (n - n / d * d) = d →
      (ties = .halfEven → roundDivWith ties n d % 2 = 0 ∧
        (roundDivWith ties n d = n / d ∨ roundDivWith ties n d = n / d + 1)) ∧
      (ties = .halfAway → 0 < n → roundDivWith ties n d = n / d + 1) ∧
      (ties = .halfAway → n < 0 → roundDivWith ties n d = n / d)) ∧
    ∀ v : Int, |n - roundDivWith ties n d * d| ≤ |n - v * d|) ∧
  (roundDiv 5 2 = 2 ∧ roundDiv 7 2 = 4 ∧ roundDiv (-5) 2 = -2 ∧ roundDiv (-7) 2 = -4 ∧
    roundDiv (-198) 242 = -1 ∧ roundDiv (-144) 1152 = 0 ∧ ∀ d, 0 < d → roundDiv 0 d = 0)

/-- The sign of a phase update (R146), and none at all where the error is zero (R154 (d), (e)). -/
def Obligations.PhaseUpdateSign : Prop :=
  ∀ (c : Nat → Int) (count width den index : Nat) (epsilon : Int), 0 < den →
    let xm := padRead 0 count c (midInstant width index epsilon)
    let xp := padRead 0 count c (prevInstant width index epsilon)
    let xe := padRead 0 count c (earlyInstant width index epsilon)
    (0 ≤ (xm - xp) * xe → phaseUpdate c count width den index epsilon ≤ 0) ∧
      ((xm - xp) * xe ≤ 0 → 0 ≤ phaseUpdate c count width den index epsilon) ∧
      (xm = xp ∨ xe = 0 → phaseUpdate c count width den index epsilon = 0)

/-- R144, R146, R148: TREC completes whenever the capture is longer than one symbol; every pass reads with the
old `epsilon`, updates it by one rounding, and writes the instant and the sample of the new one; the loop ends the
first time the guard fails; no other register, input or specified entry changes. That `CLKMEM` and `SYNMEM` from `K`
on and the lists of `BITMEM`, `PROFMEM` and `PAYMEM`, whose flags TREC clears, stay is the model's choice (log 4). -/
def Obligations.TrecRunsTimingLoop : Prop :=
  ∀ s : State, Inv s → LegalConfig s.cfg → s.valid.env = true → sps s.cfg < sampleCount s.cfg →
    ∃ (t : State) (K : Nat) (eps : Nat → Int),
      exec .trec s = .next t ∧ CompletedWith s t .ok .none 0#4 ∧ 1 ≤ K ∧ eps 0 = 0 ∧
      (∀ k < K,
        (k : Int) * sps s.cfg + eps k < (sampleCount s.cfg : Int) - sps s.cfg ∧
        eps (k + 1) = eps k + roundDiv
          (-(sps s.cfg : Int) *
            (ruleCentAt s ((k : Int) * sps s.cfg + eps k) -
              ruleCentAt s (((k : Int) - 1) * sps s.cfg + eps k)) *
            ruleCentAt s ((k : Int) * sps s.cfg - ((sps s.cfg / 2 : Nat) : Int) + eps k))
          (2 * (s.res.envden.toNat : Int) * s.res.envden.toNat) ∧
        0 ≤ (k : Int) * sps s.cfg + eps (k + 1) ∧
        (k : Int) * sps s.cfg + eps (k + 1) < sampleCount s.cfg ∧
        (∃ v, Cells.read t.mem.clk k = some v ∧ (v.toNat : Int) = (k : Int) * sps s.cfg + eps (k + 1)) ∧
        ∃ y, Cells.read t.mem.syn k = some y ∧
          y.toInt = ruleCentAt s ((k : Int) * sps s.cfg + eps (k + 1))) ∧
      ¬((K : Int) * sps s.cfg + eps K < (sampleCount s.cfg : Int) - sps s.cfg) ∧
      t.res.nbits.toNat = K ∧ t.res.eps.toInt = eps K ∧
      t.valid = { s.valid with tr := true, bd := false, prof := false, fs := false, pe := false } ∧
      t.cond.envZero = s.cond.envZero ∧ t.cond.wFsync = false ∧
      t.res.envmax = s.res.envmax ∧ t.res.envsum = s.res.envsum ∧ t.res.envden = s.res.envden ∧
      t.res.syncidx = s.res.syncidx ∧ t.res.paystart = s.res.paystart ∧ InputsKept s t ∧
      t.mem.cent = s.mem.cent ∧ KeptBeyond s.mem.clk t.mem.clk K ∧ KeptBeyond s.mem.syn t.mem.syn K ∧
      t.mem.bits = s.mem.bits ∧ t.mem.prof = s.mem.prof ∧ t.mem.pay = s.mem.pay

/-- R151 (c), (e), (g), (h), (i), (j) and R149: the clock starts at 0 and rises by `ceil(sps/2)` to
`sps + sps//2`, stays inside the capture, is bounded in length, and the warning flag is always set. -/
def Obligations.RecoveredClockInvariants : Prop :=
  ∀ s t : State, Inv s → LegalConfig s.cfg → s.valid.env = true → exec .trec s = .next t →
    t.err = .ok →
    ∃ clock : Nat → Nat,
      (∀ k < bitCount t, ∃ v, Cells.read t.mem.clk k = some v ∧ v.toNat = clock k) ∧
      clock 0 = 0 ∧
      (∀ k, k + 1 < bitCount t →
        clock k + (sps s.cfg + 1) / 2 ≤ clock (k + 1) ∧
        clock (k + 1) ≤ clock k + sps s.cfg + sps s.cfg / 2) ∧
      (∀ k < bitCount t, clock k + 1 + (sps s.cfg + 1) / 2 ≤ sampleCount s.cfg) ∧
      1 ≤ bitCount t ∧ bitCount t + 1 ≤ sampleCount s.cfg ∧
      bitCount t ≤ 1 + (sampleCount s.cfg - 2 * sps s.cfg + (sps s.cfg + 1) / 2 - 1) /
        ((sps s.cfg + 1) / 2) ∧
      |t.res.eps.toInt| < sampleCount s.cfg ∧
      (sps s.cfg = 1 → t.res.eps = 0#64 ∧ bitCount t + 1 = sampleCount s.cfg ∧
        ∀ k < bitCount t, clock k = k) ∧
      t.cond.wTrec = true

/-- R255: the two causes of INSUFF, exactly when each happens, and the state after it. No memory is written; that
the lists whose flags the command clears stay as they were is the model's choice (log 4). -/
def Obligations.InsufficientDataEndings : Prop :=
  (∀ s : State, LegalConfig s.cfg → s.valid.env = true → sampleCount s.cfg ≤ sps s.cfg →
    ∃ t, exec .trec s = .next t ∧ CompletedWith s t .insuff .trec 1#4 ∧
      t.valid = { s.valid with tr := false, bd := false, prof := false, fs := false, pe := false } ∧
      t.cond = { s.cond with wTrec := false, wFsync := false } ∧
      t.res = { s.res with nbits := 0#17, eps := 0#64 } ∧ t.mem = s.mem ∧ InputsKept s t) ∧
  (∀ s t : State, Inv s → LegalConfig s.cfg → s.valid.env = true → exec .trec s = .next t →
    (t.err = .insuff ↔ sampleCount s.cfg ≤ sps s.cfg)) ∧
  (∀ s : State, LegalConfig s.cfg → s.valid.bd = true → s.valid.fs = true →
    s.res.nbits.toNat < s.res.paystart.toNat + 8 * s.cfg.paysz.toNat →
    ∃ t, exec .pext s = .next t ∧ CompletedWith s t .insuff .pext 2#4 ∧
      t.valid = { s.valid with pe := false } ∧ t.cond = s.cond ∧ t.res = s.res ∧ t.mem = s.mem ∧
      InputsKept s t) ∧
  ∀ s t : State, exec .pext s = .next t →
    (t.err = .insuff → s.res.nbits.toNat < s.res.paystart.toNat + 8 * s.cfg.paysz.toNat)

/-! ## Stage 3, BDEC -/

/-- BDEC completes whenever the synced sequence is valid (R171): one bit per symbol, by a strict comparison with
0; no other register, input or specified entry changes. That `BITMEM` from `NBITS` on and the lists of `PROFMEM` and
`PAYMEM`, whose flags BDEC clears, stay is the model's choice (log 4). -/
def Obligations.BdecDecidesBySign : Prop :=
  ∀ s : State, LegalConfig s.cfg → s.valid.tr = true →
    ∃ t, exec .bdec s = .next t ∧ CompletedWith s t .ok .none 0#4 ∧
      (∀ k < bitCount s,
        (0 < synAt s k → Cells.read t.mem.bits k = some 1#1) ∧
        (synAt s k ≤ 0 → Cells.read t.mem.bits k = some 0#1)) ∧
      t.valid = { s.valid with bd := true, prof := false, fs := false, pe := false } ∧
      t.cond = { s.cond with wFsync := false } ∧ t.res = s.res ∧ InputsKept s t ∧
      KeptBeyond s.mem.bits t.mem.bits (bitCount s) ∧ t.mem.cent = s.mem.cent ∧
      t.mem.clk = s.mem.clk ∧ t.mem.syn = s.mem.syn ∧ t.mem.prof = s.mem.prof ∧
      t.mem.pay = s.mem.pay

/-! ## Stage 4, FSYNC -/

/-- R97: the sync pattern, bit by bit, with the rule's example. -/
def Obligations.SyncPatternAssembly : Prop :=
  (∀ (c : Cfg) (w : Vector Byte 8), c.swlen.toNat ≤ 8 →
    patLen c = 8 * (c.npre.toNat + c.swlen.toNat) ∧ patLen c % 8 = 0 ∧
    ∀ m k, m < c.npre.toNat + c.swlen.toNat → k < 8 →
      (m < c.npre.toNat → patBit c w (8 * m + k) = c.pre.getLsbD (7 - k)) ∧
      ∀ q, ∀ hq : q < 8, m = c.npre.toNat + q → patBit c w (8 * m + k) = (w[q]).getLsbD (7 - k)) ∧
  (let c : Cfg := { State.reset.cfg with pre := 0xAA#8, npre := 2#8, swlen := 2#8 }
   let w : Vector Byte 8 := #v[0xDB#8, 0x6A#8, 0#8, 0#8, 0#8, 0#8, 0#8, 0#8]
   patLen c = 32 ∧ (List.range 32).map (fun j => (patBit c w j).toNat) =
     [1, 0, 1, 0, 1, 0, 1, 0, 1, 0, 1, 0, 1, 0, 1, 0, 1, 1, 0, 1, 1, 0, 1, 1, 0, 1, 1, 0, 1, 0, 1, 0])

/-- R186 to R189: FSYNC completes whenever some scanned position qualifies; the profile is stored, the policy
decides which position is kept, `PAYSTART` is half a pattern later; no other register, input or specified entry
changes. That `PROFMEM` from `Nb` on and the list of `PAYMEM`, whose flag FSYNC clears, stay is the model's choice
(log 4). -/
def Obligations.FsyncAcceptsByPolicy : Prop :=
  ∀ s : State, LegalConfig s.cfg → s.valid.bd = true → (∃ i, Eligible s i) →
    ∃ (t : State) (i : Nat), exec .fsync s = .next t ∧ CompletedWith s t .ok .none 0#4 ∧
      Preferred s i ∧ t.res.syncidx.toNat = i ∧ t.res.paystart.toNat = i + patLen s.cfg / 2 ∧
      (∀ k < bitCount s, ∃ v, Cells.read t.mem.prof k = some v ∧ v.toNat = ruleScore s k) ∧
      t.valid = { s.valid with prof := true, fs := true, pe := false } ∧
      t.cond = { s.cond with wFsync := decide (1 ≤ bitCount s ∧ 8 ≤ patLen s.cfg) } ∧
      t.res.envmax = s.res.envmax ∧ t.res.envsum = s.res.envsum ∧ t.res.envden = s.res.envden ∧
      t.res.nbits = s.res.nbits ∧ t.res.eps = s.res.eps ∧ InputsKept s t ∧
      KeptBeyond s.mem.prof t.mem.prof (bitCount s) ∧ t.mem.cent = s.mem.cent ∧
      t.mem.clk = s.mem.clk ∧ t.mem.syn = s.mem.syn ∧ t.mem.bits = s.mem.bits ∧
      t.mem.pay = s.mem.pay

/-- R257: FSYNC ends NOSYNC when no scanned position qualifies, with the profile written and the state the rule
gives. That `PROFMEM` from `Nb` on and the list of `PAYMEM`, whose flag FSYNC clears, stay is the model's choice
(log 4). -/
def Obligations.FsyncReportsNoSync : Prop :=
  ∀ s : State, LegalConfig s.cfg → s.valid.bd = true → (∀ i, ¬Eligible s i) →
    ∃ t : State, exec .fsync s = .next t ∧ CompletedWith s t .nosync .fsync 0#4 ∧
      (∀ k < bitCount s, ∃ v, Cells.read t.mem.prof k = some v ∧ v.toNat = ruleScore s k) ∧
      t.valid = { s.valid with prof := true, fs := false, pe := false } ∧
      t.cond = { s.cond with wFsync := decide (1 ≤ bitCount s ∧ 8 ≤ patLen s.cfg) } ∧
      t.res = { s.res with syncidx := 0#17, paystart := 0#18 } ∧ InputsKept s t ∧
      KeptBeyond s.mem.prof t.mem.prof (bitCount s) ∧ t.mem.cent = s.mem.cent ∧
      t.mem.clk = s.mem.clk ∧ t.mem.syn = s.mem.syn ∧ t.mem.bits = s.mem.bits ∧
      t.mem.pay = s.mem.pay

/-- R192 (a) to (d): FSYNC ends NOSYNC with `SYNCIDX = PAYSTART = 0`, never a spurious position, for fewer than
three bits, no pattern, no 1 among the bits, or `TH ≥ ones(P)`; in every case the stored scores are bounded by
R184, an accepted position is never `0` or `Nb-1` (R192 (f)), and two neighbours never both qualify (R192 (g)). -/
def Obligations.NoSpuriousSync : Prop :=
  (∀ s : State, LegalConfig s.cfg → s.valid.bd = true →
    (bitCount s < 3 ∨ patLen s.cfg = 0 ∨ (∀ k < bitCount s, bitAt s k = 0) ∨
      patternOnes s ≤ s.cfg.th.toNat) →
    ∃ t, exec .fsync s = .next t ∧ CompletedWith s t .nosync .fsync 0#4 ∧
      t.res.syncidx = 0#17 ∧ t.res.paystart = 0#18 ∧
      t.valid = { s.valid with prof := true, fs := false, pe := false } ∧
      (patLen s.cfg = 0 → t.cond.wFsync = false) ∧
      ∀ k < bitCount s, ∃ v, Cells.read t.mem.prof k = some v ∧
        (patLen s.cfg = 0 ∨ (∀ n < bitCount s, bitAt s n = 0) → v.toNat = 0)) ∧
  (∀ s t : State, LegalConfig s.cfg → s.valid.bd = true → exec .fsync s = .next t →
    (∀ k < bitCount s, ∃ v, Cells.read t.mem.prof k = some v ∧ v.toNat ≤ patternOnes s ∧
      v.toNat ≤ patLen s.cfg) ∧
    (t.err = .ok → 1 ≤ t.res.syncidx.toNat ∧ t.res.syncidx.toNat + 2 ≤ bitCount s)) ∧
  ∀ s : State,
    (∀ i, ruleScore s i ≤ patternOnes s ∧ patternOnes s ≤ patLen s.cfg) ∧
    ((∀ k < bitCount s, bitAt s k = 0) ∨ patLen s.cfg = 0 ∨ patternOnes s ≤ s.cfg.th.toNat ∨
      bitCount s < 3 → ∀ i, ¬Eligible s i) ∧
    ∀ i, Eligible s i → ¬Eligible s (i + 1)

/-- R193: an exact copy of the pattern at bit `p` scores `ones(P)` at `p + h`, qualifies when the rule's margins
hold, and under `LAST` gives `SYNCIDX = p + h`, `PAYSTART = p + L` when no later position qualifies. -/
def Obligations.ExactCopyIsFound : Prop :=
  ∀ (s : State) (p : Nat), p + patLen s.cfg ≤ bitCount s →
    (∀ j < patLen s.cfg, bitAt s (p + j) = (patBit s.cfg s.syncw j).toNat) →
    ruleScore s (p + patLen s.cfg / 2) = patternOnes s ∧
    (1 ≤ p + patLen s.cfg / 2 → p + patLen s.cfg / 2 + 2 ≤ bitCount s →
      s.cfg.th.toNat < patternOnes s →
      ruleScore s (p + patLen s.cfg / 2 - 1) + s.cfg.th.toNat < patternOnes s →
      ruleScore s (p + patLen s.cfg / 2 + 1) + s.cfg.th.toNat < patternOnes s →
      Eligible s (p + patLen s.cfg / 2) ∧
      (LegalConfig s.cfg → s.valid.bd = true → s.cfg.policy = 1#2 →
        (∀ i, Eligible s i → i ≤ p + patLen s.cfg / 2) →
        ∃ t, exec .fsync s = .next t ∧ t.err = .ok ∧
          t.res.syncidx.toNat = p + patLen s.cfg / 2 ∧ t.res.paystart.toNat = p + patLen s.cfg))

/-! ## Stage 5, PEXT -/

/-- R213: PEXT completes whenever the payload lies inside the bit sequence; each byte is its eight bits, the
earliest the most significant, so that bytes expanded MSB first come back as they were; no other register, input or
specified entry changes. That `PAYMEM` from `PAYSZ` on stays is the model's choice (log 4; R48 leaves it unspecified,
R214 (e)). -/
def Obligations.PextPacksPayload : Prop :=
  ∀ s : State, LegalConfig s.cfg → s.valid.bd = true → s.valid.fs = true →
    s.res.paystart.toNat + 8 * s.cfg.paysz.toNat ≤ s.res.nbits.toNat →
    ∃ t, exec .pext s = .next t ∧ CompletedWith s t .ok .none 0#4 ∧
      (∀ b < s.cfg.paysz.toNat,
        (∃ v, Cells.read t.mem.pay b = some v ∧
          v.toNat = ∑ k ∈ Finset.range 8, bitAt s (s.res.paystart.toNat + 8 * b + k) * 2 ^ (7 - k)) ∧
        ∀ v : Byte,
          (∀ k < 8, bitAt s (s.res.paystart.toNat + 8 * b + k) = (v.getLsbD (7 - k)).toNat) →
          Cells.read t.mem.pay b = some v) ∧
      t.valid = { s.valid with pe := true } ∧ t.cond = s.cond ∧ t.res = s.res ∧ InputsKept s t ∧
      KeptBeyond s.mem.pay t.mem.pay s.cfg.paysz.toNat ∧ t.mem.cent = s.mem.cent ∧
      t.mem.clk = s.mem.clk ∧ t.mem.syn = s.mem.syn ∧ t.mem.bits = s.mem.bits ∧
      t.mem.prof = s.mem.prof

/-! ## RUN and CLR -/

/-- RUN completes whenever the five stages, as pure functions of the capture and the configuration, find a sync
position and a whole payload (R231): the centered sequence with its denominator, the clock, the bits, the profile,
the position, the payload and the flags are theirs, and the inputs stay. That every output memory's entries beyond
its length stay is the model's choice (log 4). -/
def Obligations.RunDemodulatesPayload : Prop :=
  ∀ (s : State) (l : TimingLoop), LegalConfig s.cfg → sps s.cfg < sampleCount s.cfg →
    capturedLoop s = some l → (loopScan s l).found = true →
    (loopScan s l).payloadStart + 8 * s.cfg.paysz.toNat ≤ l.index →
    ∃ t, exec .run s = .next t ∧ CompletedWith s t .ok .none 0#4 ∧
      t.valid = { env := true, tr := true, bd := true, prof := true, fs := true, pe := true } ∧
      t.cond = { envZero := decide (ruleMax s = 0), wTrec := l.warn,
                 wFsync := decide (1 ≤ l.index ∧ 8 ≤ patLen s.cfg) } ∧
      t.res.envmax.toNat = ruleMax s ∧ t.res.envsum.toNat = ruleTotal s ∧
      t.res.envden.toNat = (if ruleMax s = 0 then 1 else sampleCount s.cfg * ruleMax s) ∧
      (∀ n < sampleCount s.cfg, ∃ v, Cells.read t.mem.cent n = some v ∧
        v.toInt = if ruleMax s = 0 then 0
          else (sampleCount s.cfg : Int) * ruleWindow s n - ruleTotal s) ∧
      t.res.nbits.toNat = l.index ∧ t.res.eps.toInt = l.epsilon ∧
      t.res.syncidx.toNat = (loopScan s l).syncIndex ∧
      t.res.paystart.toNat = (loopScan s l).payloadStart ∧
      (∀ k < l.index, Cells.read t.mem.clk k = Cells.read l.clk k ∧
        Cells.read t.mem.syn k = Cells.read l.syn k ∧ bitAt t k = loopBit l k ∧
        profAt t k = loopScore s l k) ∧
      (∀ b < s.cfg.paysz.toNat, Cells.read t.mem.pay b =
        some (packByte (loopBit l) ((loopScan s l).payloadStart + 8 * b))) ∧
      InputsKept s t ∧ KeptBeyond s.mem.cent t.mem.cent (sampleCount s.cfg) ∧
      KeptBeyond s.mem.clk t.mem.clk l.index ∧ KeptBeyond s.mem.syn t.mem.syn l.index ∧
      KeptBeyond s.mem.bits t.mem.bits l.index ∧ KeptBeyond s.mem.prof t.mem.prof l.index ∧
      KeptBeyond s.mem.pay t.mem.pay s.cfg.paysz.toNat

/-- R231: RUN is equal in effect to the host issuing ENV, TREC, BDEC, FSYNC, PEXT one after another and stopping
at the first non-zero code, except for `LASTOP` (and the word left in `PEND`). -/
def Obligations.RunEqualsFiveCommands : Prop :=
  ∀ s : State, issue .run s = withRunWord (issueFive s)

/-- R232: with a legal configuration RUN always completes, in one of four ways, each with its flags. -/
def Obligations.RunAlwaysCompletes : Prop :=
  ∀ s : State, LegalConfig s.cfg → ∃ t, exec .run s = .next t ∧
    ((CompletedWith s t .ok .none 0#4 ∧
        t.valid = { env := true, tr := true, bd := true, prof := true, fs := true, pe := true }) ∨
      (CompletedWith s t .insuff .trec 1#4 ∧
        t.valid = { env := true, tr := false, bd := false, prof := false, fs := false, pe := false }) ∨
      (CompletedWith s t .nosync .fsync 0#4 ∧
        t.valid = { env := true, tr := true, bd := true, prof := true, fs := false, pe := false }) ∨
      (CompletedWith s t .insuff .pext 2#4 ∧
        t.valid = { env := true, tr := true, bd := true, prof := true, fs := true, pe := false }))

/-- CLR completes in every state (R233): flags and result registers cleared, code OK; configuration, `SYNCW` and
`IQMEM` kept. The contents of `CENTMEM` to `PAYMEM` become unspecified: no host read of them depends on what they
held. That their raw lists stay (`t.mem = s.mem`) is the model's choice, not the rule's (log 4). -/
def Obligations.ClrClearsResults : Prop :=
  ∀ s : State, ∃ t, exec .clr s = .next t ∧ CompletedWith s t .ok .none 0#4 ∧
    t.valid = { env := false, tr := false, bd := false, prof := false, fs := false, pe := false } ∧
    t.cond = { envZero := false, wTrec := false, wFsync := false } ∧
    t.res = State.reset.res ∧ InputsKept s t ∧ t.mem = s.mem ∧
    (s.pend = encode .clr → statusWord t = 0x702#64) ∧ errinfoWord t = 0#64 ∧
    ∀ (m : Memory) (space idx : Nat), 2 ≤ space → space ≤ 7 →
      memRead { t with mem := m } space idx = memRead t space idx

/-! ## The host port -/

/-- R66: while `BUSY = 1` only a read of `STATUS` or of `ID` gets `OK`; nothing else has any effect but the
response. -/
def Obligations.BusyRule : Prop :=
  ∀ (s : State) (a : HostAddr) (v : Word), s.busy = true →
    (a = 0x000002#24 → readResponse s a = .data (statusWord s)) ∧
    (a = 0x000000#24 → readResponse s a = .data Config.coreId) ∧
    (a ≠ 0x000002#24 → a ≠ 0x000000#24 → readResponse s a = .err) ∧
    hostWrite s a v = { s with resp := some .err }

/-- R265: all the cases in which the host port answers `ERR`, and that such a transaction changes nothing. -/
def Obligations.HostPortRefusals : Prop :=
  ∀ (s : State) (a : HostAddr) (v : Word),
    (readResponse s a = .err ↔
      (s.busy = true ∧ a.toNat ≠ 2 ∧ a.toNat ≠ 0) ∨
        ¬((a.toNat / 2 ^ 20 = 0 ∧ a.toNat % 2 ^ 20 ≤ 0x16 ∧ a.toNat % 2 ^ 20 ≠ 0x01 ∧
            a.toNat % 2 ^ 20 ≠ 0x0F) ∨
          (1 ≤ a.toNat / 2 ^ 20 ∧ a.toNat / 2 ^ 20 ≤ 6 ∧ a.toNat % 2 ^ 20 < 65536) ∨
          (a.toNat / 2 ^ 20 = 7 ∧ a.toNat % 2 ^ 20 < 8192) ∨
          (a.toNat / 2 ^ 20 = 8 ∧ a.toNat % 2 ^ 20 < 8))) ∧
    ((hostWrite s a v).resp = some .err ↔
      s.busy = true ∨
        ¬((a.toNat / 2 ^ 20 = 0 ∧ a.toNat % 2 ^ 20 ∈
            [0x01, 0x04, 0x05, 0x07, 0x08, 0x09, 0x0A, 0x0C, 0x0D, 0x0E]) ∨
          (a.toNat / 2 ^ 20 = 1 ∧ a.toNat % 2 ^ 20 < 65536) ∨
          (a.toNat / 2 ^ 20 = 8 ∧ a.toNat % 2 ^ 20 < 8))) ∧
    ((hostWrite s a v).resp = some .err → hostWrite s a v = { s with resp := some .err }) ∧
    { hostRead s a with resp := s.resp, free := s.free } = s

/-- R34: a write of `CMD` stores the whole word, sets `BUSY`, clears `DONE` and changes nothing else; while
`BUSY = 1` it is refused, and it is never readable. -/
def Obligations.CmdWriteStartsCommand : Prop :=
  ∀ (s : State) (w : Word),
    (s.busy = false → hostWrite s 0x000001#24 w =
      { s with pend := w, busy := true, done := false, resp := some .ok }) ∧
    (s.busy = true → hostWrite s 0x000001#24 w = { s with resp := some .err }) ∧
    readResponse s 0x000001#24 = .err

/-- R28: which flags an accepted host write clears, whatever value it stores; result registers stay (R45). -/
def Obligations.HostWritesClearFlags : Prop :=
  ∀ (s : State) (a : HostAddr) (v : Word), (hostWrite s a v).resp = some .ok →
    (a.toNat / 2 ^ 20 = 1 ∨ a.toNat = 0x07 ∨ a.toNat = 0x04 ∨ a.toNat = 0x05 →
      (hostWrite s a v).valid =
          { env := false, tr := false, bd := false, prof := false, fs := false, pe := false } ∧
        (hostWrite s a v).cond = { envZero := false, wTrec := false, wFsync := false }) ∧
    (a.toNat / 2 ^ 20 = 8 ∨ a.toNat = 0x08 ∨ a.toNat = 0x09 ∨ a.toNat = 0x0A ∨ a.toNat = 0x0C ∨
        a.toNat = 0x0D →
      (hostWrite s a v).valid = { s.valid with prof := false, fs := false, pe := false } ∧
        (hostWrite s a v).cond = { s.cond with wFsync := false }) ∧
    (a.toNat = 0x0E →
      (hostWrite s a v).valid = { s.valid with pe := false } ∧ (hostWrite s a v).cond = s.cond) ∧
    (a.toNat = 0x01 →
      (hostWrite s a v).valid = s.valid ∧ (hostWrite s a v).cond = s.cond) ∧
    (hostWrite s a v).res = s.res

/-- A register write is kept modulo its width and read back as written, legal or not (R32); no other register
that the host writes, no memory and no sync byte moves. For the output memories whose flags the write clears, that
their lists stay is the model's choice (log 4). -/
def Obligations.RegisterWriteReadBack : Prop :=
  ∀ (s : State) (idx width : Nat) (v : Word), s.busy = false →
    (idx, width) ∈ [(0x04, 32), (0x05, 32), (0x07, 17), (0x08, 8), (0x09, 8), (0x0A, 8), (0x0C, 16),
      (0x0D, 2), (0x0E, 16)] →
    let t := hostWrite s (BitVec.ofNat 24 idx) v
    t.resp = some .ok ∧
      readResponse t (BitVec.ofNat 24 idx) = .data (BitVec.ofNat 64 (v.toNat % 2 ^ width)) ∧
      (∀ j, j ≠ idx → j ∈ [0x04, 0x05, 0x07, 0x08, 0x09, 0x0A, 0x0C, 0x0D, 0x0E] →
        readResponse t (BitVec.ofNat 24 j) = readResponse s (BitVec.ofNat 24 j)) ∧
      t.mem = s.mem ∧ t.syncw = s.syncw ∧ t.pend = s.pend ∧ t.busy = false ∧ t.done = s.done ∧
      t.err = s.err ∧ t.lastop = s.lastop ∧ t.errStage = s.errStage ∧ t.errSub = s.errSub

/-- A sample or sync byte written by the host is read back with the format of R61, and every other entry is as
before. For the output memories, whose flags the write clears, that is the model's choice (log 4). -/
def Obligations.SampleAndSyncByteReadBack : Prop :=
  ∀ (s : State) (v : Word), s.busy = false →
    (∀ n < 65536,
      let t := hostWrite s (BitVec.ofNat 24 (0x100000 + n)) v
      t.resp = some .ok ∧
        readResponse t (BitVec.ofNat 24 (0x100000 + n)) = .data (v &&& 0x0000FFFF0000FFFF#64) ∧
        (∃ x, Cells.read t.mem.iq n = some x ∧ x.i.toNat = v.toNat % 2 ^ 16 ∧
          x.q.toNat = v.toNat / 2 ^ 32 % 2 ^ 16) ∧
        (∀ m, m ≠ n → Cells.read t.mem.iq m = Cells.read s.mem.iq m) ∧
        t.mem = { s.mem with iq := t.mem.iq } ∧ t.syncw = s.syncw ∧ t.cfg = s.cfg ∧
        (Memory.wf s.mem = true → Memory.wf t.mem = true)) ∧
    ∀ q < 8,
      let t := hostWrite s (BitVec.ofNat 24 (0x800000 + q)) v
      t.resp = some .ok ∧
        readResponse t (BitVec.ofNat 24 (0x800000 + q)) = .data (v &&& 0xFF#64) ∧
        (∀ p < 8, p ≠ q → readResponse t (BitVec.ofNat 24 (0x800000 + p)) =
          readResponse s (BitVec.ofNat 24 (0x800000 + p))) ∧
        t.mem = s.mem ∧ t.cfg = s.cfg

/-- The formats in which the host reads the specified entries of the output memories (R61): sign extended,
zero extended, or one bit or byte. -/
def Obligations.OutputMemoriesReadBack : Prop :=
  ∀ (s : State) (n : Nat), s.busy = false → n < 65536 →
    (∀ c, s.valid.env = true → n < sampleCount s.cfg → Cells.read s.mem.cent n = some c →
      readResponse s (BitVec.ofNat 24 (0x200000 + n)) = .data c) ∧
    (∀ t, s.valid.tr = true → n < bitCount s → Cells.read s.mem.clk n = some t →
      readResponse s (BitVec.ofNat 24 (0x300000 + n)) = .data (BitVec.ofNat 64 t.toNat)) ∧
    (∀ y, s.valid.tr = true → n < bitCount s → Cells.read s.mem.syn n = some y →
      readResponse s (BitVec.ofNat 24 (0x400000 + n)) = .data y) ∧
    (∀ b, s.valid.bd = true → n < bitCount s → Cells.read s.mem.bits n = some b →
      readResponse s (BitVec.ofNat 24 (0x500000 + n)) = .data (BitVec.ofNat 64 b.toNat)) ∧
    (∀ p, s.valid.prof = true → n < bitCount s → Cells.read s.mem.prof n = some p →
      readResponse s (BitVec.ofNat 24 (0x600000 + n)) = .data (BitVec.ofNat 64 p.toNat)) ∧
    ∀ b, s.valid.pe = true → n < s.cfg.paysz.toNat → n < 8192 → Cells.read s.mem.pay n = some b →
      readResponse s (BitVec.ofNat 24 (0x700000 + n)) = .data (BitVec.ofNat 64 b.toNat)

/-- Two reads with no write or core step between them are answered the same, for every register, every sync byte,
every specified entry and every refused address (R63): reading moves nothing but the model's own fields. -/
def Obligations.ReadsAreRepeatable : Prop :=
  ∀ (s : State) (a b : HostAddr), Inv s →
    (b.toNat / 2 ^ 20 = 1 →
      (Cells.read s.mem.iq (b.toNat % 2 ^ 20)).isSome = true ∨ 65536 ≤ b.toNat % 2 ^ 20) →
    (b.toNat / 2 ^ 20 = 2 →
      (s.valid.env = true ∧ b.toNat % 2 ^ 20 < sampleCount s.cfg) ∨ 65536 ≤ b.toNat % 2 ^ 20) →
    (b.toNat / 2 ^ 20 = 3 ∨ b.toNat / 2 ^ 20 = 4 →
      (s.valid.tr = true ∧ b.toNat % 2 ^ 20 < bitCount s) ∨ 65536 ≤ b.toNat % 2 ^ 20) →
    (b.toNat / 2 ^ 20 = 5 →
      (s.valid.bd = true ∧ b.toNat % 2 ^ 20 < bitCount s) ∨ 65536 ≤ b.toNat % 2 ^ 20) →
    (b.toNat / 2 ^ 20 = 6 →
      (s.valid.prof = true ∧ b.toNat % 2 ^ 20 < bitCount s) ∨ 65536 ≤ b.toNat % 2 ^ 20) →
    (b.toNat / 2 ^ 20 = 7 →
      (s.valid.pe = true ∧ b.toNat % 2 ^ 20 < s.cfg.paysz.toNat) ∨ 8192 ≤ b.toNat % 2 ^ 20) →
    readResponse (hostRead s a) b = readResponse s b

/-- `STATUS`, `ERRINFO`, `SPS` and `PATLEN` as numbers, field by field (R35, R36, R39, R41), with the number of
each result code (R251) and of each stage (R36) written out, and the host reads of the seven result registers
(R45). -/
def Obligations.StatusWordLayout : Prop :=
  ∀ s : State,
    (statusWord s).toNat =
      s.busy.toNat + 2 * s.done.toNat + 16 * s.err.bits.toNat + 256 * s.lastop.toNat +
        65536 * s.valid.env.toNat + 131072 * s.valid.tr.toNat + 262144 * s.valid.bd.toNat +
        524288 * s.valid.prof.toNat + 1048576 * s.valid.fs.toNat + 2097152 * s.valid.pe.toNat +
        16777216 * s.cond.envZero.toNat + 33554432 * s.cond.wTrec.toNat +
        67108864 * s.cond.wFsync.toNat ∧
    (s.err = .ok → (statusWord s).toNat / 16 % 16 = 0) ∧
    (s.err = .config → (statusWord s).toNat / 16 % 16 = 1) ∧
    (s.err = .insuff → (statusWord s).toNat / 16 % 16 = 2) ∧
    (s.err = .nosync → (statusWord s).toNat / 16 % 16 = 3) ∧
    (s.err = .illcmd → (statusWord s).toNat / 16 % 16 = 4) ∧
    (s.err = .seq → (statusWord s).toNat / 16 % 16 = 5) ∧
    (errinfoWord s).toNat = 16 * s.errSub.toNat + s.errStage.bits.toNat ∧
    (s.errStage = .none → (errinfoWord s).toNat = 16 * s.errSub.toNat) ∧
    (s.errStage = .env → (errinfoWord s).toNat = 16 * s.errSub.toNat + 1) ∧
    (s.errStage = .trec → (errinfoWord s).toNat = 16 * s.errSub.toNat + 2) ∧
    (s.errStage = .bdec → (errinfoWord s).toNat = 16 * s.errSub.toNat + 3) ∧
    (s.errStage = .fsync → (errinfoWord s).toNat = 16 * s.errSub.toNat + 4) ∧
    (s.errStage = .pext → (errinfoWord s).toNat = 16 * s.errSub.toNat + 5) ∧
    memRead s 0 0x02 = some (statusWord s) ∧ memRead s 0 0x03 = some (errinfoWord s) ∧
    (s.cfg.br.toNat = 0 → memRead s 0 0x06 = some 0#64) ∧
    (s.cfg.br.toNat ≠ 0 → memRead s 0 0x06 = some (BitVec.ofNat 64 (s.cfg.fs.toNat / s.cfg.br.toNat))) ∧
    memRead s 0 0x0B = some (BitVec.ofNat 64 (8 * (s.cfg.npre.toNat + s.cfg.swlen.toNat))) ∧
    memRead s 0 0x10 = some s.res.envmax ∧ memRead s 0 0x11 = some s.res.envsum ∧
    memRead s 0 0x12 = some s.res.envden ∧
    memRead s 0 0x13 = some (BitVec.ofNat 64 s.res.nbits.toNat) ∧
    memRead s 0 0x14 = some s.res.eps ∧
    memRead s 0 0x15 = some (BitVec.ofNat 64 s.res.syncidx.toNat) ∧
    memRead s 0 0x16 = some (BitVec.ofNat 64 s.res.paystart.toNat)

/-- R33: `ID` reads the constant `CORE_ID` in every state. -/
def Obligations.IdentificationWord : Prop :=
  (∀ s : State, readResponse s 0x000000#24 = .data 0x4F4F4B0000000001#64) ∧
    (0x4F4F4B0000000001#64 : Word).extractLsb' 40 24 = 0x4F4F4B#24 ∧
    (0x4F4F4B0000000001#64 : Word).extractLsb' 8 32 = 0#32 ∧
    (0x4F4F4B0000000001#64 : Word).extractLsb' 0 8 = 1#8

/-! ## Host lines -/

/-- `EXEC` (R108) from an idle core, on the model's schedule with `lineWait`'s number of polls before the core's
turn (DESIGN CHOICE, log 2): the command word is accepted, every poll reads `STATUS` with `BUSY = 1`, the core's
turn executes the command, and the last word read is `STATUS` after it, with `BUSY = 0`. -/
def Obligations.ExecLineRunsCommand : Prop :=
  ∀ (s : State) (i : Instr) (polls : Nat) (rest : List HostEvent), s.busy = false →
    s.port = lineExec i polls ++ rest →
    ∃ u, Host.Core.run Sys2Proof.core (polls + 1) s = .next u ∧
      u = { s with
        pend := encode i
        busy := true
        done := false
        port := .core :: lineRd 0 0x02 :: rest
        resp := u.resp
        free := u.free } ∧
      (polls = 0 → u.resp = some .ok) ∧
      (∀ k, 1 ≤ k → k ≤ polls → ∃ v, Host.Core.run Sys2Proof.core (k + 1) s = .next v ∧
        v.resp = some (.data (statusWord u)) ∧ (statusWord u).getLsbD 0 = true) ∧
      step u = exec i { u with port := lineRd 0 0x02 :: rest } ∧
      ∀ t, exec i { u with port := lineRd 0 0x02 :: rest } = .next t →
        (statusWord t).getLsbD 0 = false ∧
        Host.Core.run Sys2Proof.core (polls + 3) s =
          .next { t with port := rest, resp := some (.data (statusWord t)), free := t.free + 1 }

/-- `DEMOD` (R108) from an idle core, on the model's schedule (DESIGN CHOICE, log 2): RUN executes; if
`STATUS.ERR` is not 0 in the word read after it the host goes on with the rest, else it reads `PAYMEM[0]` to
`PAYMEM[PAYSZ-1]` and gets the payload. -/
def Obligations.DemodLineReadsPayload : Prop :=
  ∀ (s : State) (polls : Nat) (rest : List HostEvent), s.busy = false →
    s.port = lineDemod polls ++ rest →
    ∃ u t v, Host.Core.run Sys2Proof.core (polls + 1) s = .next u ∧
      u = { s with
        pend := encode .run
        busy := true
        done := false
        port := .core :: lineRd 0 0x02 :: .demodReads :: rest
        resp := u.resp
        free := u.free } ∧
      exec .run { u with port := lineRd 0 0x02 :: .demodReads :: rest } = .next t ∧
      Host.Core.run Sys2Proof.core (polls + 4) s = .next v ∧
      v = { t with port := v.port, resp := some (.data (statusWord t)), free := t.free + 1 } ∧
      (t.err ≠ .ok → v.port = rest) ∧
      (t.err = .ok →
        v.port = (List.range s.cfg.paysz.toNat).map (fun b => .read (BitVec.ofNat 24 (0x700000 + b))) ++
          rest ∧
        ∀ b < s.cfg.paysz.toNat, ∃ w byte, Host.Core.run Sys2Proof.core (polls + 5 + b) s = .next w ∧
          Cells.read t.mem.pay b = some byte ∧ w.resp = some (.data (byte.setWidth 64)))

/-- `LOADIQ` (R108, R61) on the model's schedule (DESIGN CHOICE, log 2): after its lines `NSAMP` is the length and
`IQMEM` holds the samples. That a component too wide for `IQ_W` bits is stored modulo `2^IQ_W` (log 9), and that the
lists of the output memories stay (log 4), are the model's choices. -/
def Obligations.LoadiqLinesStoreSamples : Prop :=
  ∀ (s : State) (samples : List (Int × Int)) (rest : List HostEvent), s.busy = false →
    samples.length ≤ 65536 → s.port = lineLoadiq samples ++ rest →
    ∃ u, Host.Core.run Sys2Proof.core (samples.length + 1) s = .next u ∧ u.port = rest ∧
      u.busy = false ∧ sampleCount u.cfg = samples.length ∧
      u.cfg = { s.cfg with nsamp := u.cfg.nsamp } ∧
      (∀ (n : Nat) (h : n < samples.length), Cells.read u.mem.iq n =
        some { i := BitVec.ofInt 16 samples[n].1, q := BitVec.ofInt 16 samples[n].2 }) ∧
      KeptBeyond s.mem.iq u.mem.iq samples.length ∧ u.mem = { s.mem with iq := u.mem.iq } ∧
      u.valid = { env := false, tr := false, bd := false, prof := false, fs := false, pe := false }

/-- Every byte's display (R107; the case of its letters is the model's choice, log 8) is read back by the hex
conversion (R105), with the rules' examples; and every text with a character that is no digit is refused (R106). -/
def Obligations.HexTextRoundTrip : Prop :=
  (∀ b : Byte, hexBytes ((displayByte b).drop 2) = some [b]) ∧
    hexBytes ['D', 'B', '6', 'A'] = some [0xDB#8, 0x6A#8] ∧ hexBytes ['a'] = some [0x0A#8] ∧
    hexBytes [] = some [] ∧ hexBytes ['D', 'G'] = none ∧ displayByte 18#8 = ['0', 'x', '1', '2'] ∧
    ∀ text, Malformed text → hexBytes text = none

/-- Which texts the host side refuses, before anything is written (R106), and what it writes for the others
(R105, R108): the bytes of the text's own value, a 0 in front of an odd number of digits. -/
def Obligations.HexTextLines : Prop :=
  (∀ text, ¬Malformed text → ∃ bytes, hexBytes text = some bytes ∧
    bytes.length = (text.length + 1) / 2 ∧ bytesValue bytes = textValue text) ∧
  (∀ text, lineSyncword text = none ↔ Malformed text ∨ 2 * Config.swMax < text.length) ∧
  (∀ text n, linePreamble text n = none ↔ Malformed text ∨ text.length = 0 ∨ 2 < text.length) ∧
  (∀ text events bytes, lineSyncword text = some events → hexBytes text = some bytes →
    events.length = bytes.length + 1 ∧
    events[0]? = some (.write 0x00000A#24 (BitVec.ofNat 64 bytes.length)) ∧
    ∀ (q : Nat) (h : q < bytes.length),
      events[q + 1]? = some (.write (BitVec.ofNat 24 (0x800000 + q)) ((bytes[q]).setWidth 64))) ∧
  ∀ text n events, linePreamble text n = some events → ∃ b, hexBytes text = some [b] ∧
    events = [.write 0x000008#24 (b.setWidth 64), .write 0x000009#24 n]

/-- The records of R237, on the model's schedule (log 2): ENV after reset, an illegal word, TREC before ENV, CLR. -/
def Obligations.StatusAfterRefusals : Prop :=
  (∃ t, Host.Core.run Sys2Proof.core 3
      { State.reset with port := [lineCmd .env, .core, lineRd 0 0x02] } = .next t ∧
    t.resp = some (.data 0x112#64) ∧ errinfoWord t = 0x10#64) ∧
  (∃ t, Host.Core.run Sys2Proof.core 3
      { State.reset with port := [lineWr 0 0x01 0#64, .core, lineRd 0 0x02] } = .next t ∧
    t.resp = some (.data 0x042#64) ∧ errinfoWord t = 0#64) ∧
  (∃ t, Host.Core.run Sys2Proof.core 6
      { State.reset with port := lineRates 8#64 2#64 ++
          [lineWr 0 0x0E 1#64, lineCmd .trec, .core, lineRd 0 0x02] } = .next t ∧
    t.resp = some (.data 0x252#64) ∧ errinfoWord t = 0x20#64) ∧
  ∃ t, Host.Core.run Sys2Proof.core 3
      { State.reset with port := [lineCmd .clr, .core, lineRd 0 0x02] } = .next t ∧
    t.resp = some (.data 0x702#64) ∧ errinfoWord t = 0#64

/-! ## Reset -/

/-- R52: what reset leaves, by field and as the host reads it; no memory entry holds a specified value. -/
def Obligations.ResetState : Prop :=
  State.reset.seq = .idle ∧ State.reset.busy = false ∧ statusWord State.reset = 0#64 ∧
    errinfoWord State.reset = 0#64 ∧
    (List.range 0x17).map (memRead State.reset 0) =
      [some 0x4F4F4B0000000001#64, none, some 0#64, some 0#64, some 0#64, some 0#64, some 0#64,
        some 0#64, some 0xAA#64, some 2#64, some 0#64, some 16#64, some 12#64, some 1#64, some 0#64,
        none, some 0#64, some 0#64, some 0#64, some 0#64, some 0#64, some 0#64, some 0#64] ∧
    (∀ q < 8, memRead State.reset 8 q = some 0#64) ∧
    ∀ n, Cells.read State.reset.mem.iq n = none ∧ Cells.read State.reset.mem.cent n = none ∧
      Cells.read State.reset.mem.clk n = none ∧ Cells.read State.reset.mem.syn n = none ∧
      Cells.read State.reset.mem.bits n = none ∧ Cells.read State.reset.mem.prof n = none ∧
      Cells.read State.reset.mem.pay n = none

/-- R291: the reset input, in any state, also while a command is pending, leaves the state of R52: no command
pending, every register at its reset value, no memory entry with a specified value. -/
def Obligations.ResetInput : Prop :=
  ∀ (s : State) (rest : List HostEvent), s.port = .reset :: rest →
    ∃ t, step s = .next t ∧ t.seq = .idle ∧ t.busy = false ∧ t.done = false ∧ statusWord t = 0#64 ∧
      errinfoWord t = 0#64 ∧ t.cfg = State.reset.cfg ∧ t.syncw = State.reset.syncw ∧
      t.res = State.reset.res ∧ t.port = rest ∧
      ∀ n, Cells.read t.mem.iq n = none ∧ Cells.read t.mem.cent n = none ∧
        Cells.read t.mem.clk n = none ∧ Cells.read t.mem.syn n = none ∧
        Cells.read t.mem.bits n = none ∧ Cells.read t.mem.prof n = none ∧
        Cells.read t.mem.pay n = none

/-! ## Invariants -/

/-- The state after reset has the invariant, whatever the host is going to do. -/
def Obligations.ResetHasInvariant : Prop :=
  ∀ events : List HostEvent, Inv { State.reset with port := events }

/-- From every state with the invariant the step answers a next state, which has it again: no fault, no refusal,
whatever the host does. -/
def Obligations.StepKeepsInvariantAndNeverStops : Prop :=
  ∀ s : State, Inv s → ∃ t, step s = .next t ∧ Inv t

/-- R229: the chain of the valid flags, and that a condition flag falls with the valid flag that guards it (R27),
are kept by every step from every state. -/
def Obligations.FlagChainKept : Prop :=
  ∀ s t : State, FlagChain s.valid → CondGuarded s.valid s.cond → step s = .next t →
    FlagChain t.valid ∧ CondGuarded t.valid t.cond

/-- R26, R28: a result marked valid is the function of the inputs now in the registers and memories, and every
step keeps that so. -/
def Obligations.ValidResultsStayCurrent : Prop :=
  ∀ s t : State, Inv s → ResultsCurrent s → step s = .next t → ResultsCurrent t

/-- Every run of every length from reset, under every schedule of host and reset events (the model's, log 2), ends in
a next state. -/
def Obligations.RunsFromResetNeverStop : Prop :=
  ∀ events : List HostEvent, NeverStops { State.reset with port := events }
end

