-- ==== Sys2Proof/Laws/Arith.lean ====
section
/-! SUPPORT. Laws of the arithmetic the stages share: sums and maxima over index ranges, the zero-padding read,
the integer square root, and `round`. -/

namespace Sys2Proof.Machine

/-! ## Sums, maxima, searches -/

theorem sumUpTo_eq_sum (f : Nat → Nat) (n : Nat) : sumUpTo f n = ∑ j ∈ Finset.range n, f j := by
  induction n with
  | zero => rfl
  | succ n ih => rw [sumUpTo, ih, Finset.sum_range_succ]

theorem sumUpTo_congr {f g : Nat → Nat} {n : Nat} (h : ∀ j < n, f j = g j) :
    sumUpTo f n = sumUpTo g n := by
  induction n with
  | zero => rfl
  | succ n ih => rw [sumUpTo, sumUpTo, ih fun j hj => h j (by omega), h n (by omega)]

theorem sumUpTo_le_mul (f : Nat → Nat) (n b : Nat) (h : ∀ j < n, f j ≤ b) : sumUpTo f n ≤ n * b := by
  induction n with
  | zero => simp [sumUpTo]
  | succ n ih =>
    have h1 := ih fun j hj => h j (by omega)
    have h2 := h n (by omega)
    rw [sumUpTo, Nat.succ_mul]
    omega

theorem le_maxUpTo (f : Nat → Nat) (n j : Nat) (h : j < n) : f j ≤ maxUpTo f n := by
  induction n with
  | zero => omega
  | succ n ih =>
    rw [maxUpTo]
    by_cases hj : j = n
    · subst hj; exact le_max_right _ _
    · exact le_trans (ih (by omega)) (le_max_left _ _)

theorem maxUpTo_le (f : Nat → Nat) (n b : Nat) (h : ∀ j < n, f j ≤ b) : maxUpTo f n ≤ b := by
  induction n with
  | zero => simp [maxUpTo]
  | succ n ih => exact max_le (ih fun j hj => h j (by omega)) (h n (by omega))

theorem maxUpTo_congr {f g : Nat → Nat} {n : Nat} (h : ∀ j < n, f j = g j) :
    maxUpTo f n = maxUpTo g n := by
  induction n with
  | zero => rfl
  | succ n ih => rw [maxUpTo, maxUpTo, ih fun j hj => h j (by omega), h n (by omega)]

/-- The maximum is reached, unless the sequence is empty or all zero. -/
theorem maxUpTo_attained (f : Nat → Nat) (n : Nat) (h : maxUpTo f n ≠ 0) :
    ∃ j < n, f j = maxUpTo f n := by
  induction n with
  | zero => simp [maxUpTo] at h
  | succ n ih =>
    rw [maxUpTo] at h ⊢
    rcases le_total (maxUpTo f n) (f n) with hle | hle
    · exact ⟨n, by omega, by rw [max_eq_right hle]⟩
    · rw [max_eq_left hle] at h ⊢
      obtain ⟨j, hj, he⟩ := ih h
      exact ⟨j, by omega, he⟩

theorem anyUpTo_iff (f : Nat → Bool) (n : Nat) : anyUpTo f n = true ↔ ∃ j < n, f j = true := by
  induction n with
  | zero => simp [anyUpTo]
  | succ n ih =>
    rw [anyUpTo, Bool.or_eq_true, ih]
    constructor
    · rintro (⟨j, hj, h⟩ | h)
      · exact ⟨j, by omega, h⟩
      · exact ⟨n, by omega, h⟩
    · rintro ⟨j, hj, h⟩
      by_cases he : j = n
      · exact .inr (he ▸ h)
      · exact .inl ⟨j, by omega, h⟩

/-! ## The zero-padding read -/

theorem outOfRange_iff (len : Nat) (j : Int) :
    outOfRange len j = true ↔ j < 0 ∨ (len : Int) ≤ j := by
  simp [outOfRange]

theorem outOfRange_eq_false_iff (len : Nat) (j : Int) :
    outOfRange len j = false ↔ 0 ≤ j ∧ j < (len : Int) := by
  simp [outOfRange]

/-- All that `PadRead` can give: the entry inside the range, zero outside (R70). -/
theorem padRead_cases {α : Type} (zero : α) (len : Nat) (rd : Nat → α) (j : Int) :
    (∃ n < len, j = (n : Int) ∧ padRead zero len rd j = rd n) ∨
      (outOfRange len j = true ∧ padRead zero len rd j = zero) := by
  by_cases h : outOfRange len j = true
  · exact .inr ⟨h, by simp [padRead, h]⟩
  · rw [Bool.not_eq_true, outOfRange_eq_false_iff] at h
    refine .inl ⟨j.toNat, by omega, by omega, ?_⟩
    have h' : outOfRange len j = false := by rw [outOfRange_eq_false_iff]; exact h
    simp [padRead, h']

theorem padRead_congr {α : Type} (zero : α) (len : Nat) {f g : Nat → α} (h : ∀ n < len, f n = g n)
    (j : Int) : padRead zero len f j = padRead zero len g j := by
  by_cases hj : outOfRange len j = true
  · simp [padRead, hj]
  · have h' := (outOfRange_eq_false_iff len j).mp (by simpa using hj)
    simp [padRead, hj, h j.toNat (by omega)]

/-! ## The integer square root -/

theorem isqrtBits_spec (b m r : Nat) (h1 : r * r ≤ m) (h2 : m < (r + 2 ^ b) * (r + 2 ^ b)) :
    isqrtBits b m r * isqrtBits b m r ≤ m ∧
      m < (isqrtBits b m r + 1) * (isqrtBits b m r + 1) := by
  induction b generalizing r with
  | zero => exact ⟨h1, by simpa [isqrtBits] using h2⟩
  | succ b ih =>
    rw [isqrtBits]
    by_cases h : (r + 2 ^ b) * (r + 2 ^ b) ≤ m
    · rw [if_pos h]
      refine ih _ h ?_
      have : r + 2 ^ b + 2 ^ b = r + 2 ^ (b + 1) := by ring
      rw [this]; exact h2
    · rw [if_neg h]
      exact ih _ h1 (by omega)

/-- One bit more than the root of `m` can need, so that the search of `isqrtBits` starts high enough. -/
theorem lt_isqrt_start (m : Nat) : m < (0 + 2 ^ (m.log2 / 2 + 1)) * (0 + 2 ^ (m.log2 / 2 + 1)) := by
  have h : m < 2 ^ (m.log2 + 1) := Nat.lt_log2_self
  have h2 : 2 ^ (m.log2 + 1) ≤ 2 ^ (m.log2 / 2 + 1) * 2 ^ (m.log2 / 2 + 1) := by
    rw [← pow_add]; exact Nat.pow_le_pow_right (by norm_num) (by omega)
  simpa using lt_of_lt_of_le h h2

end Sys2Proof.Machine
end

