-- ==== Sys2Proof/Laws/Cells.lean ====
section
/-! SUPPORT. Laws of the memories of entries: read after write, every other entry, the range writes of the
stages, and the canonical form that every operation keeps. -/

namespace Sys2Proof.Machine

variable {α : Type}

@[simp] theorem Cells.read_nil (i : Nat) : Cells.read ([] : Cells α) i = none := rfl

@[simp] theorem Cells.read_write_self (m : Cells α) (i : Nat) (v : α) :
    Cells.read (Cells.write m i v) i = some v := by
  induction m with
  | nil => simp [Cells.write, Cells.read]
  | cons c rest ih =>
    obtain ⟨k, w⟩ := c
    by_cases h1 : i < k
    · simp [Cells.write, Cells.read, h1]
    · by_cases h2 : i = k
      · simp [Cells.write, Cells.read, h2]
      · simp [Cells.write, Cells.read, h1, h2, Ne.symm h2, ih]

theorem Cells.read_write_of_ne (m : Cells α) {i j : Nat} (v : α) (h : j ≠ i) :
    Cells.read (Cells.write m i v) j = Cells.read m j := by
  induction m with
  | nil => simp [Cells.write, Cells.read, h.symm]
  | cons c rest ih =>
    obtain ⟨k, w⟩ := c
    by_cases h1 : i < k
    · simp [Cells.write, Cells.read, h1, h.symm]
    · by_cases h2 : i = k
      · subst h2
        simp [Cells.write, Cells.read, h.symm]
      · simp [Cells.write, Cells.read, h1, h2, ih]

/-- A read after a write: the written entry, or what was there. -/
theorem Cells.read_write (m : Cells α) (i j : Nat) (v : α) :
    Cells.read (Cells.write m i v) j = if j = i then some v else Cells.read m j := by
  by_cases h : j = i
  · simp [h]
  · simp [h, Cells.read_write_of_ne m v h]

/-- The range write of a stage: entries `0 .. len-1` are the new ones, all others as before. -/
theorem Cells.read_fill (m : Cells α) (f : Nat → α) (len j : Nat) :
    Cells.read (Cells.fill m f len) j = if j < len then some (f j) else Cells.read m j := by
  induction len with
  | zero => simp [Cells.fill]
  | succ n ih =>
    rw [Cells.fill, Cells.read_write, ih]
    by_cases h1 : j = n
    · simp [h1]
    · by_cases h2 : j < n
      · simp [h1, h2, Nat.lt_succ_of_lt h2]
      · have h3 : ¬ j < n + 1 := by omega
        simp [h1, h2, h3]

theorem Cells.wfFrom_mono (depth : Nat) {lo lo' : Nat} (m : Cells α) (h : lo' ≤ lo)
    (hm : Cells.wfFrom depth lo m = true) : Cells.wfFrom depth lo' m = true := by
  cases m with
  | nil => rfl
  | cons c rest =>
    obtain ⟨k, w⟩ := c
    simp only [Cells.wfFrom, Bool.and_eq_true, decide_eq_true_eq] at hm ⊢
    exact ⟨⟨by omega, hm.1.2⟩, hm.2⟩

theorem Cells.wfFrom_write (depth : Nat) (m : Cells α) (lo i : Nat) (v : α) (hlo : lo ≤ i)
    (hi : i < depth) (hm : Cells.wfFrom depth lo m = true) :
    Cells.wfFrom depth lo (Cells.write m i v) = true := by
  induction m generalizing lo with
  | nil => simp [Cells.write, Cells.wfFrom, hlo, hi]
  | cons c rest ih =>
    obtain ⟨k, w⟩ := c
    simp only [Cells.wfFrom, Bool.and_eq_true, decide_eq_true_eq] at hm
    obtain ⟨⟨h1, h2⟩, h3⟩ := hm
    by_cases ha : i < k
    · simp [Cells.write, Cells.wfFrom, ha, hlo, hi, h2, h3]
    · by_cases hb : i = k
      · subst hb
        simp [Cells.write, Cells.wfFrom, h1, hi, h3]
      · have := ih (k + 1) (by omega) h3
        simp [Cells.write, Cells.wfFrom, ha, hb, h1, h2, this]

/-- A write inside the depth keeps the canonical form. -/
theorem Cells.wf_write (depth : Nat) (m : Cells α) (i : Nat) (v : α) (hi : i < depth)
    (hm : Cells.wf depth m = true) : Cells.wf depth (Cells.write m i v) = true :=
  Cells.wfFrom_write depth m 0 i v (Nat.zero_le i) hi hm

/-- A range write inside the depth keeps the canonical form. -/
theorem Cells.wf_fill (depth : Nat) (m : Cells α) (f : Nat → α) (len : Nat) (hlen : len ≤ depth)
    (hm : Cells.wf depth m = true) : Cells.wf depth (Cells.fill m f len) = true := by
  induction len with
  | zero => exact hm
  | succ n ih => exact Cells.wf_write depth _ n _ (by omega) (ih (by omega))

@[simp] theorem Cells.wf_nil (depth : Nat) : Cells.wf depth ([] : Cells α) = true := rfl

/-- The conjuncts of `Memory.wf`. -/
theorem Memory.wf_iff (m : Memory) :
    Memory.wf m = true ↔
      Cells.wf Config.nMax m.iq = true ∧ Cells.wf Config.nMax m.cent = true ∧
        Cells.wf Config.nMax m.clk = true ∧ Cells.wf Config.nMax m.syn = true ∧
        Cells.wf Config.nMax m.bits = true ∧ Cells.wf Config.nMax m.prof = true ∧
        Cells.wf Config.payDepth m.pay = true := by
  simp only [Memory.wf, Bool.and_eq_true]
  tauto

/-- An entry that is listed is read as it is, whatever the counter of free values. -/
theorem entryOr_of_read {w : Nat} (m : Cells (BitVec w)) (free space i : Nat) {v : BitVec w}
    (h : Cells.read m i = some v) : entryOr m free space i = v := by
  simp [entryOr, h]

theorem entryOr_congr {w : Nat} (m : Cells (BitVec w)) (free free' space i : Nat)
    (h : (Cells.read m i).isSome = true) :
    entryOr m free space i = entryOr m free' space i := by
  obtain ⟨v, hv⟩ := Option.isSome_iff_exists.mp h
  rw [entryOr_of_read m free space i hv, entryOr_of_read m free' space i hv]

end Sys2Proof.Machine
end

