-- ==== Sys2Proof/Laws/State.lean ====
section
/-! SUPPORT. One lemma per field of State for every named update: what the field is after it. -/

namespace Sys2Proof.Machine

/-! ## `beginStage` -/

@[simp] theorem beginStage_seq (st : Stage) (s : State) : (beginStage st s).seq = st.toSeq := rfl
@[simp] theorem beginStage_busy (st : Stage) (s : State) : (beginStage st s).busy = s.busy := rfl
@[simp] theorem beginStage_done (st : Stage) (s : State) : (beginStage st s).done = s.done := rfl
@[simp] theorem beginStage_err (st : Stage) (s : State) : (beginStage st s).err = s.err := rfl
@[simp] theorem beginStage_lastop (st : Stage) (s : State) :
    (beginStage st s).lastop =
      s.lastop := rfl
@[simp] theorem beginStage_errStage (st : Stage) (s : State) :
    (beginStage st s).errStage =
      s.errStage := rfl
@[simp] theorem beginStage_errSub (st : Stage) (s : State) :
    (beginStage st s).errSub =
      s.errSub := rfl
@[simp] theorem beginStage_valid (st : Stage) (s : State) :
    (beginStage st s).valid =
      s.valid.clearFrom st := rfl
@[simp] theorem beginStage_cond (st : Stage) (s : State) :
    (beginStage st s).cond =
      s.cond.clearFrom st := rfl
@[simp] theorem beginStage_cfg (st : Stage) (s : State) : (beginStage st s).cfg = s.cfg := rfl
@[simp] theorem beginStage_syncw (st : Stage) (s : State) : (beginStage st s).syncw = s.syncw := rfl
@[simp] theorem beginStage_res (st : Stage) (s : State) :
    (beginStage st s).res =
      s.res.clearOf st := rfl
@[simp] theorem beginStage_mem (st : Stage) (s : State) : (beginStage st s).mem = s.mem := rfl
@[simp] theorem beginStage_pend (st : Stage) (s : State) : (beginStage st s).pend = s.pend := rfl
@[simp] theorem beginStage_work (st : Stage) (s : State) : (beginStage st s).work = s.work := rfl
@[simp] theorem beginStage_port (st : Stage) (s : State) : (beginStage st s).port = s.port := rfl
@[simp] theorem beginStage_resp (st : Stage) (s : State) : (beginStage st s).resp = s.resp := rfl
@[simp] theorem beginStage_free (st : Stage) (s : State) : (beginStage st s).free = s.free := rfl

/-! ## `invalidateFrom` -/

@[simp] theorem invalidateFrom_seq (st : Stage) (s : State) :
    (invalidateFrom st s).seq =
      s.seq := rfl
@[simp] theorem invalidateFrom_busy (st : Stage) (s : State) :
    (invalidateFrom st s).busy =
      s.busy := rfl
@[simp] theorem invalidateFrom_done (st : Stage) (s : State) :
    (invalidateFrom st s).done =
      s.done := rfl
@[simp] theorem invalidateFrom_err (st : Stage) (s : State) :
    (invalidateFrom st s).err =
      s.err := rfl
@[simp] theorem invalidateFrom_lastop (st : Stage) (s : State) :
    (invalidateFrom st s).lastop =
      s.lastop := rfl
@[simp] theorem invalidateFrom_errStage (st : Stage) (s : State) :
    (invalidateFrom st s).errStage =
      s.errStage := rfl
@[simp] theorem invalidateFrom_errSub (st : Stage) (s : State) :
    (invalidateFrom st s).errSub =
      s.errSub := rfl
@[simp] theorem invalidateFrom_valid (st : Stage) (s : State) :
    (invalidateFrom st s).valid =
      s.valid.clearFrom st := rfl
@[simp] theorem invalidateFrom_cond (st : Stage) (s : State) :
    (invalidateFrom st s).cond =
      s.cond.clearFrom st := rfl
@[simp] theorem invalidateFrom_cfg (st : Stage) (s : State) :
    (invalidateFrom st s).cfg =
      s.cfg := rfl
@[simp] theorem invalidateFrom_syncw (st : Stage) (s : State) :
    (invalidateFrom st s).syncw =
      s.syncw := rfl
@[simp] theorem invalidateFrom_res (st : Stage) (s : State) :
    (invalidateFrom st s).res =
      s.res := rfl
@[simp] theorem invalidateFrom_mem (st : Stage) (s : State) :
    (invalidateFrom st s).mem =
      s.mem := rfl
@[simp] theorem invalidateFrom_pend (st : Stage) (s : State) :
    (invalidateFrom st s).pend =
      s.pend := rfl
@[simp] theorem invalidateFrom_work (st : Stage) (s : State) :
    (invalidateFrom st s).work =
      s.work := rfl
@[simp] theorem invalidateFrom_port (st : Stage) (s : State) :
    (invalidateFrom st s).port =
      s.port := rfl
@[simp] theorem invalidateFrom_resp (st : Stage) (s : State) :
    (invalidateFrom st s).resp =
      s.resp := rfl
@[simp] theorem invalidateFrom_free (st : Stage) (s : State) :
    (invalidateFrom st s).free =
      s.free := rfl

/-! ## `writeCfg` -/

@[simp] theorem writeCfg_seq (s : State) (st : Stage) (c : Cfg) :
    (writeCfg s st c).seq =
      s.seq := rfl
@[simp] theorem writeCfg_busy (s : State) (st : Stage) (c : Cfg) :
    (writeCfg s st c).busy =
      s.busy := rfl
@[simp] theorem writeCfg_done (s : State) (st : Stage) (c : Cfg) :
    (writeCfg s st c).done =
      s.done := rfl
@[simp] theorem writeCfg_err (s : State) (st : Stage) (c : Cfg) :
    (writeCfg s st c).err =
      s.err := rfl
@[simp] theorem writeCfg_lastop (s : State) (st : Stage) (c : Cfg) :
    (writeCfg s st c).lastop =
      s.lastop := rfl
@[simp] theorem writeCfg_errStage (s : State) (st : Stage) (c : Cfg) :
    (writeCfg s st c).errStage =
      s.errStage := rfl
@[simp] theorem writeCfg_errSub (s : State) (st : Stage) (c : Cfg) :
    (writeCfg s st c).errSub =
      s.errSub := rfl
@[simp] theorem writeCfg_valid (s : State) (st : Stage) (c : Cfg) :
    (writeCfg s st c).valid =
      s.valid.clearFrom st := rfl
@[simp] theorem writeCfg_cond (s : State) (st : Stage) (c : Cfg) :
    (writeCfg s st c).cond =
      s.cond.clearFrom st := rfl
@[simp] theorem writeCfg_cfg (s : State) (st : Stage) (c : Cfg) : (writeCfg s st c).cfg = c := rfl
@[simp] theorem writeCfg_syncw (s : State) (st : Stage) (c : Cfg) :
    (writeCfg s st c).syncw =
      s.syncw := rfl
@[simp] theorem writeCfg_res (s : State) (st : Stage) (c : Cfg) :
    (writeCfg s st c).res =
      s.res := rfl
@[simp] theorem writeCfg_mem (s : State) (st : Stage) (c : Cfg) :
    (writeCfg s st c).mem =
      s.mem := rfl
@[simp] theorem writeCfg_pend (s : State) (st : Stage) (c : Cfg) :
    (writeCfg s st c).pend =
      s.pend := rfl
@[simp] theorem writeCfg_work (s : State) (st : Stage) (c : Cfg) :
    (writeCfg s st c).work =
      s.work := rfl
@[simp] theorem writeCfg_port (s : State) (st : Stage) (c : Cfg) :
    (writeCfg s st c).port =
      s.port := rfl
@[simp] theorem writeCfg_resp (s : State) (st : Stage) (c : Cfg) :
    (writeCfg s st c).resp =
      s.resp := rfl
@[simp] theorem writeCfg_free (s : State) (st : Stage) (c : Cfg) :
    (writeCfg s st c).free =
      s.free := rfl

/-! ## `clearResults` -/

@[simp] theorem clearResults_seq (s : State) : (clearResults s).seq = s.seq := rfl
@[simp] theorem clearResults_busy (s : State) : (clearResults s).busy = s.busy := rfl
@[simp] theorem clearResults_done (s : State) : (clearResults s).done = s.done := rfl
@[simp] theorem clearResults_err (s : State) : (clearResults s).err = s.err := rfl
@[simp] theorem clearResults_lastop (s : State) : (clearResults s).lastop = s.lastop := rfl
@[simp] theorem clearResults_errStage (s : State) : (clearResults s).errStage = s.errStage := rfl
@[simp] theorem clearResults_errSub (s : State) : (clearResults s).errSub = s.errSub := rfl
@[simp] theorem clearResults_valid (s : State) :
    (clearResults s).valid =
      s.valid.clearFrom .env := rfl
@[simp] theorem clearResults_cond (s : State) : (clearResults s).cond = s.cond.clearFrom .env := rfl
@[simp] theorem clearResults_cfg (s : State) : (clearResults s).cfg = s.cfg := rfl
@[simp] theorem clearResults_syncw (s : State) : (clearResults s).syncw = s.syncw := rfl
@[simp] theorem clearResults_res (s : State) :
    (clearResults s).res =
      { envmax := 0#64, envsum := 0#64, envden := 0#64, nbits := 0#17, eps := 0#64, syncidx := 0#17, paystart := 0#18 } := rfl
@[simp] theorem clearResults_mem (s : State) : (clearResults s).mem = s.mem := rfl
@[simp] theorem clearResults_pend (s : State) : (clearResults s).pend = s.pend := rfl
@[simp] theorem clearResults_work (s : State) : (clearResults s).work = s.work := rfl
@[simp] theorem clearResults_port (s : State) : (clearResults s).port = s.port := rfl
@[simp] theorem clearResults_resp (s : State) : (clearResults s).resp = s.resp := rfl
@[simp] theorem clearResults_free (s : State) : (clearResults s).free = s.free := rfl

/-! ## `complete` -/

@[simp] theorem complete_seq (s : State) (r : Record) : (complete s r).seq = .idle := rfl
@[simp] theorem complete_busy (s : State) (r : Record) : (complete s r).busy = false := rfl
@[simp] theorem complete_done (s : State) (r : Record) : (complete s r).done = true := rfl
@[simp] theorem complete_err (s : State) (r : Record) : (complete s r).err = r.code := rfl
@[simp] theorem complete_lastop (s : State) (r : Record) :
    (complete s r).lastop =
      opField s.pend := rfl
@[simp] theorem complete_errStage (s : State) (r : Record) :
    (complete s r).errStage =
      r.stage := rfl
@[simp] theorem complete_errSub (s : State) (r : Record) : (complete s r).errSub = r.sub := rfl
@[simp] theorem complete_valid (s : State) (r : Record) : (complete s r).valid = s.valid := rfl
@[simp] theorem complete_cond (s : State) (r : Record) : (complete s r).cond = s.cond := rfl
@[simp] theorem complete_cfg (s : State) (r : Record) : (complete s r).cfg = s.cfg := rfl
@[simp] theorem complete_syncw (s : State) (r : Record) : (complete s r).syncw = s.syncw := rfl
@[simp] theorem complete_res (s : State) (r : Record) : (complete s r).res = s.res := rfl
@[simp] theorem complete_mem (s : State) (r : Record) : (complete s r).mem = s.mem := rfl
@[simp] theorem complete_pend (s : State) (r : Record) : (complete s r).pend = s.pend := rfl
@[simp] theorem complete_work (s : State) (r : Record) : (complete s r).work = s.work := rfl
@[simp] theorem complete_port (s : State) (r : Record) : (complete s r).port = s.port := rfl
@[simp] theorem complete_resp (s : State) (r : Record) : (complete s r).resp = s.resp := rfl
@[simp] theorem complete_free (s : State) (r : Record) : (complete s r).free = s.free := rfl

/-! ## `discardWork` -/

@[simp] theorem discardWork_seq (s : State) : (discardWork s).seq = s.seq := rfl
@[simp] theorem discardWork_busy (s : State) : (discardWork s).busy = s.busy := rfl
@[simp] theorem discardWork_done (s : State) : (discardWork s).done = s.done := rfl
@[simp] theorem discardWork_err (s : State) : (discardWork s).err = s.err := rfl
@[simp] theorem discardWork_lastop (s : State) : (discardWork s).lastop = s.lastop := rfl
@[simp] theorem discardWork_errStage (s : State) : (discardWork s).errStage = s.errStage := rfl
@[simp] theorem discardWork_errSub (s : State) : (discardWork s).errSub = s.errSub := rfl
@[simp] theorem discardWork_valid (s : State) : (discardWork s).valid = s.valid := rfl
@[simp] theorem discardWork_cond (s : State) : (discardWork s).cond = s.cond := rfl
@[simp] theorem discardWork_cfg (s : State) : (discardWork s).cfg = s.cfg := rfl
@[simp] theorem discardWork_syncw (s : State) : (discardWork s).syncw = s.syncw := rfl
@[simp] theorem discardWork_res (s : State) : (discardWork s).res = s.res := rfl
@[simp] theorem discardWork_mem (s : State) : (discardWork s).mem = s.mem := rfl
@[simp] theorem discardWork_pend (s : State) : (discardWork s).pend = s.pend := rfl
@[simp] theorem discardWork_work (s : State) : (discardWork s).work = unspecifiedWork s.free := rfl
@[simp] theorem discardWork_port (s : State) : (discardWork s).port = s.port := rfl
@[simp] theorem discardWork_resp (s : State) : (discardWork s).resp = s.resp := rfl
@[simp] theorem discardWork_free (s : State) : (discardWork s).free = s.free + 1 := rfl

/-! ## `envDone` -/

@[simp] theorem envDone_seq (s : State) : (envDone s).seq = .sEnv := rfl
@[simp] theorem envDone_busy (s : State) : (envDone s).busy = s.busy := rfl
@[simp] theorem envDone_done (s : State) : (envDone s).done = s.done := rfl
@[simp] theorem envDone_err (s : State) : (envDone s).err = s.err := rfl
@[simp] theorem envDone_lastop (s : State) : (envDone s).lastop = s.lastop := rfl
@[simp] theorem envDone_errStage (s : State) : (envDone s).errStage = s.errStage := rfl
@[simp] theorem envDone_errSub (s : State) : (envDone s).errSub = s.errSub := rfl
@[simp] theorem envDone_valid (s : State) :
    (envDone s).valid =
      { s.valid.clearFrom .env with env := true } := rfl
@[simp] theorem envDone_cond (s : State) :
    (envDone s).cond =
      { envZero := (envelopeOf (sampleCount s.cfg) (captureSum s)).zero, wTrec := false, wFsync := false } := rfl
@[simp] theorem envDone_cfg (s : State) : (envDone s).cfg = s.cfg := rfl
@[simp] theorem envDone_syncw (s : State) : (envDone s).syncw = s.syncw := rfl
@[simp] theorem envDone_res (s : State) :
    (envDone s).res =
      { s.res with
        envmax := BitVec.ofNat 64 (envelopeOf (sampleCount s.cfg) (captureSum s)).smax
        envsum := BitVec.ofNat 64 (envelopeOf (sampleCount s.cfg) (captureSum s)).total
        envden := BitVec.ofNat 64 (envelopeOf (sampleCount s.cfg) (captureSum s)).den } := rfl
@[simp] theorem envDone_mem (s : State) :
    (envDone s).mem =
      { s.mem with
        cent := Cells.fill s.mem.cent (fun n => BitVec.ofInt 64 (centered (sampleCount s.cfg)
          (envelopeOf (sampleCount s.cfg) (captureSum s)) (captureSum s) n)) (sampleCount s.cfg) } := rfl
@[simp] theorem envDone_pend (s : State) : (envDone s).pend = s.pend := rfl
@[simp] theorem envDone_work (s : State) : (envDone s).work = unspecifiedWork s.free := rfl
@[simp] theorem envDone_port (s : State) : (envDone s).port = s.port := rfl
@[simp] theorem envDone_resp (s : State) : (envDone s).resp = s.resp := rfl
@[simp] theorem envDone_free (s : State) : (envDone s).free = s.free + 1 := rfl

/-! ## `trecDone` -/

@[simp] theorem trecDone_seq (s : State) (l : TimingLoop) : (trecDone s l).seq = .sTrec := rfl
@[simp] theorem trecDone_busy (s : State) (l : TimingLoop) : (trecDone s l).busy = s.busy := rfl
@[simp] theorem trecDone_done (s : State) (l : TimingLoop) : (trecDone s l).done = s.done := rfl
@[simp] theorem trecDone_err (s : State) (l : TimingLoop) : (trecDone s l).err = s.err := rfl
@[simp] theorem trecDone_lastop (s : State) (l : TimingLoop) :
    (trecDone s l).lastop =
      s.lastop := rfl
@[simp] theorem trecDone_errStage (s : State) (l : TimingLoop) :
    (trecDone s l).errStage =
      s.errStage := rfl
@[simp] theorem trecDone_errSub (s : State) (l : TimingLoop) :
    (trecDone s l).errSub =
      s.errSub := rfl
@[simp] theorem trecDone_valid (s : State) (l : TimingLoop) :
    (trecDone s l).valid =
      { s.valid.clearFrom .trec with tr := true } := rfl
@[simp] theorem trecDone_cond (s : State) (l : TimingLoop) :
    (trecDone s l).cond =
      { s.cond.clearFrom .trec with wTrec := l.warn } := rfl
@[simp] theorem trecDone_cfg (s : State) (l : TimingLoop) : (trecDone s l).cfg = s.cfg := rfl
@[simp] theorem trecDone_syncw (s : State) (l : TimingLoop) : (trecDone s l).syncw = s.syncw := rfl
@[simp] theorem trecDone_res (s : State) (l : TimingLoop) :
    (trecDone s l).res =
      { s.res with nbits := BitVec.ofNat 17 l.index, eps := BitVec.ofInt 64 l.epsilon } := rfl
@[simp] theorem trecDone_mem (s : State) (l : TimingLoop) :
    (trecDone s l).mem =
      { s.mem with clk := l.clk, syn := l.syn } := rfl
@[simp] theorem trecDone_pend (s : State) (l : TimingLoop) : (trecDone s l).pend = s.pend := rfl
@[simp] theorem trecDone_work (s : State) (l : TimingLoop) :
    (trecDone s l).work =
      unspecifiedWork s.free := rfl
@[simp] theorem trecDone_port (s : State) (l : TimingLoop) : (trecDone s l).port = s.port := rfl
@[simp] theorem trecDone_resp (s : State) (l : TimingLoop) : (trecDone s l).resp = s.resp := rfl
@[simp] theorem trecDone_free (s : State) (l : TimingLoop) : (trecDone s l).free = s.free + 1 := rfl

/-! ## `bdecDone` -/

@[simp] theorem bdecDone_seq (s : State) : (bdecDone s).seq = .sBdec := rfl
@[simp] theorem bdecDone_busy (s : State) : (bdecDone s).busy = s.busy := rfl
@[simp] theorem bdecDone_done (s : State) : (bdecDone s).done = s.done := rfl
@[simp] theorem bdecDone_err (s : State) : (bdecDone s).err = s.err := rfl
@[simp] theorem bdecDone_lastop (s : State) : (bdecDone s).lastop = s.lastop := rfl
@[simp] theorem bdecDone_errStage (s : State) : (bdecDone s).errStage = s.errStage := rfl
@[simp] theorem bdecDone_errSub (s : State) : (bdecDone s).errSub = s.errSub := rfl
@[simp] theorem bdecDone_valid (s : State) :
    (bdecDone s).valid =
      { s.valid.clearFrom .bdec with bd := true } := rfl
@[simp] theorem bdecDone_cond (s : State) : (bdecDone s).cond = s.cond.clearFrom .bdec := rfl
@[simp] theorem bdecDone_cfg (s : State) : (bdecDone s).cfg = s.cfg := rfl
@[simp] theorem bdecDone_syncw (s : State) : (bdecDone s).syncw = s.syncw := rfl
@[simp] theorem bdecDone_res (s : State) : (bdecDone s).res = s.res := rfl
@[simp] theorem bdecDone_mem (s : State) :
    (bdecDone s).mem =
      { s.mem with bits := Cells.fill s.mem.bits (fun k => decideBit (synAt s k)) (bitCount s) } := rfl
@[simp] theorem bdecDone_pend (s : State) : (bdecDone s).pend = s.pend := rfl
@[simp] theorem bdecDone_work (s : State) : (bdecDone s).work = unspecifiedWork s.free := rfl
@[simp] theorem bdecDone_port (s : State) : (bdecDone s).port = s.port := rfl
@[simp] theorem bdecDone_resp (s : State) : (bdecDone s).resp = s.resp := rfl
@[simp] theorem bdecDone_free (s : State) : (bdecDone s).free = s.free + 1 := rfl

/-! ## `profiled` -/

@[simp] theorem profiled_seq (s : State) : (profiled s).seq = .sFsync := rfl
@[simp] theorem profiled_busy (s : State) : (profiled s).busy = s.busy := rfl
@[simp] theorem profiled_done (s : State) : (profiled s).done = s.done := rfl
@[simp] theorem profiled_err (s : State) : (profiled s).err = s.err := rfl
@[simp] theorem profiled_lastop (s : State) : (profiled s).lastop = s.lastop := rfl
@[simp] theorem profiled_errStage (s : State) : (profiled s).errStage = s.errStage := rfl
@[simp] theorem profiled_errSub (s : State) : (profiled s).errSub = s.errSub := rfl
@[simp] theorem profiled_valid (s : State) :
    (profiled s).valid =
      { s.valid.clearFrom .fsync with prof := true } := rfl
@[simp] theorem profiled_cond (s : State) :
    (profiled s).cond =
      { s.cond.clearFrom .fsync with wFsync := corrWarn (bitCount s) (patLen s.cfg) } := rfl
@[simp] theorem profiled_cfg (s : State) : (profiled s).cfg = s.cfg := rfl
@[simp] theorem profiled_syncw (s : State) : (profiled s).syncw = s.syncw := rfl
@[simp] theorem profiled_res (s : State) : (profiled s).res = s.res.clearOf .fsync := rfl
@[simp] theorem profiled_mem (s : State) :
    (profiled s).mem =
      { s.mem with
        prof := Cells.fill s.mem.prof (fun i => BitVec.ofNat 12
          (score (bitAt s) (bitCount s) (patBit s.cfg s.syncw) (patLen s.cfg) i)) (bitCount s) } := rfl
@[simp] theorem profiled_pend (s : State) : (profiled s).pend = s.pend := rfl
@[simp] theorem profiled_work (s : State) : (profiled s).work = s.work := rfl
@[simp] theorem profiled_port (s : State) : (profiled s).port = s.port := rfl
@[simp] theorem profiled_resp (s : State) : (profiled s).resp = s.resp := rfl
@[simp] theorem profiled_free (s : State) : (profiled s).free = s.free := rfl

/-! ## `fsyncDone` -/

@[simp] theorem fsyncDone_seq (s : State) (st : Scan) : (fsyncDone s st).seq = .sFsync := rfl
@[simp] theorem fsyncDone_busy (s : State) (st : Scan) : (fsyncDone s st).busy = s.busy := rfl
@[simp] theorem fsyncDone_done (s : State) (st : Scan) : (fsyncDone s st).done = s.done := rfl
@[simp] theorem fsyncDone_err (s : State) (st : Scan) : (fsyncDone s st).err = s.err := rfl
@[simp] theorem fsyncDone_lastop (s : State) (st : Scan) : (fsyncDone s st).lastop = s.lastop := rfl
@[simp] theorem fsyncDone_errStage (s : State) (st : Scan) :
    (fsyncDone s st).errStage =
      s.errStage := rfl
@[simp] theorem fsyncDone_errSub (s : State) (st : Scan) : (fsyncDone s st).errSub = s.errSub := rfl
@[simp] theorem fsyncDone_valid (s : State) (st : Scan) :
    (fsyncDone s st).valid =
      { s.valid.clearFrom .fsync with prof := true, fs := true } := rfl
@[simp] theorem fsyncDone_cond (s : State) (st : Scan) :
    (fsyncDone s st).cond =
      (profiled s).cond := rfl
@[simp] theorem fsyncDone_cfg (s : State) (st : Scan) : (fsyncDone s st).cfg = s.cfg := rfl
@[simp] theorem fsyncDone_syncw (s : State) (st : Scan) : (fsyncDone s st).syncw = s.syncw := rfl
@[simp] theorem fsyncDone_res (s : State) (st : Scan) :
    (fsyncDone s st).res =
      { s.res with
        syncidx := BitVec.ofNat 17 st.syncIndex
        paystart := BitVec.ofNat 18 st.payloadStart } := rfl
@[simp] theorem fsyncDone_mem (s : State) (st : Scan) :
    (fsyncDone s st).mem =
      (profiled s).mem := rfl
@[simp] theorem fsyncDone_pend (s : State) (st : Scan) : (fsyncDone s st).pend = s.pend := rfl
@[simp] theorem fsyncDone_work (s : State) (st : Scan) :
    (fsyncDone s st).work =
      unspecifiedWork s.free := rfl
@[simp] theorem fsyncDone_port (s : State) (st : Scan) : (fsyncDone s st).port = s.port := rfl
@[simp] theorem fsyncDone_resp (s : State) (st : Scan) : (fsyncDone s st).resp = s.resp := rfl
@[simp] theorem fsyncDone_free (s : State) (st : Scan) : (fsyncDone s st).free = s.free + 1 := rfl

/-! ## `pextDone` -/

@[simp] theorem pextDone_seq (s : State) : (pextDone s).seq = .sPext := rfl
@[simp] theorem pextDone_busy (s : State) : (pextDone s).busy = s.busy := rfl
@[simp] theorem pextDone_done (s : State) : (pextDone s).done = s.done := rfl
@[simp] theorem pextDone_err (s : State) : (pextDone s).err = s.err := rfl
@[simp] theorem pextDone_lastop (s : State) : (pextDone s).lastop = s.lastop := rfl
@[simp] theorem pextDone_errStage (s : State) : (pextDone s).errStage = s.errStage := rfl
@[simp] theorem pextDone_errSub (s : State) : (pextDone s).errSub = s.errSub := rfl
@[simp] theorem pextDone_valid (s : State) : (pextDone s).valid = { s.valid with pe := true } := rfl
@[simp] theorem pextDone_cond (s : State) : (pextDone s).cond = s.cond := rfl
@[simp] theorem pextDone_cfg (s : State) : (pextDone s).cfg = s.cfg := rfl
@[simp] theorem pextDone_syncw (s : State) : (pextDone s).syncw = s.syncw := rfl
@[simp] theorem pextDone_res (s : State) : (pextDone s).res = s.res := rfl
@[simp] theorem pextDone_mem (s : State) :
    (pextDone s).mem =
      { s.mem with
        pay := Cells.fill s.mem.pay
          (fun b => packByte (bitAt s) (s.res.paystart.toNat + 8 * b)) s.cfg.paysz.toNat } := rfl
@[simp] theorem pextDone_pend (s : State) : (pextDone s).pend = s.pend := rfl
@[simp] theorem pextDone_work (s : State) : (pextDone s).work = unspecifiedWork s.free := rfl
@[simp] theorem pextDone_port (s : State) : (pextDone s).port = s.port := rfl
@[simp] theorem pextDone_resp (s : State) : (pextDone s).resp = s.resp := rfl
@[simp] theorem pextDone_free (s : State) : (pextDone s).free = s.free + 1 := rfl

/-! ## `hostRead` -/

@[simp] theorem hostRead_seq (s : State) (a : HostAddr) : (hostRead s a).seq = s.seq := rfl
@[simp] theorem hostRead_busy (s : State) (a : HostAddr) : (hostRead s a).busy = s.busy := rfl
@[simp] theorem hostRead_done (s : State) (a : HostAddr) : (hostRead s a).done = s.done := rfl
@[simp] theorem hostRead_err (s : State) (a : HostAddr) : (hostRead s a).err = s.err := rfl
@[simp] theorem hostRead_lastop (s : State) (a : HostAddr) : (hostRead s a).lastop = s.lastop := rfl
@[simp] theorem hostRead_errStage (s : State) (a : HostAddr) :
    (hostRead s a).errStage =
      s.errStage := rfl
@[simp] theorem hostRead_errSub (s : State) (a : HostAddr) : (hostRead s a).errSub = s.errSub := rfl
@[simp] theorem hostRead_valid (s : State) (a : HostAddr) : (hostRead s a).valid = s.valid := rfl
@[simp] theorem hostRead_cond (s : State) (a : HostAddr) : (hostRead s a).cond = s.cond := rfl
@[simp] theorem hostRead_cfg (s : State) (a : HostAddr) : (hostRead s a).cfg = s.cfg := rfl
@[simp] theorem hostRead_syncw (s : State) (a : HostAddr) : (hostRead s a).syncw = s.syncw := rfl
@[simp] theorem hostRead_res (s : State) (a : HostAddr) : (hostRead s a).res = s.res := rfl
@[simp] theorem hostRead_mem (s : State) (a : HostAddr) : (hostRead s a).mem = s.mem := rfl
@[simp] theorem hostRead_pend (s : State) (a : HostAddr) : (hostRead s a).pend = s.pend := rfl
@[simp] theorem hostRead_work (s : State) (a : HostAddr) : (hostRead s a).work = s.work := rfl
@[simp] theorem hostRead_port (s : State) (a : HostAddr) : (hostRead s a).port = s.port := rfl
@[simp] theorem hostRead_resp (s : State) (a : HostAddr) :
    (hostRead s a).resp =
      some (readResponse s a) := rfl
@[simp] theorem hostRead_free (s : State) (a : HostAddr) : (hostRead s a).free = s.free + 1 := rfl

/-! ## The reset input -/

@[simp] theorem resetEvent_seq (s : State) : (resetEvent s).seq = State.reset.seq := rfl
@[simp] theorem resetEvent_busy (s : State) : (resetEvent s).busy = State.reset.busy := rfl
@[simp] theorem resetEvent_done (s : State) : (resetEvent s).done = State.reset.done := rfl
@[simp] theorem resetEvent_err (s : State) : (resetEvent s).err = State.reset.err := rfl
@[simp] theorem resetEvent_lastop (s : State) : (resetEvent s).lastop = State.reset.lastop := rfl
@[simp] theorem resetEvent_errStage (s : State) : (resetEvent s).errStage = State.reset.errStage := rfl
@[simp] theorem resetEvent_errSub (s : State) : (resetEvent s).errSub = State.reset.errSub := rfl
@[simp] theorem resetEvent_valid (s : State) : (resetEvent s).valid = State.reset.valid := rfl
@[simp] theorem resetEvent_cond (s : State) : (resetEvent s).cond = State.reset.cond := rfl
@[simp] theorem resetEvent_cfg (s : State) : (resetEvent s).cfg = State.reset.cfg := rfl
@[simp] theorem resetEvent_syncw (s : State) : (resetEvent s).syncw = State.reset.syncw := rfl
@[simp] theorem resetEvent_res (s : State) : (resetEvent s).res = State.reset.res := rfl
@[simp] theorem resetEvent_mem (s : State) : (resetEvent s).mem = State.reset.mem := rfl
@[simp] theorem resetEvent_pend (s : State) : (resetEvent s).pend = State.reset.pend := rfl
@[simp] theorem resetEvent_work (s : State) : (resetEvent s).work = State.reset.work := rfl
@[simp] theorem resetEvent_port (s : State) : (resetEvent s).port = s.port := rfl
@[simp] theorem resetEvent_resp (s : State) : (resetEvent s).resp = s.resp := rfl
@[simp] theorem resetEvent_free (s : State) : (resetEvent s).free = s.free + 1 := rfl

end Sys2Proof.Machine
end

