-- ==== Sys2Proof/Laws/Ends.lean ====
section
/-! SUPPORT. What a command, and one step, can do: one inversion lemma for each shared operation. -/

namespace Sys2Proof.Machine

/-- A legal configuration (R254): none of the six conditions holds. -/
theorem configCheck_eq_none_iff (c : Cfg) :
    configCheck c = none ↔
      c.br.toNat ≠ 0 ∧ c.br.toNat ≤ c.fs.toNat ∧ c.paysz.toNat ≠ 0 ∧
        c.swlen.toNat ≤ Config.swMax ∧ c.nsamp.toNat ≤ Config.nMax ∧ c.policy ≠ 3#2 := by
  unfold configCheck
  split_ifs with h1 h2 h3 h4 h5 h6 <;> simp_all

/-- The sub-causes of R254 are 1 to 6. -/
theorem configCheck_sub {c : Cfg} {sub : BitVec 4} (h : configCheck c = some sub) :
    1 ≤ sub.toNat ∧ sub.toNat ≤ 6 := by
  unfold configCheck at h
  split_ifs at h <;> (cases h; decide)

/-- In a legal configuration there is at least one sample per bit and the capture fits (R7, R254). -/
theorem sps_pos_of_legal {c : Cfg} (h : configCheck c = none) :
    1 ≤ sps c ∧ sampleCount c ≤ Config.nMax := by
  obtain ⟨h1, h2, -, -, h5, -⟩ := (configCheck_eq_none_iff c).mp h
  refine ⟨?_, h5⟩
  rw [sps, if_neg h1]
  exact (Nat.one_le_div_iff (Nat.pos_of_ne_zero h1)).mpr h2

theorem prologue_eq_none_iff (st : Stage) (s : State) :
    prologue st s = none ↔ configCheck s.cfg = none ∧ prerequisite st s.valid = true := by
  unfold prologue
  cases configCheck s.cfg <;> simp

/-- Every way the prologue refuses (R227, R254, R256). -/
theorem prologue_cases {st : Stage} {s : State} {r : Record} (h : prologue st s = some r) :
    (∃ sub, configCheck s.cfg = some sub ∧ r = { code := .config, stage := .none, sub := sub }) ∨
      (configCheck s.cfg = none ∧ prerequisite st s.valid = false ∧
        r = { code := .seq, stage := .none, sub := st.seqSub }) := by
  unfold prologue at h
  cases hc : configCheck s.cfg with
  | some sub => rw [hc] at h; exact .inl ⟨sub, rfl, (Option.some.inj h).symm⟩
  | none =>
    rw [hc] at h
    cases hp : prerequisite st s.valid with
    | true => simp [hp] at h
    | false => simp [hp] at h; exact .inr ⟨rfl, rfl, h.symm⟩

/-- Every way the end of a body answers a next state. -/
theorem finish_cases {e : StageEnd} {t : State} (h : e.finish = .next t) :
    (∃ u, e = .ok u ∧ t = complete u okRecord) ∨ ∃ u r, e = .raised u r ∧ t = complete u r := by
  cases e with
  | ok u => exact .inl ⟨u, rfl, (Host.Outcome.next.inj h).symm⟩
  | raised u r => exact .inr ⟨u, r, rfl, (Host.Outcome.next.inj h).symm⟩
  | overrun => cases h

/-- Every way a command with a prologue answers a next state: refused before any stage (R259), ended normally,
or ended by a `raise` of its body (R252). -/
theorem command_cases {st : Stage} {body : State → StageEnd} {s t : State}
    (h : command st body s = .next t) :
    (∃ r, prologue st s = some r ∧ t = complete s r) ∨
      (prologue st s = none ∧
        ((∃ u, body s = .ok u ∧ t = complete u okRecord) ∨
          ∃ u r, body s = .raised u r ∧ t = complete u r)) := by
  unfold command at h
  cases hp : prologue st s with
  | some r => rw [hp] at h; exact .inl ⟨r, rfl, (Host.Outcome.next.inj h).symm⟩
  | none => rw [hp] at h; exact .inr ⟨rfl, finish_cases h⟩

theorem command_of_refused {st : Stage} {s : State} {r : Record} (body : State → StageEnd)
    (h : prologue st s = some r) : command st body s = .next (complete s r) := by
  simp [command, h]

theorem command_of_accepted {st : Stage} {s : State} (body : State → StageEnd)
    (h : prologue st s = none) : command st body s = (body s).finish := by
  simp [command, h]

/-- Every way TREC's body ends (R141, R150). -/
theorem trecBody_cases (s : State) :
    (timingOf s = none ∧ trecBody s = .overrun) ∨
      (∃ l, timingOf s = some l ∧ l.index = 0 ∧
        trecBody s = .raised (discardWork (beginStage .trec s))
          { code := .insuff, stage := .trec, sub := 1#4 }) ∨
      ∃ l, timingOf s = some l ∧ l.index ≠ 0 ∧ trecBody s = .ok (trecDone s l) := by
  unfold trecBody
  cases h : timingOf s with
  | none => exact .inl ⟨rfl, rfl⟩
  | some l =>
    by_cases h0 : l.index = 0
    · exact .inr (.inl ⟨l, rfl, h0, by simp [h0]⟩)
    · exact .inr (.inr ⟨l, rfl, h0, by simp [h0]⟩)

/-- Every way FSYNC's body ends (R181, R191). -/
theorem fsyncBody_cases (s : State) :
    ((scanOf (profiled s)).found = true ∧ fsyncBody s = .ok (fsyncDone s (scanOf (profiled s)))) ∨
      ((scanOf (profiled s)).found = false ∧
        fsyncBody s = .raised (discardWork (profiled s))
          { code := .nosync, stage := .fsync, sub := 0#4 }) := by
  unfold fsyncBody
  cases h : (scanOf (profiled s)).found
  · exact .inr ⟨rfl, by simp [h]⟩
  · exact .inl ⟨rfl, by simp [h]⟩

/-- Every way PEXT's body ends (R211, R212). -/
theorem pextBody_cases (s : State) :
    (s.res.paystart.toNat + 8 * s.cfg.paysz.toNat ≤ bitCount s ∧ pextBody s = .ok (pextDone s)) ∨
      (bitCount s < s.res.paystart.toNat + 8 * s.cfg.paysz.toNat ∧
        pextBody s = .raised (discardWork (beginStage .pext s))
          { code := .insuff, stage := .pext, sub := 2#4 }) := by
  unfold pextBody payloadTooLong
  by_cases h : bitCount s < s.res.paystart.toNat + 8 * s.cfg.paysz.toNat
  · exact .inr ⟨h, by simp [h]⟩
  · exact .inl ⟨by omega, by simp [h]⟩

/-- Every way one step answers: the core's turn, or a host event (R73), or a host decision (R108). -/
theorem step_cases (s : State) :
    (s.port = [] ∧ step s = coreStep s) ∨
      (∃ rest, s.port = .core :: rest ∧ step s = coreStep { s with port := rest }) ∨
      (∃ a rest, s.port = .read a :: rest ∧
        step s = .next (hostRead { s with port := rest } a)) ∨
      (∃ a v rest, s.port = .write a v :: rest ∧
        step s = .next (hostWrite { s with port := rest } a v)) ∨
      (∃ rest, s.port = .reset :: rest ∧ step s = .next (resetEvent { s with port := rest })) ∨
      ∃ rest, s.port = .demodReads :: rest ∧
        step s = .next { s with port := demodDecision s ++ rest } := by
  unfold step
  rcases h : s.port with _ | ⟨e, rest⟩
  · exact .inl ⟨rfl, rfl⟩
  · cases e with
    | core => exact .inr (.inl ⟨rest, rfl, rfl⟩)
    | read a => exact .inr (.inr (.inl ⟨a, rest, rfl, rfl⟩))
    | write a v => exact .inr (.inr (.inr (.inl ⟨a, v, rest, rfl, rfl⟩)))
    | reset => exact .inr (.inr (.inr (.inr (.inl ⟨rest, rfl, rfl⟩))))
    | demodReads => exact .inr (.inr (.inr (.inr (.inr ⟨rest, rfl, rfl⟩))))

/-- Every way the core's turn answers (R226, R253, R293). -/
theorem coreStep_cases (s : State) :
    (s.busy = false ∧ coreStep s = .next s) ∨
      (s.busy = true ∧ decode s.pend = .illegal ∧
        coreStep s = .next (complete s { code := .illcmd, stage := .none, sub := 0#4 })) ∨
      ∃ i, s.busy = true ∧ decode s.pend = .command i ∧ coreStep s = exec i s := by
  unfold coreStep
  cases hb : s.busy with
  | false => exact .inl ⟨rfl, by simp⟩
  | true =>
    cases hd : decode s.pend with
    | illegal => exact .inr (.inl ⟨rfl, rfl, rfl⟩)
    | command i => exact .inr (.inr ⟨i, rfl, rfl, rfl⟩)

/-- Every change a write to space 0 makes (R32, R34, R37 to R44): a command accepted; `FS`, `BR` or `NSAMP`; a
register of stage 4; `PAYSZ`. -/
theorem regWrite_cases {s t : State} {idx : Nat} {v : Word} (h : regWrite s idx v = some t) :
    t = { s with pend := v, busy := true, done := false } ∨
      (∃ c, t = writeCfg s .env c) ∨
      (∃ c, t = writeCfg s .fsync c ∧ c.fs = s.cfg.fs ∧ c.br = s.cfg.br ∧
        c.nsamp = s.cfg.nsamp ∧ c.paysz = s.cfg.paysz) ∨
      ∃ p, t = writeCfg s .pext { s.cfg with paysz := p } := by
  unfold regWrite at h
  split at h <;>
    first
      | exact .inl (Option.some.inj h).symm
      | exact .inr (.inl ⟨_, (Option.some.inj h).symm⟩)
      | exact .inr (.inr (.inl ⟨_, (Option.some.inj h).symm, rfl, rfl, rfl, rfl⟩))
      | exact .inr (.inr (.inr ⟨_, (Option.some.inj h).symm⟩))
      | cases h

/-- Every change an accepted host write makes (R28, R64): those of space 0, a sample, a sync byte. -/
theorem memWrite_cases {s t : State} {space idx : Nat} {v : Word}
    (h : memWrite s space idx v = some t) :
    t = { s with pend := v, busy := true, done := false } ∨
      (∃ c, t = writeCfg s .env c) ∨
      (∃ c, t = writeCfg s .fsync c ∧ c.fs = s.cfg.fs ∧ c.br = s.cfg.br ∧
        c.nsamp = s.cfg.nsamp ∧ c.paysz = s.cfg.paysz) ∨
      (∃ p, t = writeCfg s .pext { s.cfg with paysz := p }) ∨
      (∃ n < Config.nMax, ∃ x, t =
        invalidateFrom .env { s with mem := { s.mem with iq := Cells.write s.mem.iq n x } }) ∨
      ∃ w, t = invalidateFrom .fsync { s with syncw := w } := by
  unfold memWrite at h
  split at h
  · rcases regWrite_cases h with h | h | h | h
    · exact .inl h
    · exact .inr (.inl h)
    · exact .inr (.inr (.inl h))
    · exact .inr (.inr (.inr (.inl h)))
  · split_ifs at h with hi
    exact .inr (.inr (.inr (.inr (.inl ⟨_, hi, _, (Option.some.inj h).symm⟩))))
  · split_ifs at h with hi
    exact .inr (.inr (.inr (.inr (.inr ⟨_, (Option.some.inj h).symm⟩))))
  · cases h

/-- Every way a host write answers (R64 to R66): refused with nothing changed, or accepted. -/
theorem hostWrite_cases (s : State) (a : HostAddr) (v : Word) :
    hostWrite s a v = { s with resp := some .err } ∨
      ∃ t, s.busy = false ∧ memWrite s (spaceOf a) (indexOf a) v = some t ∧
        hostWrite s a v = { t with resp := some .ok } := by
  unfold hostWrite
  by_cases hb : s.busy = true
  · exact .inl (by rw [if_pos hb])
  · rw [if_neg hb]
    cases hm : memWrite s (spaceOf a) (indexOf a) v with
    | none => exact .inl rfl
    | some t => exact .inr ⟨t, by simpa using hb, rfl, rfl⟩

/-! ## What every command keeps -/

theorem InputsKept.trans {s t u : State} (h : InputsKept s t) (k : InputsKept t u) : InputsKept s u :=
  ⟨k.1.trans h.1, k.2.1.trans h.2.1, k.2.2.1.trans h.2.2.1, k.2.2.2.1.trans h.2.2.2.1,
    k.2.2.2.2.1.trans h.2.2.2.2.1, k.2.2.2.2.2.trans h.2.2.2.2.2⟩

theorem InputsKept.complete {s t : State} (h : InputsKept s t) (r : Record) :
    InputsKept s (complete t r) := h

/-- The state in which a body ends, if it does, has the inputs it began with. -/
def StageEnd.Keeps (s : State) (e : StageEnd) : Prop :=
  ∀ u, (e = .ok u ∨ ∃ r, e = .raised u r) → InputsKept s u

theorem StageEnd.keeps_ok {s u : State} (h : InputsKept s u) : (StageEnd.ok u).Keeps s := by
  rintro v (hv | ⟨r, hv⟩) <;> cases hv
  exact h

theorem StageEnd.keeps_raised {s u : State} (h : InputsKept s u) (r : Record) :
    (StageEnd.raised u r).Keeps s := by
  rintro v (hv | ⟨q, hv⟩) <;> cases hv
  exact h

theorem StageEnd.Keeps.andThen {s : State} {e : StageEnd} {f : State → StageEnd} (he : e.Keeps s)
    (hf : ∀ u, (f u).Keeps u) : (e.andThen f).Keeps s := by
  cases e with
  | ok u => exact fun v hv => (he u (.inl rfl)).trans (hf u v hv)
  | raised u r => exact he
  | overrun => rintro v (hv | ⟨r, hv⟩) <;> cases hv

theorem envBody_keeps (s : State) : (envBody s).Keeps s :=
  StageEnd.keeps_ok ⟨rfl, rfl, rfl, rfl, rfl, rfl⟩

theorem trecBody_keeps (s : State) : (trecBody s).Keeps s := by
  rcases trecBody_cases s with ⟨-, h⟩ | ⟨l, -, -, h⟩ | ⟨l, -, -, h⟩ <;> rw [h]
  · rintro v (hv | ⟨r, hv⟩) <;> cases hv
  · exact StageEnd.keeps_raised ⟨rfl, rfl, rfl, rfl, rfl, rfl⟩ _
  · exact StageEnd.keeps_ok ⟨rfl, rfl, rfl, rfl, rfl, rfl⟩

theorem bdecBody_keeps (s : State) : (bdecBody s).Keeps s :=
  StageEnd.keeps_ok ⟨rfl, rfl, rfl, rfl, rfl, rfl⟩

theorem fsyncBody_keeps (s : State) : (fsyncBody s).Keeps s := by
  rcases fsyncBody_cases s with ⟨-, h⟩ | ⟨-, h⟩ <;> rw [h]
  · exact StageEnd.keeps_ok ⟨rfl, rfl, rfl, rfl, rfl, rfl⟩
  · exact StageEnd.keeps_raised ⟨rfl, rfl, rfl, rfl, rfl, rfl⟩ _

theorem pextBody_keeps (s : State) : (pextBody s).Keeps s := by
  rcases pextBody_cases s with ⟨-, h⟩ | ⟨-, h⟩ <;> rw [h]
  · exact StageEnd.keeps_ok ⟨rfl, rfl, rfl, rfl, rfl, rfl⟩
  · exact StageEnd.keeps_raised ⟨rfl, rfl, rfl, rfl, rfl, rfl⟩ _

theorem runBody_keeps (s : State) : (runBody s).Keeps s :=
  ((((envBody_keeps s).andThen trecBody_keeps).andThen bdecBody_keeps).andThen fsyncBody_keeps).andThen
    pextBody_keeps

/-- A command that answers a next state ends by completion, and keeps its inputs (R228). -/
theorem command_keeps {st : Stage} {body : State → StageEnd} {s t : State} (hb : (body s).Keeps s)
    (h : command st body s = .next t) : InputsKept s t ∧ t.busy = false ∧ t.done = true := by
  rcases command_cases h with ⟨r, -, rfl⟩ | ⟨-, ⟨u, hu, rfl⟩ | ⟨u, r, hu, rfl⟩⟩
  · exact ⟨⟨rfl, rfl, rfl, rfl, rfl, rfl⟩, rfl, rfl⟩
  · exact ⟨(hb u (.inl hu)).complete _, rfl, rfl⟩
  · exact ⟨(hb u (.inr ⟨r, hu⟩)).complete _, rfl, rfl⟩

/-- Every command that answers a next state leaves the core idle, with its inputs kept (R228). -/
theorem exec_keeps {i : Instr} {s t : State} (h : exec i s = .next t) :
    InputsKept s t ∧ t.busy = false ∧ t.done = true := by
  cases i with
  | env => exact command_keeps (envBody_keeps s) h
  | trec => exact command_keeps (trecBody_keeps s) h
  | bdec => exact command_keeps (bdecBody_keeps s) h
  | fsync => exact command_keeps (fsyncBody_keeps s) h
  | pext => exact command_keeps (pextBody_keeps s) h
  | run => exact command_keeps (runBody_keeps s) h
  | clr =>
    rw [← Host.Outcome.next.inj h]
    exact ⟨⟨rfl, rfl, rfl, rfl, rfl, rfl⟩, rfl, rfl⟩

end Sys2Proof.Machine
end

