-- ==== Sys2Proof/Laws/Envelope.lean ====
section
/-! SUPPORT. Laws of the envelope stage: the bounds of 00_scope.md R14 and 40_envelope.md R129, and what ENV
leaves in `CENTMEM` and its result registers, with no truncation. -/

namespace Sys2Proof.Machine

/-! ## Amplitude -/

theorem isqrt_sq_le (m : Nat) : isqrt m * isqrt m ≤ m :=
  (isqrtBits_spec _ m 0 (by simp) (lt_isqrt_start m)).1

theorem int16_sq_le (x : BitVec 16) : x.toInt * x.toInt ≤ 1073741824 := by
  have h1 := BitVec.le_toInt x
  have h2 := BitVec.toInt_lt (x := x)
  norm_num at h1 h2
  nlinarith

/-- `0 ≤ a[n] ≤ A` (R14), with room to spare: 46340 at 16 bits (R123). -/
theorem mag_le (x : Sample) : mag x ≤ 46340 := by
  have h : mag x * mag x ≤ 2147483648 := by
    refine (isqrt_sq_le _).trans ?_
    have h1 := int16_sq_le x.i
    have h2 := int16_sq_le x.q
    simp only [Config.magFrac, pow_zero, mul_one]
    omega
  by_contra hc
  have : 46341 ≤ mag x := by omega
  nlinarith

theorem amplitude_le (s : State) (n : Nat) : amplitude s n ≤ 46340 := mag_le _

/-! ## Window sums -/

/-- A window holds each sample at most once, so its sum is at most the sum of all (R14). -/
theorem windowSum_le_total (count width : Nat) (a : Nat → Nat) (n : Nat) :
    windowSum count width a n ≤ sumUpTo a count := by
  unfold windowSum
  rw [sumUpTo_eq_sum, sumUpTo_eq_sum]
  set x : Int := (n : Int) - ((width / 2 : Nat) : Int) with hx
  have hstep : ∀ j ∈ Finset.range width, padRead 0 count a (x + (j : Int)) =
      if 0 ≤ x + (j : Int) ∧ x + (j : Int) < count then a (x + (j : Int)).toNat else 0 := by
    intro j _
    by_cases h : outOfRange count (x + (j : Int)) = true
    · have h' := (outOfRange_iff _ _).mp h
      rw [padRead, if_pos h, if_neg (by omega)]
    · have h' := (outOfRange_eq_false_iff _ _).mp (by simpa using h)
      rw [padRead, if_neg h, if_pos h']
  rw [Finset.sum_congr rfl hstep, ← Finset.sum_filter]
  have hinj : Set.InjOn (fun j : Nat => (x + (j : Int)).toNat)
      ((Finset.range width).filter fun j : Nat => 0 ≤ x + (j : Int) ∧ x + (j : Int) < count) := by
    intro i hi j hj hij
    simp only [Finset.mem_coe, Finset.mem_filter] at hi hj
    simp only at hij
    omega
  rw [← Finset.sum_image (f := a) hinj]
  refine Finset.sum_le_sum_of_subset ?_
  intro m hm
  simp only [Finset.mem_image, Finset.mem_filter, Finset.mem_range] at hm ⊢
  obtain ⟨j, ⟨-, h1, h2⟩, rfl⟩ := hm
  omega

theorem windowSum_congr {a b : Nat → Nat} {count : Nat} (h : ∀ n < count, a n = b n) (width n : Nat) :
    windowSum count width a n = windowSum count width b n := by
  unfold windowSum
  exact sumUpTo_congr fun j _ => padRead_congr 0 count h _

/-! ## `Smax`, `T`, `D`, `C` -/

/-- A sum of terms at most `b`, one of them `f n`, falls short of `len·b` by at least what that term does. -/
theorem sumUpTo_add_le (f : Nat → Nat) (len b n : Nat) (hn : n < len) (h : ∀ j < len, f j ≤ b) :
    sumUpTo f len + b ≤ len * b + f n := by
  induction len with
  | zero => omega
  | succ k ih =>
    rw [sumUpTo, Nat.succ_mul]
    by_cases he : n = k
    · subst he
      have := sumUpTo_le_mul f n b fun j hj => h j (by omega)
      omega
    · have := ih (by omega) fun j hj => h j (by omega)
      have := h k (by omega)
      omega

theorem le_sumUpTo (f : Nat → Nat) (len n : Nat) (hn : n < len) : f n ≤ sumUpTo f len := by
  induction len with
  | zero => omega
  | succ k ih =>
    rw [sumUpTo]
    by_cases he : n = k
    · subst he; omega
    · have := ih (by omega); omega

/-- R129 (b): the centered sequence of any window sums keeps its bounds over its own denominator. -/
theorem centered_bounds (count : Nat) (sum : Nat → Nat) :
    CenteredBounds (centered count (envelopeOf count sum) sum) count (envelopeOf count sum).den := by
  by_cases h0 : maxUpTo sum count = 0
  · simp [CenteredBounds, centered, envelopeOf, h0]
  · obtain ⟨p, hp, hpe⟩ := maxUpTo_attained sum count h0
    have hle : ∀ j < count, sum j ≤ maxUpTo sum count := fun j hj => le_maxUpTo sum count j hj
    have hT := le_sumUpTo sum count p hp
    simp only [CenteredBounds, centered, envelopeOf, h0, decide_false, if_false, Bool.false_eq_true]
    have hden : 1 ≤ count * maxUpTo sum count := Nat.one_le_iff_ne_zero.mpr (by
      simp [h0]; omega)
    have hc : (1 : Int) ≤ count := by omega
    refine ⟨hden, fun n hn => ⟨?_, ?_⟩, fun n hn m hm => ?_⟩
    · have h1 := sumUpTo_add_le sum count _ n hn hle
      have h2 : sum n ≤ count * sum n := Nat.le_mul_of_pos_left _ (by omega)
      push_cast
      have h1' : (sumUpTo sum count : Int) + maxUpTo sum count ≤
          count * maxUpTo sum count + sum n := by exact_mod_cast h1
      have h2' : (sum n : Int) ≤ count * sum n := by exact_mod_cast h2
      omega
    · have h1 : (count : Int) * sum n ≤ count * maxUpTo sum count := by
        exact_mod_cast Nat.mul_le_mul_left count (hle n hn)
      push_cast
      omega
    · have h1 : (count : Int) * sum n ≤ count * maxUpTo sum count := by
        exact_mod_cast Nat.mul_le_mul_left count (hle n hn)
      have h2 : (0 : Int) ≤ count * sum m := by positivity
      push_cast
      omega

/-- The sums of a capture of at most `N_MAX` samples (R14): `T ≤ D` and `D < 2^48`. -/
theorem envelope_le (s : State) (hN : sampleCount s.cfg ≤ Config.nMax) :
    (envelopeOf (sampleCount s.cfg) (captureSum s)).smax < 2 ^ 48 ∧
      (envelopeOf (sampleCount s.cfg) (captureSum s)).total < 2 ^ 48 ∧
      (envelopeOf (sampleCount s.cfg) (captureSum s)).den < 2 ^ 48 := by
  set N := sampleCount s.cfg with hNdef
  have hS : ∀ n < N, captureSum s n ≤ N * 46340 := fun n _ =>
    (windowSum_le_total _ _ _ _).trans (sumUpTo_le_mul _ _ _ fun j _ => amplitude_le s j)
  have hmax : maxUpTo (captureSum s) N ≤ N * 46340 := maxUpTo_le _ _ _ hS
  have hsum : sumUpTo (captureSum s) N ≤ N * (N * 46340) := sumUpTo_le_mul _ _ _ hS
  have h1 : N * 46340 ≤ 65536 * 46340 := Nat.mul_le_mul_right _ hN
  have h2 : N * (N * 46340) ≤ 65536 * (65536 * 46340) := Nat.mul_le_mul hN h1
  have h3 : N * maxUpTo (captureSum s) N ≤ N * (N * 46340) := Nat.mul_le_mul_left _ hmax
  simp only [envelopeOf]
  refine ⟨by omega, by omega, ?_⟩
  split_ifs <;> omega

theorem toInt_ofInt_of_bounds {x : Int} {d : Nat} (h1 : -(d : Int) < x) (h2 : x < d)
    (hd : d < 2 ^ 48) : (BitVec.ofInt 64 x).toInt = x := by
  rw [BitVec.toInt_ofInt]
  apply Int.bmod_eq_of_le <;> omega

/-- What ENV stores, read back as signed integers, is the exact numerator (R14, R128). -/
theorem centAt_envDone (s : State) (hN : sampleCount s.cfg ≤ Config.nMax) (n : Nat)
    (hn : n < sampleCount s.cfg) :
    centAt (envDone s) n = centered (sampleCount s.cfg)
      (envelopeOf (sampleCount s.cfg) (captureSum s)) (captureSum s) n := by
  obtain ⟨h1, h2⟩ := (centered_bounds (sampleCount s.cfg) (captureSum s)).2.1 n hn
  have hd := (envelope_le s hN).2.2
  rw [centAt, envDone_mem, entryOr_of_read _ _ _ _ (by rw [Cells.read_fill, if_pos hn])]
  exact toInt_ofInt_of_bounds h1 h2 hd

theorem envden_envDone (s : State) (hN : sampleCount s.cfg ≤ Config.nMax) :
    (envDone s).res.envden.toNat = (envelopeOf (sampleCount s.cfg) (captureSum s)).den := by
  have hd := (envelope_le s hN).2.2
  simp only [envDone_res, BitVec.toNat_ofNat]
  omega

/-- After ENV a centered sequence is present (R26), whatever was in the memories before. -/
theorem envelopePresent_envDone (s : State) (h : RatesChecked s.cfg) : EnvelopePresent (envDone s) := by
  refine ⟨h, ?_, ?_⟩
  · intro n hn
    rw [envDone_cfg] at hn
    rw [envDone_mem, Cells.read_fill, if_pos hn]
    rfl
  · obtain ⟨h1, h2, h3⟩ := centered_bounds (sampleCount s.cfg) (captureSum s)
    rw [envDone_cfg, envden_envDone s h.2]
    refine ⟨h1, fun n hn => ?_, fun n hn m hm => ?_⟩
    · rw [centAt_envDone s h.2 n hn]; exact h2 n hn
    · rw [centAt_envDone s h.2 n hn, centAt_envDone s h.2 m hm]; exact h3 n hn m hm

end Sys2Proof.Machine
end

