-- ==== Sys2Proof/Laws/FrameSync.lean ====
section
/-! SUPPORT. Laws of the frame-sync stage: the bound on a score (R184), what FSYNC leaves in `PROFMEM`, and what
the scan gives (R186 to R190). -/

namespace Sys2Proof.Machine

/-! ## The correlation -/

theorem bitAt_le_one (s : State) (k : Nat) : bitAt s k ≤ 1 := by
  have := (entryOr s.mem.bits s.free 5 k).isLt
  simp only [bitAt]
  omega

/-- `0 ≤ CorrelationProfile[i] ≤ L` (R184). -/
theorem score_le (bit : Nat → Nat) (hbit : ∀ k, bit k ≤ 1) (count : Nat) (pat : Nat → Bool)
    (len i : Nat) : score bit count pat len i ≤ len := by
  have h : score bit count pat len i ≤ len * 1 := by
    refine sumUpTo_le_mul _ _ _ fun j _ => ?_
    have h1 : padRead 0 count bit (corrIndex (len / 2) i j) ≤ 1 := by
      rcases padRead_cases 0 count bit (corrIndex (len / 2) i j) with ⟨n, -, -, h⟩ | ⟨-, h⟩
      · rw [h]; exact hbit n
      · rw [h]; omega
    cases pat j
    · simp
    · simpa using h1
  omega

theorem score_congr {b c : Nat → Nat} {count : Nat} (h : ∀ n < count, b n = c n) (pat : Nat → Bool)
    (len i : Nat) : score b count pat len i = score c count pat len i := by
  unfold score
  exact sumUpTo_congr fun j _ => by rw [padRead_congr 0 count h]

/-- A legal pattern is short enough for 12-bit scores (R14: `L ≤ 8·(255 + SW_MAX)`). -/
theorem patLen_lt {c : Cfg} (h : c.swlen.toNat ≤ Config.swMax) : patLen c ≤ 2104 := by
  have := c.npre.isLt
  simp only [patLen, Config.swMax] at *
  omega

/-- What FSYNC stores in `PROFMEM` is the exact score (R14, R184). -/
theorem profAt_profiled (s : State) (h : s.cfg.swlen.toNat ≤ Config.swMax) (i : Nat)
    (hi : i < bitCount s) :
    profAt (profiled s) i =
      score (bitAt s) (bitCount s) (patBit s.cfg s.syncw) (patLen s.cfg) i := by
  have h1 := score_le (bitAt s) (bitAt_le_one s) (bitCount s) (patBit s.cfg s.syncw) (patLen s.cfg) i
  have h2 := patLen_lt h
  rw [profAt, profiled_mem, entryOr_of_read _ _ _ _ (by rw [Cells.read_fill, if_pos hi])]
  rw [BitVec.toNat_ofNat]
  omega

/-! ## The scan -/

/-- All that the scan can give: nothing qualified, or the accepted position, which qualifies (R186, R190). -/
theorem scanUpTo_cases (prof : Nat → Nat) (th : Nat) (policy : BitVec 2) (half last : Nat)
    (hp : policy ≠ 3#2) :
    ((scanUpTo prof th policy half last).found = false ∧
        ∀ i, 1 ≤ i → i ≤ last → qualifies prof th i = false) ∨
      ((scanUpTo prof th policy half last).found = true ∧
        1 ≤ (scanUpTo prof th policy half last).syncIndex ∧
        (scanUpTo prof th policy half last).syncIndex ≤ last ∧
        qualifies prof th (scanUpTo prof th policy half last).syncIndex = true ∧
        (scanUpTo prof th policy half last).payloadStart =
          (scanUpTo prof th policy half last).syncIndex + half) := by
  have hpol : policy = 0#2 ∨ policy = 1#2 ∨ policy = 2#2 ∨ policy = 3#2 := by
    revert policy; decide
  induction last with
  | zero => exact .inl ⟨rfl, fun i h1 h2 => by omega⟩
  | succ k ih =>
    rw [scanUpTo, scanPosition]
    by_cases hq : qualifies prof th (k + 1) = true
    · rw [if_pos hq]
      refine .inr ?_
      by_cases ht : takes policy prof (k + 1) (scanUpTo prof th policy half k) = true
      · rw [if_pos ht]
        exact ⟨rfl, by simp, le_rfl, hq, rfl⟩
      · rw [if_neg ht]
        rcases ih with ⟨hf, -⟩ | ⟨-, h1, h2, h3, h4⟩
        · exfalso
          apply ht
          unfold takes
          rw [hf]
          rcases hpol with h | h | h | h
          · simp [h]
          · simp [h]
          · simp [h]
          · exact absurd h hp
        · exact ⟨rfl, h1, by simp only; omega, h3, h4⟩
    · rw [if_neg hq]
      rcases ih with ⟨hf, hn⟩ | ⟨hf, h1, h2, h3, h4⟩
      · refine .inl ⟨hf, fun i hi1 hi2 => ?_⟩
        by_cases he : i = k + 1
        · rw [he]; simpa using hq
        · exact hn i hi1 (by omega)
      · exact .inr ⟨hf, h1, by omega, h3, h4⟩

/-- Which qualifying position the scan keeps: the smallest under `FIRST`, the largest under `LAST`, the last of
those with the largest score under `STRONGEST` (R187 to R189). -/
theorem scanUpTo_policy (prof : Nat → Nat) (th : Nat) (policy : BitVec 2) (half last : Nat)
    (hp : policy ≠ 3#2) (hf : (scanUpTo prof th policy half last).found = true) :
    let i := (scanUpTo prof th policy half last).syncIndex
    (policy = 0#2 → ∀ j, 1 ≤ j → j ≤ last → qualifies prof th j = true → i ≤ j) ∧
    (policy = 1#2 → ∀ j, 1 ≤ j → j ≤ last → qualifies prof th j = true → j ≤ i) ∧
    (policy = 2#2 → ∀ j, 1 ≤ j → j ≤ last → qualifies prof th j = true →
      prof j ≤ prof i ∧ (prof j = prof i → j ≤ i)) := by
  induction last with
  | zero => cases hf
  | succ k ih =>
    have hc := scanUpTo_cases prof th policy half k hp
    have hpol : policy = 0#2 ∨ policy = 1#2 ∨ policy = 2#2 := by
      clear ih hf hc; revert policy; decide
    intro i
    have hi : i = (scanPosition prof th policy half (k + 1) (scanUpTo prof th policy half k)).syncIndex := rfl
    rw [scanUpTo] at hf
    unfold scanPosition at hi hf
    by_cases hq : qualifies prof th (k + 1) = true
    · rw [if_pos hq] at hi hf
      rcases hc with ⟨hnf, hno⟩ | ⟨hyf, h1, h2, h3, h4⟩
      · have ht : takes policy prof (k + 1) (scanUpTo prof th policy half k) = true := by
          rcases hpol with rfl | rfl | rfl <;> simp [takes, hnf]
        rw [if_pos ht] at hi
        simp only at hi
        have key : ∀ j, 1 ≤ j → j ≤ k + 1 → qualifies prof th j = true → j = k + 1 := by
          intro j a b c
          by_contra hne
          have := hno j a (by omega); rw [c] at this; cases this
        refine ⟨fun _ j a b c => ?_, fun _ j a b c => ?_, fun _ j a b c => ?_⟩ <;>
          have := key j a b c <;> subst this <;> rw [hi]
        exact ⟨le_rfl, fun _ => le_rfl⟩
      · obtain ⟨i0, i1, i2⟩ := ih hyf
        rcases hpol with h | h | h
        · have ht : ¬ takes policy prof (k + 1) (scanUpTo prof th policy half k) = true := by
            subst h; simp [takes, hyf]
          rw [if_neg ht] at hi
          simp only at hi
          refine ⟨fun _ j a b c => ?_, fun e => absurd (h.symm.trans e) (by decide),
            fun e => absurd (h.symm.trans e) (by decide)⟩
          rw [hi]
          by_cases hj : j = k + 1
          · omega
          · exact i0 h j a (by omega) c
        · have ht : takes policy prof (k + 1) (scanUpTo prof th policy half k) = true := by
            simp only [takes, h, if_true]
          rw [if_pos ht] at hi
          simp only at hi
          refine ⟨fun e => absurd (h.symm.trans e) (by decide), fun _ j a b c => ?_,
            fun e => absurd (h.symm.trans e) (by decide)⟩
          omega
        · by_cases hle : prof (scanUpTo prof th policy half k).syncIndex ≤ prof (k + 1)
          · have ht : takes policy prof (k + 1) (scanUpTo prof th policy half k) = true := by
              subst h; simp [takes, hyf, hle]
            rw [if_pos ht] at hi
            simp only at hi
            refine ⟨fun e => absurd (h.symm.trans e) (by decide),
              fun e => absurd (h.symm.trans e) (by decide), fun _ j a b c => ?_⟩
            rw [hi]
            refine ⟨?_, fun _ => b⟩
            by_cases hj : j = k + 1
            · rw [hj]
            · exact (i2 h j a (by omega) c).1.trans hle
          · have ht : ¬ takes policy prof (k + 1) (scanUpTo prof th policy half k) = true := by
              subst h; simp [takes, hyf, hle]
            rw [if_neg ht] at hi
            simp only at hi
            refine ⟨fun e => absurd (h.symm.trans e) (by decide),
              fun e => absurd (h.symm.trans e) (by decide), fun _ j a b c => ?_⟩
            rw [hi]
            by_cases hj : j = k + 1
            · rw [hj]; exact ⟨by omega, fun e => by omega⟩
            · exact i2 h j a (by omega) c
    · rw [if_neg hq] at hi hf
      obtain ⟨i0, i1, i2⟩ := ih hf
      have key : ∀ j, j ≤ k + 1 → qualifies prof th j = true → j ≤ k := by
        intro j b c
        by_contra hne
        have : j = k + 1 := by omega
        rw [this] at c; exact hq c
      rw [hi]
      exact ⟨fun e j a b c => i0 e j a (key j b c) c, fun e j a b c => i1 e j a (key j b c) c,
        fun e j a b c => i2 e j a (key j b c) c⟩

/-- The scan reads the profile only at `0 .. last+1`. -/
theorem scanUpTo_congr {p q : Nat → Nat} {last : Nat} (h : ∀ i ≤ last + 1, p i = q i) (th : Nat)
    (policy : BitVec 2) (half : Nat) : scanUpTo p th policy half last = scanUpTo q th policy half last ∧
      (scanUpTo p th policy half last).syncIndex ≤ last := by
  induction last with
  | zero => exact ⟨rfl, le_rfl⟩
  | succ k ih =>
    obtain ⟨he, hle⟩ := ih fun i hi => h i (by omega)
    have hq : qualifies p th (k + 1) = qualifies q th (k + 1) := by
      simp only [qualifies, h (k + 1) (by omega), h (k + 1 - 1) (by omega), h (k + 1 + 1) (by omega)]
    have ht : takes policy p (k + 1) (scanUpTo p th policy half k) =
        takes policy q (k + 1) (scanUpTo q th policy half k) := by
      rw [← he, takes, takes, h (k + 1) (by omega),
        h _ (show (scanUpTo p th policy half k).syncIndex ≤ k + 1 + 1 by omega)]
    refine ⟨by rw [scanUpTo, scanUpTo, scanPosition, scanPosition, hq, ht, he], ?_⟩
    rw [scanUpTo, scanPosition]
    split_ifs
    · exact le_rfl
    · simp only; omega
    · omega

end Sys2Proof.Machine
end

