-- ==== Sys2Proof/Laws/HostLines.lean ====
section
/-! SUPPORT. Laws of the host lines: hexadecimal text (R105, R106), the expansions' lengths and entries, and the
host's decision in `DEMOD` (R108), and runs of the schedule. -/

namespace Sys2Proof.Machine

/-! ## Hexadecimal text -/

theorem hexDigit_of_mem {c : Char} (h : c ∈ hexAlphabet) :
    hexDigit c = some (ruleDigit c) ∧ ruleDigit c < 16 := by
  simp only [hexAlphabet, List.mem_cons, List.not_mem_nil, or_false] at h
  rcases h with h | h | h | h | h | h | h | h | h | h | h | h | h | h | h | h | h | h | h | h | h | h <;>
    subst h <;> exact ⟨rfl, by decide⟩

theorem mem_of_hexDigit {c : Char} {d : Nat} (h : hexDigit c = some d) : c ∈ hexAlphabet := by
  have hc : c = Char.ofNat c.toNat := (Char.ofNat_toNat c).symm
  have key : ∀ n < 103, (hexDigit (Char.ofNat n)).isSome = true → Char.ofNat n ∈ hexAlphabet := by decide +kernel
  have hlt : c.toNat < 103 := by
    simp only [hexDigit] at h
    split_ifs at h <;> omega
  rw [hc]
  exact key _ hlt (by rw [← hc, h]; rfl)

/-- All digits are read, or one character is no digit (R105, R106). -/
theorem hexDigits_cases (text : List Char) :
    (Malformed text ∧ hexDigits text = none) ∨
      (¬Malformed text ∧ hexDigits text = some (text.map ruleDigit)) := by
  induction text with
  | nil => exact .inr ⟨by simp [Malformed], rfl⟩
  | cons c rest ih =>
    by_cases hc : c ∈ hexAlphabet
    · have hm : Malformed (c :: rest) ↔ Malformed rest := by simp [Malformed, hc]
      rw [hm, hexDigits, (hexDigit_of_mem hc).1]
      rcases ih with ⟨h, e⟩ | ⟨h, e⟩ <;> rw [e]
      · exact .inl ⟨h, rfl⟩
      · exact .inr ⟨h, rfl⟩
    · refine .inl ⟨⟨c, by simp, hc⟩, ?_⟩
      cases hd : hexDigit c with
      | none => rw [hexDigits, hd]
      | some d => exact absurd (mem_of_hexDigit hd) hc

/-- A text is refused, or gives the bytes of its digits (R105, R106). -/
theorem hexBytes_cases (text : List Char) :
    (Malformed text ∧ hexBytes text = none) ∨
      (¬Malformed text ∧ hexBytes text = some (pairBytes
        (if text.length % 2 = 0 then text.map ruleDigit else 0 :: text.map ruleDigit))) := by
  rcases hexDigits_cases text with ⟨h, e⟩ | ⟨h, e⟩ <;> rw [hexBytes, e]
  · exact .inl ⟨h, rfl⟩
  · exact .inr ⟨h, by simp only [List.length_map]⟩

/-- The bytes of an even number of digits: half as many, of the same value (R105). -/
theorem pairBytes_spec (n : Nat) (ds : List Nat) (hn : ds.length = 2 * n) (hd : ∀ d ∈ ds, d < 16) (v : Nat) :
    (pairBytes ds).length = n ∧
      (pairBytes ds).foldl (fun v b => 256 * v + b.toNat) v = ds.foldl (fun v d => 16 * v + d) v := by
  induction n generalizing ds v with
  | zero => rw [List.length_eq_zero_iff.mp hn]; exact ⟨rfl, rfl⟩
  | succ k ih =>
    obtain ⟨d, e, rest, rfl⟩ : ∃ d e rest, ds = d :: e :: rest := by
      match ds, hn with
      | [_], h => simp at h; omega
      | d :: e :: rest, _ => exact ⟨d, e, rest, rfl⟩
    have h1 := hd d (by simp)
    have h2 := hd e (by simp)
    have hv : 256 * v + (BitVec.ofNat 8 (16 * d + e)).toNat = 16 * (16 * v + d) + e := by
      rw [BitVec.toNat_ofNat, Nat.mod_eq_of_lt (by omega)]; omega
    obtain ⟨hl, hf⟩ := ih rest (by simp at hn; omega) (fun x hx => hd x (by simp [hx]))
      (256 * v + (BitVec.ofNat 8 (16 * d + e)).toNat)
    exact ⟨by rw [pairBytes, List.length_cons, hl],
      by rw [pairBytes, List.foldl_cons, hf, hv, List.foldl_cons, List.foldl_cons]⟩

/-- What a text without a malformed character gives (R105): half as many bytes, rounded up, of its value. -/
theorem hexBytes_of_wellFormed {text : List Char} (h : ¬Malformed text) :
    ∃ bytes, hexBytes text = some bytes ∧ bytes.length = (text.length + 1) / 2 ∧
      bytesValue bytes = textValue text := by
  rcases hexBytes_cases text with ⟨hm, -⟩ | ⟨-, e⟩
  · exact absurd hm h
  refine ⟨_, e, ?_⟩
  have hd : ∀ d ∈ text.map ruleDigit, d < 16 := by
    intro d hmem
    obtain ⟨c, hc, rfl⟩ := List.mem_map.mp hmem
    exact (hexDigit_of_mem (by_contra fun hn => h ⟨c, hc, hn⟩)).2
  have hv : ∀ v, (text.map ruleDigit).foldl (fun v d => 16 * v + d) v =
      text.foldl (fun v c => 16 * v + ruleDigit c) v := fun v => by rw [List.foldl_map]
  split_ifs with hp
  · obtain ⟨hl, hf⟩ := pairBytes_spec (text.length / 2) (text.map ruleDigit) (by simp; omega) hd 0
    exact ⟨by omega, hf.trans (hv 0)⟩
  · obtain ⟨hl, hf⟩ := pairBytes_spec ((text.length + 1) / 2) (0 :: text.map ruleDigit)
      (by simp; omega) (by simpa using hd) 0
    exact ⟨hl, hf.trans (hv 0)⟩

/-! ## Expansions -/

theorem lineFill_length (space idx : Nat) (vs : List Word) : (lineFill space idx vs).length = vs.length := by
  induction vs generalizing idx with
  | nil => rfl
  | cons v rest ih => rw [lineFill, List.length_cons, ih, List.length_cons]

theorem lineFill_getElem? (space idx : Nat) (vs : List Word) (q : Nat) :
    (lineFill space idx vs)[q]? = vs[q]?.map (lineWr space (idx + q)) := by
  induction vs generalizing idx q with
  | nil => simp [lineFill]
  | cons v rest ih =>
    cases q with
    | zero => simp [lineFill]
    | succ q => rw [lineFill, List.getElem?_cons_succ, ih, List.getElem?_cons_succ, Nat.add_assoc,
        Nat.add_comm 1 q]

/-! ## The host's decision in `DEMOD` -/

/-- The host's decision: the reads of the payload after a word with `ERR = 0`, nothing after any other. -/
theorem demodDecision_of_data {s : State} {w : Word} (h : s.resp = some (.data w)) :
    demodDecision s = if w.extractLsb' 4 4 = 0#4 then
      (List.range s.cfg.paysz.toNat).map fun b => lineRd 7 b else [] := by
  simp only [demodDecision, h, lineDemodReads]

/-! ## Runs of the schedule -/

theorem run_succ (k : Nat) (s : State) :
    Host.Core.run Sys2Proof.core (k + 1) s =
      match step s with
      | .next t => Host.Core.run Sys2Proof.core k t
      | .fault r => .fault r
      | .refused r => .refused r := by
  simp only [Host.Core.run, show Sys2Proof.core.step s = step s from rfl]
  cases step s <;> rfl

theorem run_succ_of_next {k : Nat} {s t : State} (h : step s = .next t) :
    Host.Core.run Sys2Proof.core (k + 1) s = Host.Core.run Sys2Proof.core k t := by
  rw [run_succ, h]

/-- A run goes on where a shorter one has ended. -/
theorem run_add {k : Nat} (j : Nat) {s t : State} (h : Host.Core.run Sys2Proof.core k s = .next t) :
    Host.Core.run Sys2Proof.core (k + j) s = Host.Core.run Sys2Proof.core j t := by
  induction k generalizing s with
  | zero => cases h; rw [Nat.zero_add]
  | succ k ih =>
    rw [run_succ] at h
    rw [Nat.add_right_comm, run_succ]
    cases hs : step s with
    | next u => rw [hs] at h; exact ih h
    | fault r => rw [hs] at h; cases h
    | refused r => rw [hs] at h; cases h

/-- Bit 0 of `STATUS` is `BUSY` (R35). -/
theorem statusWord_bit_zero (s : State) : (statusWord s).getLsbD 0 = s.busy := by
  unfold statusWord bitOf
  rw [BitVec.getLsbD_append]
  simp

/-- `RD STATUS` is answered in every state (R63, R66). -/
theorem readResponse_status (s : State) : readResponse s 0x000002#24 = .data (statusWord s) := by
  rw [readResponse, show spaceOf 0x000002#24 = 0 from rfl, show indexOf 0x000002#24 = 2 from rfl,
    if_pos (by simp [readAllowed])]
  rfl

/-- A poll of `STATUS` at the head of the schedule. -/
theorem step_poll {s : State} {rest : List HostEvent} (h : s.port = lineRd 0 0x02 :: rest) :
    step s = .next { s with port := rest, resp := some (.data (statusWord s)), free := s.free + 1 } := by
  have h' : s.port = .read 0x000002#24 :: rest := h
  unfold step
  rw [h']
  simp only [hostRead, readResponse_status]
  rfl

/-- Polls at the head of the schedule read `STATUS` each time, and change only the model's own fields. -/
theorem run_polls (polls : Nat) {s : State} {rest : List HostEvent}
    (h : s.port = List.replicate polls (lineRd 0 0x02) ++ rest) :
    Host.Core.run Sys2Proof.core polls s = .next { s with
      port := rest
      resp := if polls = 0 then s.resp else some (.data (statusWord s))
      free := s.free + polls } := by
  induction polls generalizing s with
  | zero =>
    simp only [List.replicate, List.nil_append] at h
    subst h
    rfl
  | succ k ih =>
    rw [run_succ_of_next (step_poll (rest := List.replicate k (lineRd 0 0x02) ++ rest) h), ih rfl]
    have hr : (if k = 0 then some (.data (statusWord s)) else some (.data (statusWord s))) =
        (if k + 1 = 0 then s.resp else some (.data (statusWord s))) := by simp
    have hf : s.free + 1 + k = s.free + (k + 1) := by omega
    rw [← hr, ← hf]
    rfl

end Sys2Proof.Machine
end

