-- ==== Sys2Proof/Laws/Timing.lean ====
section
/-! SUPPORT. Laws of `round` and of the timing loop: the bound on a phase update (R151 (b)), what one run of the
loop gives, and that it depends on the centered sequence only inside the capture. -/

namespace Sys2Proof.Machine

/-! ## `round` (R147) -/

/-- `round(n, d)` is the floor or one above it, and is nearest: never further than half a unit. -/
theorem roundDivWith_near (ties : RoundTies) (n d : Int) (hd : 0 < d) :
    -d ≤ 2 * (n - roundDivWith ties n d * d) ∧ 2 * (n - roundDivWith ties n d * d) ≤ d := by
  have h1 : 0 ≤ n % d := Int.emod_nonneg n (by omega)
  have h2 : n % d < d := Int.emod_lt_of_pos n hd
  have h3 : n - n / d * d = n % d := by
    have := Int.emod_add_mul_ediv n d
    linarith [mul_comm d (n / d)]
  have h4 : n - (n / d + 1) * d = n % d - d := by linarith [h3]
  unfold roundDivWith
  simp only [h3]
  cases ties <;> dsimp only <;> split_ifs <;> first | (rw [h3]; omega) | (rw [h4]; omega)

/-- A quotient of absolute value below `w/2` rounds to at most `w//2`. -/
theorem roundDiv_abs_le (n d : Int) (w : Nat) (hd : 0 < d) (hlo : -(w * d) < 2 * n)
    (hhi : 2 * n < w * d) :
    -((w / 2 : Nat) : Int) ≤ roundDiv n d ∧ roundDiv n d ≤ ((w / 2 : Nat) : Int) := by
  obtain ⟨h1, h2⟩ := roundDivWith_near Config.roundTies n d hd
  have hr : roundDivWith Config.roundTies n d = roundDiv n d := rfl
  rw [hr] at h1 h2
  generalize roundDiv n d = r at h1 h2
  have h3 : (2 * r - (w : Int) - 1) * d < 0 := by nlinarith
  have h4 : (-(2 * r) - (w : Int) - 1) * d < 0 := by nlinarith
  have h5 : 2 * r - (w : Int) - 1 < 0 := by
    by_contra h; nlinarith [mul_nonneg (not_lt.mp h) hd.le]
  have h6 : -(2 * r) - (w : Int) - 1 < 0 := by
    by_contra h; nlinarith [mul_nonneg (not_lt.mp h) hd.le]
  omega

@[simp] theorem roundDiv_zero (d : Int) (hd : 0 < d) : roundDiv 0 d = 0 := by
  simp [roundDiv, roundDivWith, hd]

/-! ## One pass -/

/-- `|Δ| ≤ sps//2` for every pass over a centered sequence with R129's bounds (R151 (b)). -/
theorem phaseUpdate_abs_le {c : Nat → Int} {count den : Nat} (hc : CenteredBounds c count den)
    (width index : Nat) (epsilon : Int) (hw : 1 ≤ width) :
    -((width / 2 : Nat) : Int) ≤ phaseUpdate c count width den index epsilon ∧
      phaseUpdate c count width den index epsilon ≤ ((width / 2 : Nat) : Int) := by
  obtain ⟨hden, hlt, hdiff⟩ := hc
  have hread : ∀ j, -(den : Int) < padRead 0 count c j ∧ padRead 0 count c j < den := by
    intro j
    rcases padRead_cases (0 : Int) count c j with ⟨n, hn, -, h⟩ | ⟨-, h⟩
    · rw [h]; exact hlt n hn
    · rw [h]; omega
  have hpair : ∀ j k, padRead 0 count c j - padRead 0 count c k ≤ den := by
    intro j k
    rcases padRead_cases (0 : Int) count c j with ⟨n, hn, -, h⟩ | ⟨-, h⟩ <;>
      rcases padRead_cases (0 : Int) count c k with ⟨m, hm, -, h'⟩ | ⟨-, h'⟩ <;> rw [h, h']
    · exact hdiff n hn m hm
    · have := hlt n hn; omega
    · have := hlt m hm; omega
    · omega
  unfold phaseUpdate
  simp only
  generalize hxm : padRead 0 count c (midInstant width index epsilon) = xm
  generalize hxp : padRead 0 count c (prevInstant width index epsilon) = xp
  generalize hxe : padRead 0 count c (earlyInstant width index epsilon) = xe
  have h1 : xm - xp ≤ den := hxm ▸ hxp ▸ hpair _ _
  have h2 : xp - xm ≤ den := hxm ▸ hxp ▸ hpair _ _
  obtain ⟨h3, h4⟩ : -(den : Int) < xe ∧ xe < den := hxe ▸ hread _
  have hd : (0 : Int) < den := by omega
  have hprod : -((den : Int) * den) < (xm - xp) * xe ∧ (xm - xp) * xe < (den : Int) * den := by
    have habs : |(xm - xp) * xe| < (den : Int) * den := by
      rw [abs_mul]
      have ha : |xm - xp| ≤ den := abs_le.mpr ⟨by omega, h1⟩
      have hb : |xe| ≤ (den : Int) - 1 := abs_le.mpr ⟨by omega, by omega⟩
      calc |xm - xp| * |xe| ≤ (den : Int) * ((den : Int) - 1) :=
            mul_le_mul ha hb (abs_nonneg _) (by omega)
        _ < (den : Int) * den := by nlinarith
    exact abs_lt.mp habs
  have hw' : (0 : Int) < width := by omega
  refine roundDiv_abs_le _ _ width (by positivity) ?_ ?_
  · nlinarith [mul_lt_mul_of_pos_left hprod.2 hw']
  · nlinarith [mul_lt_mul_of_pos_left hprod.1 hw']

/-! ## The loop -/

/-- What holds of the loop's state before every pass, for every centered sequence with R129's bounds. -/
theorem timingRun_induct {c : Nat → Int} {count width den fuel : Nat} {l l' : TimingLoop}
    (P : TimingLoop → Prop)
    (hpass : ∀ l, P l → timingGuard count width l = true → P (timingPass c count width den l))
    (hrun : timingRun c count width den fuel l = some l') (hl : P l) :
    P l' ∧ timingGuard count width l' = false := by
  induction fuel generalizing l with
  | zero =>
    unfold timingRun at hrun
    split_ifs at hrun with hg
    cases hrun
    exact ⟨hl, by simpa using hg⟩
  | succ fuel ih =>
    unfold timingRun at hrun
    split_ifs at hrun with hg
    · exact ih hrun (hpass l hl hg)
    · cases hrun
      exact ⟨hl, by simpa using hg⟩

/-- The instants move on by at least one sample a pass: before every pass the next `mid` is at least `index`. -/
theorem timingPass_progress {c : Nat → Int} {count den : Nat} (hc : CenteredBounds c count den)
    {width : Nat} (hw : 1 ≤ width) (l : TimingLoop)
    (h : (l.index : Int) ≤ midInstant width l.index l.epsilon) :
    ((timingPass c count width den l).index : Int) ≤
      midInstant width (timingPass c count width den l).index
        (timingPass c count width den l).epsilon := by
  obtain ⟨hlo, -⟩ := phaseUpdate_abs_le hc width l.index l.epsilon hw
  simp only [timingPass, midInstant] at h ⊢
  push_cast
  have : (((l.index : Int) + 1) * width : Int) = l.index * width + width := by ring
  rw [this]
  omega

/-- The loop ends within `count` passes (R151 (h)): with R129's bounds the fuel is never used up. -/
theorem timingRun_isSome {c : Nat → Int} {count den : Nat} (hc : CenteredBounds c count den)
    {width : Nat} (hw : 1 ≤ width) (fuel : Nat) (l : TimingLoop) (hf : count ≤ l.index + fuel)
    (h : (l.index : Int) ≤ midInstant width l.index l.epsilon) :
    ∃ l', timingRun c count width den fuel l = some l' := by
  induction fuel generalizing l with
  | zero =>
    refine ⟨l, ?_⟩
    have : timingGuard count width l = false := by
      simp only [timingGuard, midInstant] at h ⊢
      rw [decide_eq_false_iff_not]
      omega
    simp [timingRun, this]
  | succ fuel ih =>
    by_cases hg : timingGuard count width l = true
    · rw [timingRun, if_pos hg]
      refine ih _ ?_ (timingPass_progress hc hw l h)
      simp only [timingPass]
      omega
    · exact ⟨l, by rw [timingRun, if_neg hg]⟩

/-- Where the guard fails at once no pass runs (R143). -/
theorem timingRun_of_guard_false {c : Nat → Int} {count width den : Nat} (fuel : Nat) {l : TimingLoop}
    (h : timingGuard count width l = false) : timingRun c count width den fuel l = some l := by
  cases fuel <;> simp [timingRun, h]

/-- The loop reads the centered sequence only inside the capture. -/
theorem phaseUpdate_congr {c d : Nat → Int} {count : Nat} (h : ∀ n < count, c n = d n)
    (width den index : Nat) (epsilon : Int) :
    phaseUpdate c count width den index epsilon = phaseUpdate d count width den index epsilon := by
  simp only [phaseUpdate, padRead_congr 0 count h]

theorem timingPass_congr {c d : Nat → Int} {count : Nat} (h : ∀ n < count, c n = d n)
    (width den : Nat) (l : TimingLoop) :
    timingPass c count width den l = timingPass d count width den l := by
  simp only [timingPass, phaseUpdate_congr h, padRead_congr 0 count h]

theorem timingRun_congr {c d : Nat → Int} {count : Nat} (h : ∀ n < count, c n = d n)
    (width den fuel : Nat) (l : TimingLoop) :
    timingRun c count width den fuel l = timingRun d count width den fuel l := by
  induction fuel generalizing l with
  | zero => rfl
  | succ fuel ih => simp only [timingRun, timingPass_congr h, ih]

/-- What a run of the loop from `index = 0`, `epsilon = 0` leaves: fewer symbols than samples, every output
entry listed, the memories in canonical form, nothing written when no pass ran. -/
structure TimingResult (count width : Nat) (m : Memory) (l : TimingLoop) : Prop where
  below : l.index = 0 ∨ l.index < count
  ended : timingGuard count width l = false
  clkListed : Listed l.clk l.index
  synListed : Listed l.syn l.index
  clkWf : Cells.wf Config.nMax m.clk = true → Cells.wf Config.nMax l.clk = true
  synWf : Cells.wf Config.nMax m.syn = true → Cells.wf Config.nMax l.syn = true
  none : l.index = 0 → l = timingInit m
  progress : (l.index : Int) ≤ midInstant width l.index l.epsilon

theorem Listed.write {α : Type} {m : Cells α} {n : Nat} (h : Listed m n) (v : α) :
    Listed (Cells.write m n v) (n + 1) := by
  intro j hj
  rw [Cells.read_write]
  split_ifs with he
  · rfl
  · exact h j (by omega)

theorem Listed.fill {α : Type} (m : Cells α) (f : Nat → α) (len : Nat) :
    Listed (Cells.fill m f len) len := by
  intro j hj
  simp [Cells.read_fill, hj]

/-- The loop's result on a sequence with R129's bounds: it ends, as `TimingResult` says. -/
theorem timingRun_result {c : Nat → Int} {count den : Nat} (hc : CenteredBounds c count den)
    {width : Nat} (hw : 1 ≤ width) (hcount : count ≤ Config.nMax) (m : Memory) :
    ∃ l, timingRun c count width den count (timingInit m) = some l ∧ TimingResult count width m l := by
  obtain ⟨l, hl⟩ := timingRun_isSome hc hw count (timingInit m) (by simp [timingInit])
    (by simp [timingInit, midInstant])
  refine ⟨l, hl, ?_⟩
  have key := timingRun_induct
    (P := fun l => (l.index = 0 → l = timingInit m) ∧
      (l.index : Int) ≤ midInstant width l.index l.epsilon ∧
      (l.index = 0 ∨ l.index < count) ∧
      Listed l.clk l.index ∧ Listed l.syn l.index ∧
      (Cells.wf Config.nMax m.clk = true → Cells.wf Config.nMax l.clk = true) ∧
      (Cells.wf Config.nMax m.syn = true → Cells.wf Config.nMax l.syn = true))
    ?_ hl ?_
  · obtain ⟨⟨h1, h2, h3, h4, h5, h6, h7⟩, h8⟩ := key
    exact ⟨h3, h8, h4, h5, h6, h7, h1, h2⟩
  · rintro l ⟨-, h2, h3, h4, h5, h6, h7⟩ hg
    have hlt : l.index + 1 < count := by
      simp only [timingGuard, midInstant, decide_eq_true_eq] at hg h2
      omega
    refine ⟨fun h => ?_, timingPass_progress hc hw l h2, .inr hlt, h4.write _, h5.write _,
      fun h => Cells.wf_write _ _ _ _ (by simp only [Config.nMax] at *; omega) (h6 h),
      fun h => Cells.wf_write _ _ _ _ (by simp only [Config.nMax] at *; omega) (h7 h)⟩
    simp [timingPass] at h
  · exact ⟨fun _ => rfl, by simp [timingInit, midInstant], .inl rfl,
      fun j hj => absurd hj (by simp [timingInit]), fun j hj => absurd hj (by simp [timingInit]),
      fun h => h, fun h => h⟩

/-! ## The loop, pass by pass -/

/-- The history of a loop: `eps k` is `epsilon` before pass `k`. Every pass met the guard (R143), updated
`epsilon` once (R146) and wrote its instant and sample (R148); no other entry was written; a loop of at least one
pass has set `W_TREC` (R149). -/
def LoopTrace (c : Nat → Int) (count width den : Nat) (m : Memory) (l : TimingLoop) (eps : Nat → Int) :
    Prop :=
  eps 0 = 0 ∧ eps l.index = l.epsilon ∧
    (∀ k < l.index, (k : Int) * width + eps k < (count : Int) - width ∧
      eps (k + 1) = eps k + phaseUpdate c count width den k (eps k) ∧
      Cells.read l.clk k = some (BitVec.ofInt 16 ((k : Int) * width + eps (k + 1))) ∧
      Cells.read l.syn k =
        some (BitVec.ofInt 64 (padRead 0 count c ((k : Int) * width + eps (k + 1))))) ∧
    (∀ n, l.index ≤ n →
      Cells.read l.clk n = Cells.read m.clk n ∧ Cells.read l.syn n = Cells.read m.syn n) ∧
    (1 ≤ width → 1 ≤ l.index → l.warn = true)

/-- All that a run of the loop from the start leaves, pass by pass. -/
theorem timingRun_trace {c : Nat → Int} {count width den fuel : Nat} {m : Memory} {l' : TimingLoop}
    (h : timingRun c count width den fuel (timingInit m) = some l') :
    ∃ eps, LoopTrace c count width den m l' eps ∧ timingGuard count width l' = false := by
  have := timingRun_induct (P := fun l => ∃ eps, LoopTrace c count width den m l eps) ?_ h ?_
  · obtain ⟨⟨e, h1⟩, h2⟩ := this; exact ⟨e, h1, h2⟩
  · rintro l ⟨eps, h0, h1, h2, h3, h4⟩ hg
    have hg' : (l.index : Int) * width + l.epsilon < (count : Int) - width := by simpa [timingGuard] using hg
    refine ⟨fun k => if k ≤ l.index then eps k
      else l.epsilon + phaseUpdate c count width den l.index l.epsilon, ?_, ?_, ?_, ?_, ?_⟩
    · simp [h0]
    · simp [timingPass]
    · intro k hk
      simp only [timingPass] at hk
      simp only
      by_cases hk' : k < l.index
      · obtain ⟨a, b, d, e⟩ := h2 k hk'
        rw [if_pos (by omega), if_pos (by omega)]
        refine ⟨a, b, ?_, ?_⟩
        · simp only [timingPass]; rw [Cells.read_write_of_ne _ _ (by omega)]; exact d
        · simp only [timingPass]; rw [Cells.read_write_of_ne _ _ (by omega)]; exact e
      · have : k = l.index := by omega
        subst this
        rw [if_pos le_rfl, if_neg (by omega), h1]
        refine ⟨hg', rfl, ?_, ?_⟩ <;> simp [timingPass, midInstant]
    · intro n hn
      simp only [timingPass] at hn ⊢
      rw [Cells.read_write_of_ne _ _ (by omega), Cells.read_write_of_ne _ _ (by omega)]
      exact h3 n (by omega)
    · intro hw _
      simp only [timingPass]
      by_cases h : 1 ≤ l.index
      · rw [h4 hw h]; rfl
      · have : l.index = 0 := by omega
        have he : l.epsilon = 0 := by rw [← h1, this, h0]
        have : outOfRange count (prevInstant width l.index l.epsilon) = true := by
          rw [outOfRange_iff, prevInstant, this, he]; left; push_cast; omega
        rw [this]; simp
  · exact ⟨fun _ => 0, rfl, rfl, fun k hk => absurd hk (by simp [timingInit]),
      fun n _ => ⟨rfl, rfl⟩, fun _ h => absurd h (by simp [timingInit])⟩

/-- What R129's bounds give along a trace (R151 (b), (c), (e), (g)): every instant is at least
`k·(sps - sps//2)` and below `N - sps + sps//2`, and every update is at most `sps//2`. -/
theorem LoopTrace.steps {c : Nat → Int} {count width den : Nat} {m : Memory} {l : TimingLoop}
    {eps : Nat → Int} (hc : CenteredBounds c count den) (hw : 1 ≤ width)
    (h : LoopTrace c count width den m l eps) : ∀ k < l.index,
      (k : Int) * ((width : Int) - (width / 2 : Nat)) ≤ k * width + eps (k + 1) ∧
      |eps (k + 1)| ≤ k * ((width / 2 : Nat) : Int) ∧ (k = 0 → eps (k + 1) = 0) ∧
      k * width + eps (k + 1) < (count : Int) - width + (width / 2 : Nat) ∧
      |eps (k + 1) - eps k| ≤ ((width / 2 : Nat) : Int) := by
  obtain ⟨h0, h1, h2, h3, h4⟩ := h
  intro k
  induction k with
  | zero =>
    intro hk
    obtain ⟨a, b, -, -⟩ := h2 0 hk
    have hz : eps 1 = 0 := by
      rw [b, h0]
      have : phaseUpdate c count width den 0 0 = 0 := by
        obtain ⟨p, q⟩ := phaseUpdate_abs_le hc width 0 0 hw
        by_cases h1 : width = 1
        · subst h1; simp at p q; omega
        · have he : outOfRange count (earlyInstant width 0 0) = true := by
            rw [outOfRange_iff, earlyInstant]; left; push_cast; omega
          have : padRead 0 count c (earlyInstant width 0 0) = 0 := by rw [padRead, if_pos he]
          simp only [phaseUpdate, this, mul_zero]
          apply roundDiv_zero
          have : (0:Int) < den := by have := hc.1; omega
          positivity
      omega
    simp only [zero_add, hz, h0] at *
    simp
    omega
  | succ k ih =>
    intro hk
    obtain ⟨i1, i2, i3, i4, i5⟩ := ih (by omega)
    obtain ⟨a, b, -, -⟩ := h2 (k+1) hk
    obtain ⟨p, q⟩ := phaseUpdate_abs_le hc width (k+1) (eps (k+1)) hw
    rw [abs_le] at *
    push_cast at *
    generalize hd : phaseUpdate c count width den (k+1) (eps (k+1)) = d at *
    generalize ((width:Int)/2) = hf at *
    have e1 : ((k:Int)+1) * (width - hf) = k * (width - hf) + width - hf := by ring
    have e2 : ((k:Int)+1) * width = k * width + width := by ring
    have e3 : ((k:Int)+1) * hf = k * hf + hf := by ring
    refine ⟨?_, ⟨?_, ?_⟩, ?_, ?_, ?_⟩ <;> first
      | omega
      | (intro hf0; exact absurd hf0 (by simp))
      | (rw [abs_le]; omega)

end Sys2Proof.Machine
end

