-- ==== Sys2Proof/Laws/Invariant.lean ====
section
/-! SUPPORT. How each shared operation treats the part of the invariant that speaks of flags, results and
memories: every stage body, every completion and every host event keeps it. -/

namespace Sys2Proof.Machine

/-- The part of `Inv` that stage bodies and host events have to keep: all but the sequencer, `BUSY`, `DONE` and
the recorded code, which `complete` sets. -/
structure DataInv (s : State) : Prop where
  chain : FlagChain s.valid
  guarded : CondGuarded s.valid s.cond
  memory : Memory.wf s.mem = true
  symbols : bitCount s < Config.nMax
  envelope : s.valid.env = true → EnvelopePresent s
  timing : s.valid.tr = true → TimingPresent s
  bitsListed : s.valid.bd = true → Listed s.mem.bits (bitCount s)
  profile : s.valid.prof = true → Listed s.mem.prof (bitCount s)
  sync : s.valid.fs = true → SyncPresent s
  payload : s.valid.pe = true → PayloadPresent s

theorem Inv.data {s : State} (h : Inv s) : DataInv s :=
  ⟨h.chain, h.guarded, h.memory, h.symbols, h.envelope, h.timing, h.bitsListed, h.profile, h.sync,
    h.payload⟩

theorem Inv.of_data {s : State} (h : DataInv s) (h1 : s.seq = .idle)
    (h2 : ¬(s.busy = true ∧ s.done = true)) (h3 : LegalRecord s.err s.errStage s.errSub) : Inv s :=
  ⟨h1, h2, h3, h.chain, h.guarded, h.memory, h.symbols, h.envelope, h.timing, h.bitsListed, h.profile,
    h.sync, h.payload⟩

/-- A centered sequence stays present when only the counter of free values and later fields move. -/
theorem EnvelopePresent.congr {s t : State} (hcfg : t.cfg = s.cfg) (hcent : t.mem.cent = s.mem.cent)
    (hden : t.res.envden = s.res.envden) (h : EnvelopePresent s) : EnvelopePresent t := by
  obtain ⟨h1, h2, h3, h4, h5⟩ := h
  have hc : ∀ n < sampleCount s.cfg, centAt t n = centAt s n := fun n hn => by
    rw [centAt, centAt, hcent, entryOr_congr s.mem.cent t.free s.free 2 n (h2 n hn)]
  refine ⟨hcfg ▸ h1, by rw [hcfg, hcent]; exact h2, ?_⟩
  rw [hcfg, hden]
  refine ⟨h3, fun n hn => ?_, fun n hn m hm => ?_⟩
  · rw [hc n hn]; exact h4 n hn
  · rw [hc n hn, hc m hm]; exact h5 n hn m hm

/-- Nothing the data invariant speaks of has changed. -/
theorem DataInv.congr {s t : State} (hv : t.valid = s.valid) (hc : t.cond = s.cond)
    (hcfg : t.cfg = s.cfg) (hres : t.res = s.res) (hmem : t.mem = s.mem) (h : DataInv s) :
    DataInv t := by
  have hb : bitCount t = bitCount s := by simp only [bitCount, hres]
  refine ⟨hv ▸ h.chain, hv ▸ hc ▸ h.guarded, hmem ▸ h.memory, hb ▸ h.symbols, fun hh => ?_,
    fun hh => ?_, fun hh => ?_, fun hh => ?_, fun hh => ?_, fun hh => ?_⟩ <;> rw [hv] at hh
  · exact (h.envelope hh).congr hcfg (by rw [hmem]) (by rw [hres])
  · have := h.timing hh
    simpa only [TimingPresent, hb, hcfg, hmem] using this
  · rw [hmem, hb]; exact h.bitsListed hh
  · rw [hmem, hb]; exact h.profile hh
  · have := h.sync hh
    simpa only [SyncPresent, hb, hcfg, hres] using this
  · have := h.payload hh
    simpa only [PayloadPresent, hb, hcfg, hmem, hres] using this

theorem FlagChain.clearFrom {v : Valid} (st : Stage) (h : FlagChain v) : FlagChain (v.clearFrom st) := by
  obtain ⟨h1, h2, h3, h4, h5⟩ := h
  cases st <;> simp_all [FlagChain, Valid.clearFrom]

theorem CondGuarded.clearFrom {v : Valid} {c : Cond} (st : Stage) (h : CondGuarded v c) :
    CondGuarded (v.clearFrom st) (c.clearFrom st) := by
  obtain ⟨h1, h2, h3⟩ := h
  cases st <;> simp_all [CondGuarded, Valid.clearFrom, Cond.clearFrom]

/-- A host write to an input of the envelope stage (R28): every flag is cleared. -/
theorem DataInv.invalidate_env {s t : State} (hv : t.valid = s.valid.clearFrom .env)
    (hc : t.cond = s.cond.clearFrom .env) (hmem : Memory.wf t.mem = true)
    (hsym : bitCount t < Config.nMax) : DataInv t := by
  refine ⟨?_, ?_, hmem, hsym, fun hh => ?_, fun hh => ?_, fun hh => ?_, fun hh => ?_, fun hh => ?_,
    fun hh => ?_⟩ <;> rw [hv] at *
  · simp [FlagChain, Valid.clearFrom]
  · rw [hc]; simp [CondGuarded, Valid.clearFrom, Cond.clearFrom]
  all_goals simp [Valid.clearFrom] at hh

/-- A host write to an input of the frame-sync stage (R28), or that stage's start (R229, R230): the flags of
stages 4 and 5 are cleared; the rates, the sample count and the earlier results stay. -/
theorem DataInv.invalidate_fsync {s t : State} (hv : t.valid = s.valid.clearFrom .fsync)
    (hc : t.cond = s.cond.clearFrom .fsync) (hmem : t.mem = s.mem)
    (hfs : t.cfg.fs = s.cfg.fs) (hbr : t.cfg.br = s.cfg.br) (hn : t.cfg.nsamp = s.cfg.nsamp)
    (hden : t.res.envden = s.res.envden) (hbits : t.res.nbits = s.res.nbits) (h : DataInv s) :
    DataInv t := by
  have hb : bitCount t = bitCount s := by simp only [bitCount, hbits]
  have hsps : sps t.cfg = sps s.cfg := by simp only [sps, hfs, hbr]
  have hcount : sampleCount t.cfg = sampleCount s.cfg := by simp only [sampleCount, hn]
  refine ⟨hv ▸ h.chain.clearFrom _, hv ▸ hc ▸ h.guarded.clearFrom _, hmem ▸ h.memory,
    hb ▸ h.symbols, fun hh => ?_, fun hh => ?_, fun hh => ?_, fun hh => ?_, fun hh => ?_,
    fun hh => ?_⟩ <;> rw [hv] at hh
  · obtain ⟨⟨h1, h1'⟩, h2, h3, h4, h5⟩ := h.envelope hh
    have hcent : ∀ n < sampleCount s.cfg, centAt t n = centAt s n := fun n hn => by
      rw [centAt, centAt, hmem, entryOr_congr s.mem.cent t.free s.free 2 n (h2 n hn)]
    refine ⟨⟨hsps ▸ h1, hcount ▸ h1'⟩, by rw [hcount, hmem]; exact h2, ?_⟩
    rw [hcount, hden]
    refine ⟨h3, fun n hn => ?_, fun n hn m hm => ?_⟩
    · rw [hcent n hn]; exact h4 n hn
    · rw [hcent n hn, hcent m hm]; exact h5 n hn m hm
  · have := h.timing hh
    simpa only [TimingPresent, hb, hcount, hmem] using this
  · rw [hmem, hb]; exact h.bitsListed hh
  all_goals simp [Valid.clearFrom] at hh

/-- A host write to `PAYSZ` (R28), or PEXT's start (R229): only `PE_VALID` is cleared. -/
theorem DataInv.invalidate_pext {s t : State} (hv : t.valid = s.valid.clearFrom .pext)
    (hc : t.cond = s.cond.clearFrom .pext) (hmem : t.mem = s.mem) (hres : t.res = s.res)
    (hcfg : ∃ p, t.cfg = { s.cfg with paysz := p }) (h : DataInv s) : DataInv t := by
  obtain ⟨p, hcfg⟩ := hcfg
  have hb : bitCount t = bitCount s := by simp only [bitCount, hres]
  have hsps : sps t.cfg = sps s.cfg := by simp only [sps, hcfg]
  have hcount : sampleCount t.cfg = sampleCount s.cfg := by simp only [sampleCount, hcfg]
  have hhalf : halfPat t.cfg = halfPat s.cfg := by simp only [halfPat, patLen, hcfg]
  refine ⟨hv ▸ h.chain.clearFrom _, hv ▸ hc ▸ h.guarded.clearFrom _, hmem ▸ h.memory,
    hb ▸ h.symbols, fun hh => ?_, fun hh => ?_, fun hh => ?_, fun hh => ?_, fun hh => ?_,
    fun hh => ?_⟩ <;> rw [hv] at hh
  · obtain ⟨⟨h1, h1'⟩, h2, h3, h4, h5⟩ := h.envelope hh
    have hcent : ∀ n < sampleCount s.cfg, centAt t n = centAt s n := fun n hn => by
      rw [centAt, centAt, hmem, entryOr_congr s.mem.cent t.free s.free 2 n (h2 n hn)]
    refine ⟨⟨hsps ▸ h1, hcount ▸ h1'⟩, by rw [hcount, hmem]; exact h2, ?_⟩
    rw [hcount, hres]
    refine ⟨h3, fun n hn => ?_, fun n hn m hm => ?_⟩
    · rw [hcent n hn]; exact h4 n hn
    · rw [hcent n hn, hcent m hm]; exact h5 n hn m hm
  · have := h.timing hh
    simpa only [TimingPresent, hb, hcount, hmem] using this
  · rw [hmem, hb]; exact h.bitsListed hh
  · rw [hmem, hb]; exact h.profile hh
  · have := h.sync hh
    simpa only [SyncPresent, hb, hhalf, hres] using this
  · simp [Valid.clearFrom] at hh

/-! ## The stage bodies -/

theorem DataInv.envDone {s : State} (hr : RatesChecked s.cfg) (h : DataInv s) : DataInv (envDone s) := by
  refine ⟨?_, ?_, ?_, h.symbols, fun _ => envelopePresent_envDone s hr, ?_, ?_, ?_, ?_, ?_⟩
  · simp [FlagChain, Valid.clearFrom]
  · simp [CondGuarded, Valid.clearFrom]
  · have hm := (Memory.wf_iff _).mp h.memory
    rw [envDone_mem]
    exact (Memory.wf_iff _).mpr ⟨hm.1, Cells.wf_fill _ _ _ _ hr.2 hm.2.1, hm.2.2⟩
  all_goals simp [Valid.clearFrom]

/-- What TREC's loop answers on a present centered sequence: it ends, as `TimingResult` says. -/
theorem timingOf_result {s : State} (h : EnvelopePresent s) :
    ∃ l, timingOf s = some l ∧ TimingResult (sampleCount s.cfg) (sps s.cfg) s.mem l :=
  timingRun_result h.2.2 h.1.1 h.1.2 s.mem

theorem DataInv.trecRaised {s : State} (h : DataInv s) :
    DataInv (discardWork (beginStage .trec s)) := by
  refine ⟨h.chain.clearFrom .trec, h.guarded.clearFrom .trec, h.memory, ?_, fun hh => ?_, ?_, ?_, ?_,
    ?_, ?_⟩
  · simp [bitCount, Results.clearOf]
  · exact EnvelopePresent.congr (s := s) rfl rfl rfl (h.envelope hh)
  all_goals simp [Valid.clearFrom]

theorem DataInv.trecDone {s : State} {l : TimingLoop} (henv : s.valid.env = true)
    (hl : TimingResult (sampleCount s.cfg) (sps s.cfg) s.mem l) (h0 : l.index ≠ 0) (h : DataInv s) :
    DataInv (trecDone s l) := by
  have hp := h.envelope henv
  have hlt : l.index < sampleCount s.cfg := hl.below.resolve_left h0
  have hN : sampleCount s.cfg ≤ 65536 := hp.1.2
  have hb : bitCount (Machine.trecDone s l) = l.index := by
    simp only [bitCount, trecDone_res, BitVec.toNat_ofNat]
    omega
  refine ⟨?_, ?_, ?_, ?_, fun _ => EnvelopePresent.congr (s := s) rfl rfl rfl hp, fun _ => ?_, ?_, ?_, ?_, ?_⟩
  · simp [FlagChain, Valid.clearFrom, henv]
  · have := h.guarded
    simp [CondGuarded, Valid.clearFrom, Cond.clearFrom, henv]
  · have hm := (Memory.wf_iff _).mp h.memory
    rw [trecDone_mem]
    exact (Memory.wf_iff _).mpr
      ⟨hm.1, hm.2.1, hl.clkWf hm.2.2.1, hl.synWf hm.2.2.2.1, hm.2.2.2.2⟩
  · rw [hb]; simp only [Config.nMax]; omega
  · refine ⟨by omega, by rw [hb]; exact hlt, ?_, ?_⟩
    · rw [hb, trecDone_mem]; exact hl.clkListed
    · rw [hb, trecDone_mem]; exact hl.synListed
  all_goals simp [Valid.clearFrom]

theorem DataInv.bdecDone {s : State} (htr : s.valid.tr = true) (h : DataInv s) :
    DataInv (bdecDone s) := by
  have henv := h.chain.1 htr
  have hg := h.guarded
  refine ⟨?_, ?_, ?_, h.symbols, fun hh => EnvelopePresent.congr (s := s) rfl rfl rfl (h.envelope hh), fun hh => h.timing hh,
    fun _ => Listed.fill _ _ _, ?_, ?_, ?_⟩
  · simp [FlagChain, Valid.clearFrom, henv, htr]
  · simp_all [CondGuarded, Valid.clearFrom, Cond.clearFrom]
  · have hm := (Memory.wf_iff _).mp h.memory
    rw [bdecDone_mem]
    exact (Memory.wf_iff _).mpr
      ⟨hm.1, hm.2.1, hm.2.2.1, hm.2.2.2.1, Cells.wf_fill _ _ _ _ h.symbols.le hm.2.2.2.2.1,
        hm.2.2.2.2.2⟩
  all_goals simp [Valid.clearFrom]

theorem DataInv.profiled {s : State} (hbd : s.valid.bd = true) (h : DataInv s) :
    DataInv (profiled s) := by
  have htr := h.chain.2.1 hbd
  have henv := h.chain.1 htr
  have hg := h.guarded
  refine ⟨?_, ?_, ?_, h.symbols, fun hh => EnvelopePresent.congr (s := s) rfl rfl rfl (h.envelope hh), fun hh => h.timing hh,
    fun hh => h.bitsListed hh, fun _ => Listed.fill _ _ _, ?_, ?_⟩
  · simp [FlagChain, Valid.clearFrom, henv, htr, hbd]
  · simp_all [CondGuarded, Valid.clearFrom, Cond.clearFrom]
  · have hm := (Memory.wf_iff _).mp h.memory
    rw [profiled_mem]
    exact (Memory.wf_iff _).mpr
      ⟨hm.1, hm.2.1, hm.2.2.1, hm.2.2.2.1, hm.2.2.2.2.1,
        Cells.wf_fill _ _ _ _ h.symbols.le hm.2.2.2.2.2.1, hm.2.2.2.2.2.2⟩
  all_goals simp [Valid.clearFrom]

theorem DataInv.fsyncDone {s : State} (hbd : s.valid.bd = true) (hp : s.cfg.policy ≠ 3#2)
    (hsw : s.cfg.swlen.toNat ≤ Config.swMax) (hf : (scanOf (Machine.profiled s)).found = true)
    (h : DataInv s) : DataInv (fsyncDone s (scanOf (Machine.profiled s))) := by
  have hpr := h.profiled hbd
  have htr := h.chain.2.1 hbd
  have henv := h.chain.1 htr
  have hsym := h.symbols
  have hL := patLen_lt hsw
  refine ⟨?_, ?_, hpr.memory, h.symbols, fun hh => EnvelopePresent.congr (s := s) rfl rfl rfl (h.envelope hh),
    fun hh => h.timing hh, fun hh => h.bitsListed hh, fun _ => Listed.fill _ _ _, fun _ => ?_, ?_⟩
  · simp [FlagChain, Valid.clearFrom, henv, htr, hbd]
  · have := hpr.guarded
    simp_all [CondGuarded, Valid.clearFrom, Cond.clearFrom]
  · rcases scanUpTo_cases (profAt (Machine.profiled s)) s.cfg.th.toNat s.cfg.policy (halfPat s.cfg)
      (bitCount s - 2) hp with ⟨hn, -⟩ | ⟨-, h1, h2, -, h4⟩
    · exact absurd hf (by rw [Bool.not_eq_true]; exact hn)
    · have e : scanOf (Machine.profiled s) = scanUpTo (profAt (Machine.profiled s)) s.cfg.th.toNat
        s.cfg.policy (halfPat s.cfg) (bitCount s - 2) := rfl
      have hhalf : halfPat s.cfg ≤ 1052 := by simp only [halfPat]; omega
      simp only [Config.nMax] at hsym
      simp only [SyncPresent, fsyncDone_res, fsyncDone_cfg, bitCount, BitVec.toNat_ofNat, e]
      simp only [bitCount] at h1 h2 h4 hsym ⊢
      omega
  · simp [Valid.clearFrom]

theorem DataInv.pextDone {s : State} (hfs : s.valid.fs = true)
    (hlen : s.res.paystart.toNat + 8 * s.cfg.paysz.toNat ≤ bitCount s) (h : DataInv s) :
    DataInv (pextDone s) := by
  refine ⟨?_, h.guarded, ?_, h.symbols, fun hh => EnvelopePresent.congr (s := s) rfl rfl rfl (h.envelope hh),
    fun hh => h.timing hh, fun hh => h.bitsListed hh, fun hh => h.profile hh, fun hh => h.sync hh,
    fun _ => ⟨hlen, Listed.fill _ _ _⟩⟩
  · obtain ⟨h1, h2, h3, h4, -⟩ := h.chain
    exact ⟨h1, h2, h3, h4, fun _ => hfs⟩
  · have hm := (Memory.wf_iff _).mp h.memory
    have := h.symbols
    rw [pextDone_mem]
    refine (Memory.wf_iff _).mpr
      ⟨hm.1, hm.2.1, hm.2.2.1, hm.2.2.2.1, hm.2.2.2.2.1, hm.2.2.2.2.2.1,
        Cells.wf_fill _ _ _ _ ?_ hm.2.2.2.2.2.2⟩
    simp only [Config.nMax, Config.payDepth] at *
    omega

end Sys2Proof.Machine
end

