-- ==== Sys2Proof/Laws/PerInstr.lean ====
section
/-! SUPPORT. Statements made once per command: each word of the opcode table is read back as its command. -/

namespace Sys2Proof.Laws

/-- The command's word (30_encoding.md R93), handed to the decoder as the table numbers its bits, gives the
command; its upper sixty bits are 0 (R91) and its low four are the operation code. -/
def TableWord.Statement (i : Instr) : Prop :=
  decodeTableWord 64 (encode i).toNat = some i ∧ decode (encode i) = .command i ∧
    zeroField (encode i) = 0#60 ∧ opField (encode i) = opcode i ∧ i.wf = true

theorem TableWord.env : TableWord.Statement .env := by unfold TableWord.Statement; decide
theorem TableWord.trec : TableWord.Statement .trec := by unfold TableWord.Statement; decide
theorem TableWord.bdec : TableWord.Statement .bdec := by unfold TableWord.Statement; decide
theorem TableWord.fsync : TableWord.Statement .fsync := by unfold TableWord.Statement; decide
theorem TableWord.pext : TableWord.Statement .pext := by unfold TableWord.Statement; decide
theorem TableWord.run : TableWord.Statement .run := by unfold TableWord.Statement; decide
theorem TableWord.clr : TableWord.Statement .clr := by unfold TableWord.Statement; decide

end Sys2Proof.Laws
end

