-- ==== Sys2Proof/Laws/Rules.lean ====
section
/-! SUPPORT. The model's functions are the rules' own formulas (Safety.lean): legality, amplitude, window sums,
`Smax`, `T`, scores, qualifying positions. One lemma each, so that a statement is met without unfolding either. -/

namespace Sys2Proof.Machine

/-- The configuration check finds nothing exactly when the configuration is legal (R254). -/
theorem legalConfig_iff (c : Cfg) : LegalConfig c ↔ configCheck c = none :=
  (configCheck_eq_none_iff c).symm

theorem isqrt_eq_sqrt (m : Nat) : isqrt m = Nat.sqrt m := by
  obtain ⟨h1, h2⟩ := isqrtBits_spec (m.log2 / 2 + 1) m 0 (by simp) (lt_isqrt_start m)
  exact (Nat.eq_sqrt.mpr ⟨h1, h2⟩)

theorem amplitude_eq_rule (s : State) (n : Nat) : amplitude s n = ruleAmplitude s n := by
  simp only [amplitude, ruleAmplitude, mag, magWith, isqrt_eq_sqrt, Config.magFrac, pow_zero, mul_one,
    pow_two]

/-- The zero-padding read as an `if` over the range (R70). -/
theorem padRead_eq_ite {α : Type} (zero : α) (len : Nat) (rd : Nat → α) (j : Int) :
    padRead zero len rd j = if 0 ≤ j ∧ j < len then rd j.toNat else zero := by
  by_cases h : outOfRange len j = true
  · have h' := (outOfRange_iff _ _).mp h
    rw [padRead, if_pos h, if_neg (by omega)]
  · have h' := (outOfRange_eq_false_iff _ _).mp (by simpa using h)
    rw [padRead, if_neg h, if_pos h']

theorem captureSum_eq_rule (s : State) : captureSum s = ruleWindow s := by
  funext n
  simp only [captureSum, windowSum, ruleWindow, sumUpTo_eq_sum, padRead_eq_ite, amplitude_eq_rule]

theorem maxUpTo_eq_sup (f : Nat → Nat) (n : Nat) : maxUpTo f n = (Finset.range n).sup f := by
  induction n with
  | zero => rfl
  | succ k ih => rw [maxUpTo, ih, Finset.range_add_one, Finset.sup_insert, max_comm]

/-- `Smax`, `T`, `D` and `ENV_ZERO` of the capture are the rules' (R125, R127, R128). -/
theorem envelopeOf_eq_rule (s : State) :
    envelopeOf (sampleCount s.cfg) (captureSum s) =
      { smax := ruleMax s
        total := ruleTotal s
        den := if ruleMax s = 0 then 1 else sampleCount s.cfg * ruleMax s
        zero := decide (ruleMax s = 0) } := by
  simp only [envelopeOf, maxUpTo_eq_sup, sumUpTo_eq_sum, captureSum_eq_rule, ruleMax, ruleTotal]
  rfl

/-- `C[n]` of the capture is the rules' (R127, R128). -/
theorem centered_eq_rule (s : State) (n : Nat) :
    centered (sampleCount s.cfg) (envelopeOf (sampleCount s.cfg) (captureSum s)) (captureSum s) n =
      if ruleMax s = 0 then 0 else (sampleCount s.cfg : Int) * ruleWindow s n - ruleTotal s := by
  rw [envelopeOf_eq_rule, captureSum_eq_rule]
  simp only [centered, decide_eq_true_eq]

theorem padRead_centAt (s : State) (j : Int) :
    padRead 0 (sampleCount s.cfg) (centAt s) j = ruleCentAt s j := by
  rw [padRead_eq_ite, ruleCentAt]

/-- The score of position `i` is the rule's (R184). -/
theorem score_eq_rule (s : State) (i : Nat) :
    score (bitAt s) (bitCount s) (patBit s.cfg s.syncw) (patLen s.cfg) i = ruleScore s i := by
  simp only [score, ruleScore, sumUpTo_eq_sum, padRead_eq_ite, corrIndex]

/-- `W_FSYNC` (R185): some read lies outside exactly when there is a bit and a pattern. -/
theorem corrWarn_eq_rule (s : State) :
    corrWarn (bitCount s) (patLen s.cfg) = decide (1 ≤ bitCount s ∧ 8 ≤ patLen s.cfg) := by
  have h8 : patLen s.cfg % 8 = 0 := by simp only [patLen]; omega
  rw [Bool.eq_iff_iff, corrWarn, anyUpTo_iff, decide_eq_true_eq]
  constructor
  · rintro ⟨i, hi, h⟩
    obtain ⟨j, hj, -⟩ := (anyUpTo_iff _ _).mp h
    omega
  · rintro ⟨h1, h2⟩
    refine ⟨0, h1, (anyUpTo_iff _ _).mpr ⟨0, by omega, ?_⟩⟩
    rw [outOfRange_iff, corrIndex]
    left
    push_cast
    omega

/-- A scanned position qualifies in the profile FSYNC has just written exactly when the rule says so (R186). -/
theorem qualifies_iff_eligible (s : State) (h : s.cfg.swlen.toNat ≤ Config.swMax) (i : Nat) (h1 : 1 ≤ i)
    (h2 : i ≤ bitCount s - 2) :
    qualifies (profAt (profiled s)) s.cfg.th.toNat i = true ↔ Eligible s i := by
  have e : ∀ k < bitCount s, profAt (profiled s) k = ruleScore s k := fun k hk => by
    rw [profAt_profiled s h k hk, score_eq_rule]
  rw [qualifies, e i (by omega), e (i - 1) (by omega), e (i + 1) (by omega)]
  simp only [Bool.and_eq_true, decide_eq_true_eq, Eligible]
  constructor
  · rintro ⟨⟨a, b⟩, c⟩; exact ⟨h1, by omega, a, b, c⟩
  · rintro ⟨-, -, a, b, c⟩; exact ⟨⟨a, b⟩, c⟩

theorem patternOnes_le (s : State) : patternOnes s ≤ patLen s.cfg := by
  have : patternOnes s ≤ ∑ _j ∈ Finset.range (patLen s.cfg), 1 :=
    Finset.sum_le_sum fun j _ => Bool.toNat_le _
  simpa using this

theorem ruleScore_le (s : State) (i : Nat) : ruleScore s i ≤ patternOnes s := by
  refine Finset.sum_le_sum fun j _ => ?_
  have : ∀ b ≤ 1, b * (patBit s.cfg s.syncw j).toNat ≤ (patBit s.cfg s.syncw j).toNat := by
    intro b hb
    calc _ ≤ 1 * (patBit s.cfg s.syncw j).toNat := Nat.mul_le_mul_right _ hb
      _ = _ := one_mul _
  refine this _ ?_
  split_ifs
  · exact bitAt_le_one s _
  · omega

end Sys2Proof.Machine
end

