-- ==== Sys2Proof/Tests/Slice0.lean ====
section
/-! SUPPORT. Named tests: the checks of WellFormed, the command words written out from 30_encoding.md R93, single
steps on the vectors of spec/95_test_vectors.md and on the examples of the rules, and for every obligation with
hypotheses a concrete state that meets them all. -/

namespace Sys2Proof.Tests

-- One theorem at a time: kernel evaluations that wait for each other would each hold a thread's stack.
set_option Elab.async false

open Sys2Proof.Machine

/-! ## Helpers -/

/-- The memory whose first entries are the list. -/
def cells {α : Type} (l : List α) : Cells α := l.zipIdx.map fun x => (x.2, x.1)

/-- The next state of an outcome. -/
def after (o : Host.Outcome State Fault Refusal) : State :=
  match o with
  | .next t => t
  | .fault _ => State.reset
  | .refused _ => State.reset

/-- Whether the outcome is a next state. -/
def goesOn (o : Host.Outcome State Fault Refusal) : Bool :=
  match o with
  | .next _ => true
  | .fault _ => false
  | .refused _ => false

/-- A capture of samples `(a, 0)` with a configuration. -/
def captureOf (c : Cfg) (a : List Nat) : State :=
  { State.reset with
    cfg := { c with nsamp := BitVec.ofNat 17 a.length }
    mem := { State.reset.mem with iq := cells (a.map fun x => { i := BitVec.ofNat 16 x, q := 0#16 }) } }

/-- A legal configuration (R254): `sps = fs`, one payload byte. -/
def legalCfg (fs : Nat) : Cfg := { State.reset.cfg with fs := BitVec.ofNat 32 fs, br := 1#32, paysz := 1#16 }

/-- The first `n` entries of a memory, as signed integers. -/
def signedEntries {w : Nat} (m : Cells (BitVec w)) (n : Nat) : List Int :=
  (List.range n).map fun k => ((Cells.read m k).getD 0#w).toInt

/-- The first `n` entries of a memory, as unsigned integers. -/
def entries {w : Nat} (m : Cells (BitVec w)) (n : Nat) : List Nat :=
  (List.range n).map fun k => ((Cells.read m k).getD 0#w).toNat

/-- The capture of vector P3 (V22): `sps = 3`, `N = 11`. -/
def cap3 : State := captureOf (legalCfg 3) [0, 0, 1, 0, 0, 0, 0, 0, 0, 0, 1]

def env3 : State := after (exec .env cap3)

def trec3 : State := after (exec .trec env3)

/-- A capture at one sample per bit: a one-bit pattern at bit 1, then the byte 0x5A from bit 9. -/
def cap1 : State :=
  captureOf { legalCfg 1 with pre := 0x80#8, npre := 1#8, th := 0#16, policy := 0#2 }
    [0, 1, 0, 0, 0, 0, 0, 0, 0, 0, 1, 0, 1, 1, 0, 1, 0, 0]

def done1 : State := after (exec .run cap1)

/-- The state-level start of the FSYNC vectors: `BD_VALID` and the flags above, `BITMEM`, `PRE = 0xAA`,
`NPRE = 1`. -/
def bitsState (b : List Nat) (th : Nat) (policy : BitVec 2) : State :=
  { State.reset with
    cfg := { legalCfg 3 with npre := 1#8, th := BitVec.ofNat 16 th, policy := policy }
    valid := { env := true, tr := true, bd := true, prof := false, fs := false, pe := false }
    cond := { envZero := false, wTrec := true, wFsync := false }
    res := { State.reset.res with nbits := BitVec.ofNat 17 b.length }
    mem := { State.reset.mem with bits := cells (b.map fun x => BitVec.ofNat 1 x) } }

/-- The bits of vector V40. -/
def b40 : List Nat := [0, 0, 0, 0, 1, 0, 1, 0, 1, 0, 1, 0, 0, 0, 0, 0]

/-- The state-level start of the PEXT vectors V50. -/
def pextState (start n : Nat) : State :=
  let s := bitsState [1, 1, 0, 0, 0, 0, 1, 0, 0, 1, 0, 0, 0, 1, 1, 0, 1, 0, 0, 1] 3 1#2
  { s with
    cfg := { s.cfg with paysz := BitVec.ofNat 16 n }
    valid := { s.valid with prof := true, fs := true }
    res := { s.res with paystart := BitVec.ofNat 18 start } }

/-! ## WellFormed: an ill-formed record for each check of R6 -/

theorem test_wf_defaults : Params.wf Config.params = true := by decide
theorem test_wf_iqW_small : Params.wf { Config.params with iqW := 1 } = false := by decide
theorem test_wf_iqW_large : Params.wf { Config.params with iqW := 33, hostW := 80 } = false := by decide
theorem test_wf_aw_small : Params.wf { Config.params with aw := 2 } = false := by decide
theorem test_wf_aw_large : Params.wf { Config.params with aw := 21 } = false := by decide
theorem test_wf_rateW : Params.wf { Config.params with rateW := 65 } = false := by decide
theorem test_wf_swMax_zero : Params.wf { Config.params with swMax := 0 } = false := by decide
theorem test_wf_swMax_large : Params.wf { Config.params with swMax := 256 } = false := by decide
theorem test_wf_thW : Params.wf { Config.params with thW := 65 } = false := by decide
theorem test_wf_hostW_sum : Params.wf { Config.params with hostW := 48 } = false := by decide
theorem test_wf_hostW_pair :
    Params.wf { Config.params with iqW := 32, aw := 3, hostW := 63 } = false := by decide
theorem test_wf_hostW_status :
    Params.wf { Config.params with iqW := 2, aw := 3, hostW := 26 } = false := by decide

/-! ## Words, written out from R93 and R95 -/

theorem test_word_env : decode 0x0000000000000001#64 = .command .env := by decide
theorem test_word_trec : decode 0x0000000000000002#64 = .command .trec := by decide
theorem test_word_bdec : decode 0x0000000000000003#64 = .command .bdec := by decide
theorem test_word_fsync : decode 0x0000000000000004#64 = .command .fsync := by decide
theorem test_word_pext : decode 0x0000000000000005#64 = .command .pext := by decide
theorem test_word_run : decode 0x0000000000000006#64 = .command .run := by decide
theorem test_word_clr : decode 0x0000000000000007#64 = .command .clr := by decide
theorem test_word_reserved :
    [0x0#64, 0x8#64, 0x9#64, 0xF#64, 0x10#64, 0x11#64, 0x8000000000000001#64].map decode =
      List.replicate 7 .illegal := by decide

/-! ## Host lines (R104, R105) -/

theorem test_line_fs : lineWr 0 0x04 8#64 = .write 0x000004#24 0x0000000000000008#64 := by decide
theorem test_line_iq :
    lineWr 1 3 (pairWord 600 800) = .write 0x100003#24 0x0000032000000258#64 := by decide
theorem test_line_negative : pairWord (-3) 4 = 0x000000040000FFFD#64 := by decide
/-- An index that 20 bits do not hold is the model's choice (log 9). -/
theorem test_line_wide_index : lineRd 1 (2 ^ 20 + 5) = .read 0x100005#24 := by decide
theorem test_line_rd : lineRd 7 0 = .read 0x700000#24 := by decide
theorem test_syncword_line :
    lineSyncword ['D', 'B', '6', 'A'] =
      some [.write 0x00000A#24 2#64, .write 0x800000#24 0xDB#64, .write 0x800001#24 0x6A#64] := by
  decide
theorem test_syncword_refused :
    lineSyncword ['G'] = none ∧ lineSyncword (List.replicate 17 'A') = none ∧
      linePreamble ['A', 'A', 'A'] 2#64 = none := by decide
/-- Letters of a displayed byte: upper case, the model's choice (log 8). -/
theorem test_display_letters : displayByte 0xAF#8 = ['0', 'x', 'A', 'F'] := by decide

theorem test_demod_line :
    lineDemod 0 = [.write 0x000001#24 6#64, .core, .read 0x000002#24, .demodReads] := by decide

/-- The decision in `DEMOD`: reads after `STATUS` with `ERR = 0`, none after NOSYNC or a refused read. -/
theorem test_demod_decision :
    let s := { State.reset with cfg := { State.reset.cfg with paysz := 2#16 } }
    demodDecision { s with resp := some (.data 0x63F0602#64) } = [.read 0x700000#24, .read 0x700001#24] ∧
      demodDecision { s with resp := some (.data 0x60F0632#64) } = [] ∧
      demodDecision { s with resp := some .err } = [] := by decide

theorem test_exec_line :
    lineExec .run 1 =
      [.write 0x000001#24 6#64, .read 0x000002#24, .core, .read 0x000002#24] := by decide

/-! ## ENV: R131, and P3 -/

/-- R131 with `sps = 2`: the window leans back (R124). -/
theorem test_env_sps2 :
    let t := after (exec .env (captureOf (legalCfg 2) [5, 0, 10, 13, 0, 0, 17, 25]))
    signedEntries t.mem.cent 8 = [-75, -75, -35, 69, -11, -115, 21, 221] ∧
      t.res.envsum = 115#64 ∧ t.res.envden = 336#64 := by decide +kernel

/-- V14: the largest amplitude, and floors. -/
theorem test_env_extremes :
    let s := captureOf (legalCfg 2) [0, 0, 0]
    let s := { s with mem := { s.mem with
      iq := cells [{ i := 1#16, q := 1#16 }, { i := 2#16, q := 2#16 }, { i := 0x8000#16, q := 0x8000#16 }] } }
    signedEntries (after (exec .env s)).mem.cent 3 = [-46343, -46337, 92680] := by decide +kernel

/-! ## TREC: R155 and R147 -/

theorem test_trec_r155 :
    entries trec3.mem.clk 4 = [0, 2, 4, 7] ∧ signedEntries trec3.mem.syn 4 = [-5, 6, -5, -5] ∧
      trec3.res.nbits = 4#17 ∧ trec3.res.eps.toInt = -2 ∧ trec3.cond.wTrec = true := by decide +kernel

/-- The tie rule that is not the default (R147). -/
theorem test_round_half_away :
    roundDivWith .halfAway 5 2 = 3 ∧ roundDivWith .halfAway (-5) 2 = -3 := by decide

/-! ## BDEC: V30 -/

theorem test_bdec_v30 :
    let s := { trec3 with
      res := { trec3.res with nbits := 8#17 }
      mem := { trec3.mem with syn := cells ([-5, 6, 0, 1, -1, 0, 856000, -368000].map (BitVec.ofInt 64)) } }
    entries (after (exec .bdec s)).mem.bits 8 = [0, 1, 0, 1, 0, 0, 1, 0] := by decide +kernel

/-! ## FSYNC: V40 and V42 -/

theorem test_fsync_v40 :
    let t := after (exec .fsync (bitsState b40 2 2#2))
    entries t.mem.prof 16 = [0, 0, 1, 0, 2, 0, 3, 0, 4, 0, 3, 0, 2, 0, 1, 0] ∧
      t.res.syncidx = 8#17 ∧ t.res.paystart = 12#18 := by decide +kernel

theorem test_fsync_policies :
    [0#2, 1#2, 2#2].map (fun p => (after (exec .fsync (bitsState
        (b40 ++ [0, 0, 0, 0, 1, 0, 1, 0, 1, 0, 0, 0, 0, 0, 0, 0]) 2 p))).res.syncidx) =
      [6#17, 24#17, 8#17] := by decide +kernel

/-! ## PEXT: V50 -/

theorem test_pext_v50 :
    entries (after (exec .pext (pextState 3 2))).mem.pay 2 = [0x12, 0x34] ∧
      entries (after (exec .pext (pextState 4 2))).mem.pay 2 = [0x24, 0x69] := by decide +kernel

theorem test_pext_too_long : errinfoWord (after (exec .pext (pextState 13 1))) = 0x25#64 := by
  decide +kernel

/-! ## RUN and CLR -/

theorem test_run_payload :
    Cells.read done1.mem.pay 0 = some 0x5A#8 ∧ done1.res.syncidx = 5#17 ∧
      done1.res.paystart = 9#18 := by decide +kernel

/-- P3 as one RUN: NOSYNC at stage 4 with the reset threshold. -/
theorem test_run_nosync : errinfoWord (after (exec .run cap3)) = 0x04#64 := by decide +kernel

theorem test_clr_status :
    statusWord (after (exec .clr { done1 with pend := encode .clr })) = 0x702#64 := by decide +kernel

/-! ## Host port: V80 to V82 -/

theorem test_port_refusals :
    [0x000001#24, 0x00000F#24, 0x000017#24, 0x0FFFFF#24, 0x110000#24, 0x702000#24, 0x800008#24,
      0x900000#24].map (readResponse State.reset) = List.replicate 8 .err := by decide

theorem test_port_truncation :
    (hostWrite State.reset 0x000008#24 0x1AA#64).cfg.pre = 0xAA#8 ∧
      (hostWrite State.reset 0x00000D#24 7#64).cfg.policy = 3#2 ∧
      (hostWrite State.reset 0x000007#24 131072#64).cfg.nsamp = 0#17 ∧
      readResponse (hostWrite State.reset 0x100000#24 0xFFFF0320FFFF0258#64) 0x100000#24 =
        .data 0x0000032000000258#64 := by decide

theorem test_port_busy :
    let s := hostWrite State.reset 0x000001#24 6#64
    readResponse s 0x000002#24 = .data 1#64 ∧ readResponse s 0x000003#24 = .err ∧
      (hostWrite s 0x00000C#24 3#64).cfg.th = 12#16 ∧ (hostWrite s 0x000001#24 7#64).pend = 6#64 := by
  decide

/-! ## Witnesses: the hypotheses of the obligations can be met -/

theorem test_legal : LegalConfig cap3.cfg ∧ LegalConfig cap1.cfg := by
  unfold LegalConfig; decide

theorem test_witness_CommandWordRoundTrip :
    Instr.run.wf = true ∧ decode 6#64 = .command .run := by decide

theorem test_witness_DecodeIsTotal :
    (16#64 : Word).toNat / 16 ≠ 0 ∧
      [0#64, 1#64, 7#64, 8#64, 15#64].map (fun w : Word => (w.toNat / 16, w.toNat % 16)) =
        [(0, 0), (0, 1), (0, 7), (0, 8), (0, 15)] := by decide

theorem test_witness_StepRunsDecodedCommand :
    let s := { cap3 with busy := true, pend := 1#64 }
    s.busy = true ∧ decode s.pend = .command .env ∧ s.port = [] ∧
      ({ s with port := [.core] } : State).port = .core :: [] := ⟨rfl, rfl, rfl, rfl⟩

theorem test_witness_IdleCoreDoesNothing : State.reset.busy = false ∧ State.reset.port = [] :=
  ⟨rfl, rfl⟩

theorem test_witness_IllegalWordEndsIllcmd :
    State.reset.busy = false ∧ (16#64 : Word).toNat / 16 ≠ 0 ∧ (0#64 : Word).toNat % 16 = 0 ∧
      8 ≤ (8#64 : Word).toNat % 16 := by decide

/-- One configuration for each row of R254's table, at the boundary of its condition, then a legal one. -/
theorem test_witness_ConfigCheckOrder :
    [{ legalCfg 3 with br := 0#32 }, { legalCfg 3 with br := 4#32 }, { legalCfg 3 with paysz := 0#16 },
        { legalCfg 3 with swlen := 9#8 }, { legalCfg 3 with nsamp := 65537#17 },
        { legalCfg 3 with policy := 3#2 }, { legalCfg 1 with swlen := 8#8, nsamp := 65536#17 }].map
      configCheck = [some 1#4, some 2#4, some 3#4, some 4#4, some 5#4, some 6#4, none] ∧
      Instr.env ≠ .clr ∧ goesOn (exec .env cap3) = true := by decide +kernel

theorem test_witness_SequenceRefusals :
    LegalConfig cap3.cfg ∧ cap3.valid.env = false ∧ cap3.valid.tr = false ∧ cap3.valid.bd = false ∧
      cap3.valid.fs = false ∧ (after (exec .trec cap3)).err = .seq :=
  ⟨test_legal.1, rfl, rfl, rfl, rfl, by decide +kernel⟩

theorem test_witness_RefusedCommandChangesOnlyRecord :
    let s := { cap3 with busy := true }
    goesOn (coreStep s) = true ∧ (after (coreStep s)).err = .illcmd ∧
      (after (coreStep { State.reset with busy := true, pend := 1#64 })).err = .config ∧
      (after (coreStep { s with pend := 3#64 })).err = .seq := by decide +kernel

theorem test_witness_CompletionRecordsTheResult :
    let s := { cap3 with busy := true, pend := 1#64 }
    s.busy = true ∧ goesOn (coreStep s) = true ∧ (after (coreStep s)).err = .ok := by decide +kernel

theorem test_witness_OnlyCompletionChangesTheRecord :
    let s := { cap3 with port := [.write 0x00000C#24 3#64] }
    goesOn (step s) = true ∧ s.port.head? ≠ some .reset ∧ s.busy = false := by decide +kernel

theorem test_witness_AmplitudeIsIntegerSquareRoot :
    Cells.read cap3.mem.iq 2 = some { i := 1#16, q := 0#16 } := by decide

theorem test_witness_EnvComputesCenteredSequence :
    LegalConfig cap3.cfg ∧ LegalConfig { cap3.cfg with nsamp := 0#17 } := by
  unfold LegalConfig; decide

theorem test_witness_AllZeroEnvelope :
    let s := captureOf (legalCfg 2) [0, 0, 0, 0, 0]
    LegalConfig s.cfg ∧ (∀ n < sampleCount s.cfg, ruleAmplitude s n = 0) ∧
      sps s.cfg < sampleCount s.cfg := by
  unfold LegalConfig; decide +kernel

theorem test_witness_CenteredSequenceProperties :
    LegalConfig cap3.cfg ∧ goesOn (exec .env cap3) = true ∧ env3.cond.envZero = false :=
  ⟨test_legal.1, by decide +kernel, by decide +kernel⟩

theorem test_witness_RoundIsNearestInteger :
    (0 : Int) < 4 ∧ 2 * ((5 : Int) - 5 / 4 * 4) < 4 ∧ 4 < 2 * ((7 : Int) - 7 / 4 * 4) ∧
      2 * ((6 : Int) - 6 / 4 * 4) = 4 ∧ 2 * ((-6 : Int) - (-6) / 4 * 4) = 4 := by decide

/-- R155: pass 1 has a positive error, pass 0 a zero one. -/
theorem test_witness_PhaseUpdateSign :
    0 < env3.res.envden.toNat ∧ phaseUpdate (centAt env3) 11 3 11 1 0 = -1 ∧
      phaseUpdate (centAt env3) 11 3 11 0 0 = 0 := by decide +kernel

/-- The invariant of the state after ENV on P3's capture. -/
theorem test_env3_invariant : Inv env3 where
  seqIdle := by decide +kernel
  busyDone := by decide +kernel
  record := ⟨by decide +kernel, by decide +kernel⟩
  chain := by unfold FlagChain; decide +kernel
  guarded := by unfold CondGuarded; decide +kernel
  memory := by decide +kernel
  symbols := by decide +kernel
  envelope := by unfold EnvelopePresent RatesChecked Listed CenteredBounds; decide +kernel
  timing := by intro h; exact absurd h (by decide +kernel)
  bitsListed := by intro h; exact absurd h (by decide +kernel)
  profile := by intro h; exact absurd h (by decide +kernel)
  sync := by intro h; exact absurd h (by decide +kernel)
  payload := by intro h; exact absurd h (by decide +kernel)

theorem test_witness_TrecRunsTimingLoop :
    Inv env3 ∧ LegalConfig env3.cfg ∧ env3.valid.env = true ∧ sps env3.cfg < sampleCount env3.cfg :=
  ⟨test_env3_invariant, by unfold LegalConfig; decide +kernel, by decide +kernel, by decide +kernel⟩

theorem test_witness_RecoveredClockInvariants :
    Inv env3 ∧ LegalConfig env3.cfg ∧ env3.valid.env = true ∧ goesOn (exec .trec env3) = true ∧
      trec3.err = .ok ∧ 2 ≤ bitCount trec3 :=
  ⟨test_env3_invariant, by unfold LegalConfig; decide +kernel, by decide +kernel, by decide +kernel,
    by decide +kernel, by decide +kernel⟩

theorem test_witness_RecoveredClockInvariants_sps1 : sps cap1.cfg = 1 := by decide

/-- `N = sps`, the boundary of the first clause; `PAYSTART + 8·PAYSZ = Nb + 1`, that of the third. -/
theorem test_witness_InsufficientDataEndings :
    let s := after (exec .env (captureOf (legalCfg 3) [1, 2, 3]))
    let u := pextState 13 1
    LegalConfig s.cfg ∧ s.valid.env = true ∧ sampleCount s.cfg ≤ sps s.cfg ∧ LegalConfig u.cfg ∧
      u.valid.bd = true ∧ u.valid.fs = true ∧
      u.res.nbits.toNat < u.res.paystart.toNat + 8 * u.cfg.paysz.toNat ∧
      goesOn (exec .pext u) = true ∧ (after (exec .pext u)).err = .insuff := by
  unfold LegalConfig; decide +kernel

theorem test_witness_BdecDecidesBySign :
    LegalConfig trec3.cfg ∧ trec3.valid.tr = true ∧ synAt trec3 0 ≤ 0 ∧ 0 < synAt trec3 1 ∧
      1 < bitCount trec3 := by
  unfold LegalConfig; decide +kernel

theorem test_witness_SyncPatternAssembly :
    let c : Cfg := { legalCfg 3 with swlen := 8#8 }
    c.swlen.toNat ≤ 8 ∧ 0 < c.npre.toNat + c.swlen.toNat ∧ 0 < c.npre.toNat ∧
      9 < c.npre.toNat + c.swlen.toNat ∧ 9 = c.npre.toNat + 7 := by decide

/-- V40: at `TH = 2` three positions are eligible, whatever the policy. -/
theorem test_witness_FsyncAcceptsByPolicy :
    (∀ p : BitVec 2, p ≠ 3#2 →
      LegalConfig (bitsState b40 2 p).cfg ∧ (bitsState b40 2 p).valid.bd = true ∧
        Eligible (bitsState b40 2 p) 6) := by
  unfold LegalConfig Eligible; decide +kernel

theorem test_witness_FsyncReportsNoSync :
    LegalConfig (bitsState b40 4 1#2).cfg ∧ (bitsState b40 4 1#2).valid.bd = true ∧
      ∀ i, ¬Eligible (bitsState b40 4 1#2) i := by
  refine ⟨by unfold LegalConfig; decide, rfl, ?_⟩
  have h : ∀ i < 15, ¬Eligible (bitsState b40 4 1#2) i := by unfold Eligible; decide +kernel
  intro i hi
  have h2 : i + 2 ≤ 16 := hi.2.1
  exact h i (by omega) hi

/-- One state for each clause: all bits 0, no pattern, a threshold of `ones(P)`, two bits, an eligible
position. -/
theorem test_witness_NoSpuriousSync :
    (∀ k < 4, bitAt (bitsState [0, 0, 0, 0] 0 1#2) k = 0) ∧
      patLen { (bitsState b40 0 1#2).cfg with npre := 0#8 } = 0 ∧
      patternOnes (bitsState b40 4 1#2) ≤ 4 ∧ bitCount (bitsState [1, 1] 0 1#2) < 3 ∧
      Eligible (bitsState b40 3 1#2) 8 := by
  unfold Eligible; decide +kernel

/-- The four cases with the hypotheses on the state, at the boundary `TH = ones(P)` and at `Nb = 2`; and a next
state of each kind. -/
theorem test_witness_NoSpuriousSync_exec :
    let s1 := bitsState [1, 1] 0 1#2
    let s2 := { bitsState b40 0 1#2 with cfg := { (bitsState b40 0 1#2).cfg with npre := 0#8 } }
    let s3 := bitsState [0, 0, 0, 0] 0 1#2
    let s4 := bitsState b40 4 1#2
    (∀ s ∈ [s1, s2, s3, s4], LegalConfig s.cfg ∧ s.valid.bd = true) ∧ bitCount s1 < 3 ∧
      patLen s2.cfg = 0 ∧ (∀ k < bitCount s3, bitAt s3 k = 0) ∧ patternOnes s4 ≤ s4.cfg.th.toNat ∧
      [s1, s2, s3, s4].map (fun s => errinfoWord (after (exec .fsync s))) = List.replicate 4 4#64 ∧
      (after (exec .fsync (bitsState b40 3 1#2))).err = .ok := by
  unfold LegalConfig; decide +kernel

/-- V40 with `TH = 3`: the copy at `p = 4`, with every margin of R193. -/
theorem test_witness_ExactCopyIsFound :
    let s := bitsState b40 3 1#2
    4 + patLen s.cfg ≤ bitCount s ∧
      (∀ j < patLen s.cfg, bitAt s (4 + j) = (patBit s.cfg s.syncw j).toNat) ∧
      1 ≤ 4 + patLen s.cfg / 2 ∧ 4 + patLen s.cfg / 2 + 2 ≤ bitCount s ∧
      s.cfg.th.toNat < patternOnes s ∧
      ruleScore s (4 + patLen s.cfg / 2 - 1) + s.cfg.th.toNat < patternOnes s ∧
      ruleScore s (4 + patLen s.cfg / 2 + 1) + s.cfg.th.toNat < patternOnes s ∧
      LegalConfig s.cfg ∧ s.valid.bd = true ∧ s.cfg.policy = 1#2 := by
  unfold LegalConfig; decide +kernel

theorem test_witness_ExactCopyIsFound_last :
    ∀ i, Eligible (bitsState b40 3 1#2) i → i ≤ 4 + patLen (bitsState b40 3 1#2).cfg / 2 := by
  have h : ∀ i < 15, Eligible (bitsState b40 3 1#2) i → i ≤ 8 := by unfold Eligible; decide +kernel
  intro i hi
  have h2 : i + 2 ≤ 16 := hi.2.1
  exact h i (by omega) hi

/-- V50 at the boundary `PAYSTART + 8·PAYSZ = Nb`, and its first byte 0x24 bit by bit. -/
theorem test_witness_PextPacksPayload :
    let s := pextState 4 2
    LegalConfig s.cfg ∧ s.valid.bd = true ∧ s.valid.fs = true ∧
      s.res.paystart.toNat + 8 * s.cfg.paysz.toNat ≤ s.res.nbits.toNat ∧ 0 < s.cfg.paysz.toNat ∧
      ∀ k < 8, bitAt s (s.res.paystart.toNat + 8 * 0 + k) = ((0x24#8 : Byte).getLsbD (7 - k)).toNat := by
  unfold LegalConfig; decide +kernel

theorem test_witness_RunDemodulatesPayload :
    LegalConfig cap1.cfg ∧ sps cap1.cfg < sampleCount cap1.cfg ∧
      ∃ l, capturedLoop cap1 = some l ∧ (loopScan cap1 l).found = true ∧
        (loopScan cap1 l).payloadStart + 8 * cap1.cfg.paysz.toNat ≤ l.index := by
  refine ⟨test_legal.2, by decide, (capturedLoop cap1).getD (timingInit cap1.mem), ?_, ?_, ?_⟩
  · have h : (capturedLoop cap1).isSome = true := by decide +kernel
    obtain ⟨l, hl⟩ := Option.isSome_iff_exists.mp h
    rw [hl]; rfl
  · decide +kernel
  · decide +kernel

theorem test_witness_RunAlwaysCompletes :
    LegalConfig cap1.cfg ∧ LegalConfig { cap1.cfg with nsamp := 65536#17 } := by
  unfold LegalConfig; decide

theorem test_witness_ClrClearsResults : ({ cap1 with pend := encode .clr } : State).pend = encode .clr :=
  rfl

theorem test_witness_BusyRule :
    (hostWrite State.reset 0x000001#24 6#64).busy = true ∧ 0x000003#24 ≠ 0x000002#24 ∧
      0x000003#24 ≠ 0x000000#24 := by decide

/-- The last readable and the first refused index of each space, idle. -/
theorem test_witness_HostPortRefusals :
    [0x000016#24, 0x10FFFF#24, 0x60FFFF#24, 0x701FFF#24, 0x800007#24].map
        (fun a => decide (readResponse State.reset a = .err)) = List.replicate 5 false ∧
      [0x000017#24, 0x110000#24, 0x610000#24, 0x702000#24, 0x800008#24, 0x900000#24].map
        (fun a => decide ((hostWrite State.reset a 1#64).resp = some .err)) = List.replicate 6 true := by
  have h : ∀ w : Word, decide (Response.data w = Response.err) = false := fun w => by simp
  constructor
  · simp only [List.map]
    refine List.cons_eq_cons.mpr ⟨rfl, List.cons_eq_cons.mpr ⟨h _, List.cons_eq_cons.mpr ⟨h _,
      List.cons_eq_cons.mpr ⟨h _, List.cons_eq_cons.mpr ⟨rfl, rfl⟩⟩⟩⟩⟩
  · decide

theorem test_witness_CmdWriteStartsCommand :
    State.reset.busy = false ∧ (hostWrite State.reset 0x000001#24 6#64).busy = true := by decide

/-- An accepted write for each row of R28's table, and of `CMD`. -/
theorem test_witness_HostWritesClearFlags :
    [0x100000#24, 0x000007#24, 0x000004#24, 0x800007#24, 0x00000D#24, 0x00000E#24, 0x000001#24].map
      (fun a => (hostWrite done1 a 1#64).resp) = List.replicate 7 (some .ok) ∧
      done1.valid.pe = true := by decide +kernel

theorem test_witness_RegisterWriteReadBack :
    State.reset.busy = false ∧ ((0x0D, 2) : Nat × Nat) ∈ [((0x0C, 16) : Nat × Nat), (0x0D, 2)] := by
  decide

theorem test_witness_SampleAndSyncByteReadBack :
    State.reset.busy = false ∧ Memory.wf State.reset.mem = true := by decide

/-- After RUN on `cap1` every output memory has entry 0, and its flag is set. -/
theorem test_witness_OutputMemoriesReadBack :
    done1.busy = false ∧
      done1.valid = { env := true, tr := true, bd := true, prof := true, fs := true, pe := true } ∧
      0 < sampleCount done1.cfg ∧ 0 < bitCount done1 ∧ 0 < done1.cfg.paysz.toNat ∧
      (Cells.read done1.mem.cent 0).isSome = true ∧ (Cells.read done1.mem.clk 0).isSome = true ∧
      (Cells.read done1.mem.syn 0).isSome = true ∧ (Cells.read done1.mem.bits 0).isSome = true ∧
      (Cells.read done1.mem.prof 0).isSome = true ∧ (Cells.read done1.mem.pay 0).isSome = true := by
  decide +kernel

/-- The invariant of the state after that RUN: every flag is set. -/
theorem test_done1_invariant : Inv done1 where
  seqIdle := by decide +kernel
  busyDone := by decide +kernel
  record := ⟨by decide +kernel, by decide +kernel⟩
  chain := by unfold FlagChain; decide +kernel
  guarded := by unfold CondGuarded; decide +kernel
  memory := by decide +kernel
  symbols := by decide +kernel
  envelope := by unfold EnvelopePresent RatesChecked Listed CenteredBounds; decide +kernel
  timing := by unfold TimingPresent Listed; decide +kernel
  bitsListed := by unfold Listed; decide +kernel
  profile := by unfold Listed; decide +kernel
  sync := by unfold SyncPresent; decide +kernel
  payload := by unfold PayloadPresent Listed; decide +kernel

/-- The last specified entry of some memories, and the first index beyond the depth of others. -/
theorem test_witness_ReadsAreRepeatable :
    Inv done1 ∧ (Cells.read done1.mem.iq ((0x100011#24 : HostAddr).toNat % 2 ^ 20)).isSome = true ∧
      (0x200011#24 : HostAddr).toNat % 2 ^ 20 < sampleCount done1.cfg ∧
      (0x300010#24 : HostAddr).toNat % 2 ^ 20 < bitCount done1 ∧
      (0x700000#24 : HostAddr).toNat % 2 ^ 20 < done1.cfg.paysz.toNat ∧
      65536 ≤ (0x110000#24 : HostAddr).toNat % 2 ^ 20 ∧ 65536 ≤ (0x610000#24 : HostAddr).toNat % 2 ^ 20 ∧
      8192 ≤ (0x702000#24 : HostAddr).toNat % 2 ^ 20 :=
  ⟨test_done1_invariant, by decide +kernel, by decide +kernel, by decide +kernel, by decide +kernel,
    by decide, by decide, by decide⟩

/-- A state for each code and for each stage. -/
theorem test_witness_StatusWordLayout :
    State.reset.cfg.br.toNat = 0 ∧ cap3.cfg.br.toNat ≠ 0 ∧
      [Code.ok, .config, .insuff, .nosync, .illcmd, .seq].map
          (fun c => (statusWord { State.reset with err := c }).toNat) = [0, 16, 32, 48, 64, 80] ∧
      [Stage.none, .env, .trec, .bdec, .fsync, .pext].map
        (fun g => (errinfoWord { State.reset with errStage := g }).toNat) = [0, 1, 2, 3, 4, 5] := by
  decide

theorem test_witness_ExecLineRunsCommand :
    let s := { cap3 with port := lineExec .env 2 ++ [HostEvent.reset] }
    s.busy = false ∧ s.port = lineExec .env 2 ++ [HostEvent.reset] ∧
      goesOn (exec .env cap3) = true := ⟨rfl, rfl, by decide +kernel⟩

/-- The two ends of RUN, with one poll. -/
theorem test_witness_DemodLineReadsPayload :
    let s := { cap1 with port := lineDemod 1 ++ [HostEvent.reset] }
    s.busy = false ∧ s.port = lineDemod 1 ++ [HostEvent.reset] ∧ done1.err = .ok ∧
      0 < done1.cfg.paysz.toNat ∧ (after (exec .run cap3)).err ≠ .ok :=
  ⟨rfl, rfl, by decide +kernel, by decide +kernel, by decide +kernel⟩

/-- Texts at the boundary of each clause: none, an odd number of digits, the longest accepted. -/
theorem test_witness_HexTextLines :
    Malformed ['D', 'G'] ∧ ¬Malformed ['D', 'b', '6'] ∧
      (lineSyncword (List.replicate 16 'F')).isSome = true ∧
      (hexBytes (List.replicate 16 'F')).isSome = true ∧ lineSyncword (List.replicate 17 'F') = none ∧
      (linePreamble ['A'] 2#64).isSome = true ∧ linePreamble [] 2#64 = none := by
  refine ⟨⟨'G', by decide, by decide⟩, ?_, by decide, by decide, by decide, by decide, by decide⟩
  rintro ⟨c, hc, hn⟩
  simp only [List.mem_cons, List.not_mem_nil, or_false] at hc
  rcases hc with h | h | h <;> subst h <;> exact hn (by decide)

theorem test_witness_LoadiqLinesStoreSamples :
    let s := { State.reset with port := lineLoadiq [(3, 4), (-1, 0)] ++ [HostEvent.core] }
    s.busy = false ∧ [((3 : Int), (4 : Int)), (-1, 0)].length ≤ 65536 ∧
      s.port = lineLoadiq [(3, 4), (-1, 0)] ++ [HostEvent.core] := ⟨rfl, by decide, rfl⟩

theorem test_witness_ResetInput :
    let s := { done1 with busy := true, port := [.reset, .core] }
    s.busy = true ∧ s.port = .reset :: [.core] := ⟨rfl, rfl⟩

theorem test_witness_StepKeepsInvariantAndNeverStops : Inv done1 ∧ Inv env3 :=
  ⟨test_done1_invariant, test_env3_invariant⟩

theorem test_witness_FlagChainKept :
    let s := { done1 with busy := true, pend := 4#64 }
    FlagChain s.valid ∧ CondGuarded s.valid s.cond ∧ goesOn (step s) = true ∧
      (after (step s)).valid.fs = true := by
  unfold FlagChain CondGuarded; decide +kernel

/-- Every result of that RUN is current. -/
theorem test_done1_current : ResultsCurrent done1 where
  envelope := by
    intro _ _
    refine ⟨?_, ?_, ?_, ?_, ?_⟩ <;> decide +kernel
  timing := by
    intro _
    refine ⟨(timingOf done1).getD (timingInit done1.mem), ?_, ?_, ?_, ?_, ?_⟩
    · have h : (timingOf done1).isSome = true := by decide +kernel
      obtain ⟨l, hl⟩ := Option.isSome_iff_exists.mp h
      rw [hl]; rfl
    all_goals decide +kernel
  bits := by unfold BitsCurrent; decide +kernel
  profile := by unfold ProfileCurrent; decide +kernel
  sync := by unfold SyncCurrent; decide +kernel
  payload := by unfold PayloadCurrent; decide +kernel

theorem test_witness_ValidResultsStayCurrent :
    Inv done1 ∧ ResultsCurrent done1 ∧ goesOn (step done1) = true :=
  ⟨test_done1_invariant, test_done1_current, by decide +kernel⟩

end Sys2Proof.Tests
end

section
/-! The results marked valid stay the functions of the inputs now present (10_state.md R26, R28). The state is cut
into layers, one per valid flag; a result stays current while the layers it rests on are kept, and each stage
makes its own layer current again. -/

namespace Sys2Proof.Machine

/-! ## The layers of the state -/

/-- The layer of `ENV_VALID`: the capture ENV reads, the centered sequence, its sums and `ENV_ZERO`. -/
def envelopePart (s : State) :=
  ((s.cfg.fs, s.cfg.br, s.cfg.nsamp, s.mem.iq), s.mem.cent, s.res.envmax, s.res.envsum, s.res.envden,
    s.cond.envZero)

/-- The layer of `TR_VALID`: the envelope's, and what TREC leaves. -/
def timingPart (s : State) :=
  (envelopePart s, s.mem.clk, s.mem.syn, s.res.nbits, s.res.eps, s.cond.wTrec)

/-- The layer of `BD_VALID`: the timing's, and what BDEC leaves. -/
def bitsPart (s : State) := (timingPart s, s.mem.bits)

/-- The layer of `PROF_VALID`: the bits', the pattern, and what FSYNC leaves before its scan. -/
def profilePart (s : State) :=
  (bitsPart s, (s.cfg.pre, s.cfg.npre, s.cfg.swlen, s.syncw), s.mem.prof, s.cond.wFsync)

/-- The layer of `FS_VALID`: the profile's, the scan's threshold, its policy and its result. -/
def syncPart (s : State) :=
  (profilePart s, s.cfg.th, s.cfg.policy, s.res.syncidx, s.res.paystart)

/-- The layer of `PE_VALID`: all of it, with the payload's size and bytes. -/
def payloadPart (s : State) := (syncPart s, s.cfg.paysz, s.mem.pay)

theorem envelopePart_eq_iff (s t : State) :
    envelopePart t = envelopePart s ↔
      (t.cfg.fs = s.cfg.fs ∧ t.cfg.br = s.cfg.br ∧ t.cfg.nsamp = s.cfg.nsamp ∧ t.mem.iq = s.mem.iq) ∧
        t.mem.cent = s.mem.cent ∧ t.res.envmax = s.res.envmax ∧ t.res.envsum = s.res.envsum ∧
        t.res.envden = s.res.envden ∧ t.cond.envZero = s.cond.envZero := by
  simp only [envelopePart, Prod.mk.injEq]

theorem timingPart_eq_iff (s t : State) :
    timingPart t = timingPart s ↔
      envelopePart t = envelopePart s ∧ t.mem.clk = s.mem.clk ∧ t.mem.syn = s.mem.syn ∧
        t.res.nbits = s.res.nbits ∧ t.res.eps = s.res.eps ∧ t.cond.wTrec = s.cond.wTrec := by
  simp only [timingPart, Prod.mk.injEq]

theorem bitsPart_eq_iff (s t : State) :
    bitsPart t = bitsPart s ↔ timingPart t = timingPart s ∧ t.mem.bits = s.mem.bits := by
  simp only [bitsPart, Prod.mk.injEq]

theorem profilePart_eq_iff (s t : State) :
    profilePart t = profilePart s ↔
      bitsPart t = bitsPart s ∧
        (t.cfg.pre = s.cfg.pre ∧ t.cfg.npre = s.cfg.npre ∧ t.cfg.swlen = s.cfg.swlen ∧
          t.syncw = s.syncw) ∧
        t.mem.prof = s.mem.prof ∧ t.cond.wFsync = s.cond.wFsync := by
  simp only [profilePart, Prod.mk.injEq]

theorem syncPart_eq_iff (s t : State) :
    syncPart t = syncPart s ↔
      profilePart t = profilePart s ∧ t.cfg.th = s.cfg.th ∧ t.cfg.policy = s.cfg.policy ∧
        t.res.syncidx = s.res.syncidx ∧ t.res.paystart = s.res.paystart := by
  simp only [syncPart, Prod.mk.injEq]

theorem payloadPart_eq_iff (s t : State) :
    payloadPart t = payloadPart s ↔
      syncPart t = syncPart s ∧ t.cfg.paysz = s.cfg.paysz ∧ t.mem.pay = s.mem.pay := by
  simp only [payloadPart, Prod.mk.injEq]

theorem bitCount_congr {s t : State} (h : timingPart t = timingPart s) : bitCount t = bitCount s := by
  obtain ⟨-, -, -, hn, -⟩ := (timingPart_eq_iff s t).mp h
  rw [bitCount, bitCount, hn]

/-! ## What a stage reads does not depend on the free values where entries are listed -/

/-- The window sums of a capture the host has written whole. -/
theorem captureSum_congr {s t : State} (hfs : t.cfg.fs = s.cfg.fs) (hbr : t.cfg.br = s.cfg.br)
    (hn : t.cfg.nsamp = s.cfg.nsamp) (hiq : t.mem.iq = s.mem.iq)
    (hl : Listed s.mem.iq (sampleCount s.cfg)) : captureSum t = captureSum s := by
  have hamp : ∀ n < sampleCount s.cfg, amplitude t n = amplitude s n := fun n hlt => by
    obtain ⟨x, hx⟩ := Option.isSome_iff_exists.mp (hl n hlt)
    rw [amplitude, amplitude, iqAt, iqAt, hiq, hx]
    rfl
  funext n
  rw [captureSum, captureSum, show sampleCount t.cfg = sampleCount s.cfg by rw [sampleCount, hn]; rfl,
    show sps t.cfg = sps s.cfg by rw [sps, hfs, hbr]; rfl]
  exact windowSum_congr hamp _ n

theorem centAt_congr {s t : State} (h : t.mem.cent = s.mem.cent) {len : Nat}
    (hl : Listed s.mem.cent len) : ∀ n < len, centAt t n = centAt s n := fun n hn => by
  rw [centAt, centAt, h, entryOr_congr _ t.free s.free 2 n (hl n hn)]

theorem synAt_congr {s t : State} (h : t.mem.syn = s.mem.syn) {len : Nat} (hl : Listed s.mem.syn len) :
    ∀ n < len, synAt t n = synAt s n := fun n hn => by
  rw [synAt, synAt, h, entryOr_congr _ t.free s.free 4 n (hl n hn)]

theorem bitAt_congr {s t : State} (h : t.mem.bits = s.mem.bits) {len : Nat}
    (hl : Listed s.mem.bits len) : ∀ n < len, bitAt t n = bitAt s n := fun n hn => by
  rw [bitAt, bitAt, h, entryOr_congr _ t.free s.free 5 n (hl n hn)]

theorem profAt_congr {s t : State} (h : t.mem.prof = s.mem.prof) {len : Nat}
    (hl : Listed s.mem.prof len) : ∀ n < len, profAt t n = profAt s n := fun n hn => by
  rw [profAt, profAt, h, entryOr_congr _ t.free s.free 6 n (hl n hn)]

/-- The scan up to `Nb - 2` reads the profile only below `Nb` (R186). -/
theorem scanUpTo_congr_below {p q : Nat → Nat} {count : Nat} (h : ∀ i < count, p i = q i) (th : Nat)
    (policy : BitVec 2) (half : Nat) :
    scanUpTo p th policy half (count - 2) = scanUpTo q th policy half (count - 2) := by
  by_cases hc : count ≤ 2
  · rw [Nat.sub_eq_zero_of_le hc]; rfl
  · exact (scanUpTo_congr (fun i hi => h i (by omega)) th policy half).1

theorem packByte_congr {b c : Nat → Nat} {start : Nat} (h : ∀ k < 8, b (start + k) = c (start + k)) :
    packByte b start = packByte c start := by
  rw [packByte, packByte, sumUpTo_congr fun k hk => by rw [h k hk]]

/-! ## The timing loop does not read what stood in `CLKMEM` and `SYNMEM` -/

/-- Two loops that have computed the same, whatever the output memories held before them. -/
structure TimingLoop.Agree (l l' : TimingLoop) : Prop where
  index : l'.index = l.index
  epsilon : l'.epsilon = l.epsilon
  warn : l'.warn = l.warn
  clk : ∀ k < l.index, Cells.read l'.clk k = Cells.read l.clk k
  syn : ∀ k < l.index, Cells.read l'.syn k = Cells.read l.syn k

theorem read_write_agree {α : Type} {m m' : Cells α} {n : Nat} (v : α)
    (h : ∀ k < n, Cells.read m' k = Cells.read m k) :
    ∀ k < n + 1, Cells.read (Cells.write m' n v) k = Cells.read (Cells.write m n v) k := by
  intro k hk
  rw [Cells.read_write, Cells.read_write]
  split_ifs with he
  · rfl
  · exact h k (by omega)

theorem TimingLoop.Agree.pass {l l' : TimingLoop} (h : l.Agree l') (c : Nat → Int)
    (count width den : Nat) :
    (timingPass c count width den l).Agree (timingPass c count width den l') := by
  obtain ⟨hi, he, hw, hc, hs⟩ := h
  refine ⟨?_, ?_, ?_, ?_, ?_⟩ <;> simp only [timingPass, hi, he, hw]
  · exact read_write_agree _ hc
  · exact read_write_agree _ hs

theorem TimingLoop.Agree.run {c : Nat → Int} {count width den fuel : Nat} {l l' r : TimingLoop}
    (h : l.Agree l') (hr : timingRun c count width den fuel l = some r) :
    ∃ r', timingRun c count width den fuel l' = some r' ∧ r.Agree r' := by
  have hg : timingGuard count width l' = timingGuard count width l := by
    simp only [timingGuard, h.index, h.epsilon]
  induction fuel generalizing l l' with
  | zero =>
    simp only [timingRun, hg] at hr ⊢
    split_ifs at hr ⊢
    cases hr
    exact ⟨l', rfl, h⟩
  | succ fuel ih =>
    simp only [timingRun, hg] at hr ⊢
    split_ifs at hr ⊢
    · have hp := h.pass c count width den
      exact ih hp hr (by simp only [timingGuard, hp.index, hp.epsilon])
    · cases hr
      exact ⟨l', rfl, h⟩

theorem timingInit_agree (m m' : Memory) : (timingInit m).Agree (timingInit m') :=
  ⟨rfl, rfl, rfl, fun _ hk => absurd hk (Nat.not_lt_zero _), fun _ hk => absurd hk (Nat.not_lt_zero _)⟩

/-! ## A result stays current while its layer is kept -/

theorem EnvelopeCurrent.congr {s t : State} (h : envelopePart t = envelopePart s)
    (hl : Listed s.mem.cent (sampleCount s.cfg)) (hc : EnvelopeCurrent s) : EnvelopeCurrent t := by
  obtain ⟨⟨hfs, hbr, hn, hiq⟩, hcent, hmax, hsum, hden, hzero⟩ := (envelopePart_eq_iff s t).mp h
  have hcount : sampleCount t.cfg = sampleCount s.cfg := by rw [sampleCount, hn]; rfl
  rw [EnvelopeCurrent, hcount, hiq, hmax, hsum, hden, hzero]
  intro hlist
  rw [captureSum_congr hfs hbr hn hiq hlist]
  obtain ⟨e1, e2, e3, e4, e5⟩ := hc hlist
  exact ⟨e1, e2, e3, e4, fun n hlt => (centAt_congr hcent hl n hlt).trans (e5 n hlt)⟩

theorem timingOf_congr {s t : State} (h : envelopePart t = envelopePart s) (hclk : t.mem.clk = s.mem.clk)
    (hsyn : t.mem.syn = s.mem.syn) (hl : Listed s.mem.cent (sampleCount s.cfg)) :
    timingOf t = timingOf s := by
  obtain ⟨⟨hfs, hbr, hn, -⟩, hcent, -, -, hden, -⟩ := (envelopePart_eq_iff s t).mp h
  have hcount : sampleCount t.cfg = sampleCount s.cfg := by rw [sampleCount, hn]; rfl
  have hsps : sps t.cfg = sps s.cfg := by rw [sps, hfs, hbr]; rfl
  rw [timingOf, timingOf, timingInit, timingInit, hcount, hsps, hden, hclk, hsyn]
  exact timingRun_congr (centAt_congr hcent hl) _ _ _ _

theorem TimingCurrent.congr {s t : State} (h : timingPart t = timingPart s)
    (hl : Listed s.mem.cent (sampleCount s.cfg)) (hc : TimingCurrent s) : TimingCurrent t := by
  obtain ⟨henv, hclk, hsyn, hn, heps, hwarn⟩ := (timingPart_eq_iff s t).mp h
  rw [TimingCurrent, timingOf_congr henv hclk hsyn hl, bitCount_congr h, hclk, hsyn, hn, heps, hwarn]
  exact hc

theorem BitsCurrent.congr {s t : State} (h : bitsPart t = bitsPart s)
    (hl : Listed s.mem.syn (bitCount s)) (hc : BitsCurrent s) : BitsCurrent t := by
  obtain ⟨htim, hbits⟩ := (bitsPart_eq_iff s t).mp h
  obtain ⟨-, -, hsyn, -⟩ := (timingPart_eq_iff s t).mp htim
  rw [BitsCurrent, bitCount_congr htim, hbits]
  intro k hk
  rw [synAt_congr hsyn hl k hk]
  exact hc k hk

theorem patLen_congr {c d : Cfg} (hnpre : d.npre = c.npre) (hswlen : d.swlen = c.swlen) :
    patLen d = patLen c := by rw [patLen, patLen, hnpre, hswlen]

theorem patBit_congr {c d : Cfg} (hpre : d.pre = c.pre) (hnpre : d.npre = c.npre) (w : Vector Byte 8) :
    patBit d w = patBit c w := by
  funext j
  rw [patBit, patBit, patByte, patByte, hpre, hnpre]

theorem ProfileCurrent.congr {s t : State} (h : profilePart t = profilePart s)
    (hlb : Listed s.mem.bits (bitCount s)) (hlp : Listed s.mem.prof (bitCount s))
    (hc : ProfileCurrent s) : ProfileCurrent t := by
  obtain ⟨hb, ⟨hpre, hnpre, hswlen, hsyncw⟩, hprof, hwarn⟩ := (profilePart_eq_iff s t).mp h
  obtain ⟨htim, hbits⟩ := (bitsPart_eq_iff s t).mp hb
  obtain ⟨c1, c2⟩ := hc
  rw [ProfileCurrent, bitCount_congr htim, patLen_congr hnpre hswlen, hsyncw, patBit_congr hpre hnpre,
    hwarn]
  refine ⟨c1, fun i hi => ?_⟩
  rw [profAt_congr hprof hlp i hi, score_congr (bitAt_congr hbits hlb)]
  exact c2 i hi

theorem scanOf_congr {s t : State} (htim : timingPart t = timingPart s) (hnpre : t.cfg.npre = s.cfg.npre)
    (hswlen : t.cfg.swlen = s.cfg.swlen) (hth : t.cfg.th = s.cfg.th)
    (hpol : t.cfg.policy = s.cfg.policy) (hprof : t.mem.prof = s.mem.prof)
    (hl : Listed s.mem.prof (bitCount s)) : scanOf t = scanOf s := by
  rw [scanOf, scanOf, halfPat, halfPat, patLen_congr hnpre hswlen, hth, hpol, bitCount_congr htim]
  exact scanUpTo_congr_below (profAt_congr hprof hl) _ _ _

theorem SyncCurrent.congr {s t : State} (h : syncPart t = syncPart s)
    (hl : Listed s.mem.prof (bitCount s)) (hc : SyncCurrent s) : SyncCurrent t := by
  obtain ⟨hp, hth, hpol, hidx, hstart⟩ := (syncPart_eq_iff s t).mp h
  obtain ⟨hb, ⟨-, hnpre, hswlen, -⟩, hprof, -⟩ := (profilePart_eq_iff s t).mp hp
  obtain ⟨htim, -⟩ := (bitsPart_eq_iff s t).mp hb
  rw [SyncCurrent, scanOf_congr htim hnpre hswlen hth hpol hprof hl, hidx, hstart]
  exact hc

/-- The packing reads the bits only below `PAYSTART + 8·PAYSZ`. -/
theorem packByte_bitAt_congr {s t : State} (hbits : t.mem.bits = s.mem.bits) {len : Nat}
    (hl : Listed s.mem.bits len) {start size : Nat} (hle : start + 8 * size ≤ len) :
    ∀ b < size, packByte (bitAt t) (start + 8 * b) = packByte (bitAt s) (start + 8 * b) :=
  fun _ hb => packByte_congr fun _ hk => bitAt_congr hbits hl _ (by omega)

theorem PayloadCurrent.congr {s t : State} (h : payloadPart t = payloadPart s)
    (hl : Listed s.mem.bits (bitCount s)) (hp : PayloadPresent s) (hc : PayloadCurrent s) :
    PayloadCurrent t := by
  obtain ⟨hsync, hsz, hpay⟩ := (payloadPart_eq_iff s t).mp h
  obtain ⟨hprof, -, -, -, hstart⟩ := (syncPart_eq_iff s t).mp hsync
  obtain ⟨hb, -⟩ := (profilePart_eq_iff s t).mp hprof
  obtain ⟨-, hbits⟩ := (bitsPart_eq_iff s t).mp hb
  rw [PayloadCurrent, hsz, hpay, hstart]
  intro b hlt
  rw [packByte_bitAt_congr hbits hl hp.1 b hlt]
  exact hc b hlt

/-- A result of `s` that `t` still marks valid is kept with its layer, or it is current in `t` anew. -/
theorem ResultsCurrent.carry {s t : State} (hd : DataInv s) (hs : ResultsCurrent s)
    (henv : t.valid.env = true →
      (s.valid.env = true ∧ envelopePart t = envelopePart s) ∨ EnvelopeCurrent t)
    (htr : t.valid.tr = true → (s.valid.tr = true ∧ timingPart t = timingPart s) ∨ TimingCurrent t)
    (hbd : t.valid.bd = true → (s.valid.bd = true ∧ bitsPart t = bitsPart s) ∨ BitsCurrent t)
    (hprof : t.valid.prof = true →
      (s.valid.prof = true ∧ profilePart t = profilePart s) ∨ ProfileCurrent t)
    (hfs : t.valid.fs = true → (s.valid.fs = true ∧ syncPart t = syncPart s) ∨ SyncCurrent t)
    (hpe : t.valid.pe = true → (s.valid.pe = true ∧ payloadPart t = payloadPart s) ∨ PayloadCurrent t) :
    ResultsCurrent t := by
  obtain ⟨tr_env, bd_tr, prof_bd, fs_prof, pe_fs⟩ := hd.chain
  have hcent : s.valid.env = true → Listed s.mem.cent (sampleCount s.cfg) := fun h => (hd.envelope h).2.1
  have hsyn : s.valid.tr = true → Listed s.mem.syn (bitCount s) := fun h => (hd.timing h).2.2.2
  constructor
  · exact fun h => (henv h).elim (fun k => (hs.envelope k.1).congr k.2 (hcent k.1)) id
  · exact fun h => (htr h).elim (fun k => (hs.timing k.1).congr k.2 (hcent (tr_env k.1))) id
  · exact fun h => (hbd h).elim (fun k => (hs.bits k.1).congr k.2 (hsyn (bd_tr k.1))) id
  · exact fun h => (hprof h).elim
      (fun k => (hs.profile k.1).congr k.2 (hd.bitsListed (prof_bd k.1)) (hd.profile k.1)) id
  · exact fun h => (hfs h).elim (fun k => (hs.sync k.1).congr k.2 (hd.profile (fs_prof k.1))) id
  · exact fun h => (hpe h).elim (fun k => (hs.payload k.1).congr k.2
      (hd.bitsListed (prof_bd (fs_prof (pe_fs k.1)))) (hd.payload k.1)) id

/-! ## Steps that only clear flags -/

/-- The layers under stage `st`: all that the flags it leaves set rest on. -/
def KeptBefore (st : Stage) (s t : State) : Prop :=
  match st with
  | .none => payloadPart t = payloadPart s
  | .env => True
  | .trec => envelopePart t = envelopePart s
  | .bdec => timingPart t = timingPart s
  | .fsync => bitsPart t = bitsPart s
  | .pext => syncPart t = syncPart s

/-- Clearing the flags of stage `st` and the later ones leaves the other results current, while their layers are
kept (R28, R229). -/
theorem ResultsCurrent.clearFrom {s t : State} (st : Stage) (hv : t.valid = s.valid.clearFrom st)
    (hk : KeptBefore st s t) (hd : DataInv s) (hs : ResultsCurrent s) : ResultsCurrent t := by
  cases st with
  | none =>
    have hsync : syncPart t = syncPart s := congrArg Prod.fst hk
    have hprof : profilePart t = profilePart s := congrArg Prod.fst hsync
    have hbits : bitsPart t = bitsPart s := congrArg Prod.fst hprof
    have htim : timingPart t = timingPart s := congrArg Prod.fst hbits
    refine .carry hd hs ?_ ?_ ?_ ?_ ?_ ?_ <;> rw [hv]
    exacts [fun h => .inl ⟨h, congrArg Prod.fst htim⟩, fun h => .inl ⟨h, htim⟩,
      fun h => .inl ⟨h, hbits⟩, fun h => .inl ⟨h, hprof⟩, fun h => .inl ⟨h, hsync⟩, fun h => .inl ⟨h, hk⟩]
  | env => refine .carry hd hs ?_ ?_ ?_ ?_ ?_ ?_ <;> rw [hv] <;> exact nofun
  | trec =>
    refine .carry hd hs ?_ ?_ ?_ ?_ ?_ ?_ <;> rw [hv]
    exacts [fun h => .inl ⟨h, hk⟩, nofun, nofun, nofun, nofun, nofun]
  | bdec =>
    refine .carry hd hs ?_ ?_ ?_ ?_ ?_ ?_ <;> rw [hv]
    exacts [fun h => .inl ⟨h, congrArg Prod.fst hk⟩, fun h => .inl ⟨h, hk⟩, nofun, nofun, nofun, nofun]
  | fsync =>
    have htim : timingPart t = timingPart s := congrArg Prod.fst hk
    refine .carry hd hs ?_ ?_ ?_ ?_ ?_ ?_ <;> rw [hv]
    exacts [fun h => .inl ⟨h, congrArg Prod.fst htim⟩, fun h => .inl ⟨h, htim⟩, fun h => .inl ⟨h, hk⟩,
      nofun, nofun, nofun]
  | pext =>
    have hprof : profilePart t = profilePart s := congrArg Prod.fst hk
    have hbits : bitsPart t = bitsPart s := congrArg Prod.fst hprof
    have htim : timingPart t = timingPart s := congrArg Prod.fst hbits
    refine .carry hd hs ?_ ?_ ?_ ?_ ?_ ?_ <;> rw [hv]
    exacts [fun h => .inl ⟨h, congrArg Prod.fst htim⟩, fun h => .inl ⟨h, htim⟩,
      fun h => .inl ⟨h, hbits⟩, fun h => .inl ⟨h, hprof⟩, fun h => .inl ⟨h, hk⟩, nofun]

/-! ## Each stage makes its own result current -/

theorem envelopeCurrent_envDone (s : State) (hN : sampleCount s.cfg ≤ Config.nMax) :
    EnvelopeCurrent (envDone s) := by
  intro hl
  rw [captureSum_congr (s := s) (t := envDone s) rfl rfl rfl rfl hl]
  obtain ⟨h1, h2, h3⟩ := envelope_le s hN
  refine ⟨?_, ?_, envden_envDone s hN, rfl, centAt_envDone s hN⟩ <;>
    rw [envDone_res] <;> exact Nat.mod_eq_of_lt (by omega)

theorem bitCount_trecDone (s : State) {l : TimingLoop} (h : l.index ≤ Config.nMax) :
    bitCount (trecDone s l) = l.index :=
  Nat.mod_eq_of_lt (by simp only [Config.nMax] at h; omega)

/-- Run again over what TREC has left, the loop computes the same. -/
theorem timingCurrent_trecDone {s : State} {l : TimingLoop} (hp : EnvelopePresent s)
    (hl : timingOf s = some l) : TimingCurrent (trecDone s l) := by
  obtain ⟨l', hl', hr⟩ := timingOf_result hp
  cases hl.symm.trans hl'
  have hle : l.index ≤ Config.nMax := hr.below.elim (fun h => h ▸ Nat.zero_le _) fun h => h.le.trans hp.1.2
  obtain ⟨r, hrun, ha⟩ := (timingInit_agree s.mem (trecDone s l).mem).run hl
  have hof : timingOf (trecDone s l) = some r := by
    rw [← hrun]
    exact timingRun_congr (centAt_congr (s := s) (t := trecDone s l) rfl hp.2.1) _ _ _ _
  refine ⟨r, hof, ?_, ?_, ha.warn.symm, ?_⟩
  · rw [ha.index]; rfl
  · rw [ha.epsilon]; rfl
  · rw [bitCount_trecDone s hle]
    exact fun k hk => ⟨(ha.clk k hk).symm, (ha.syn k hk).symm⟩

theorem bitsCurrent_bdecDone {s : State} (hl : Listed s.mem.syn (bitCount s)) :
    BitsCurrent (bdecDone s) := by
  intro k (hk : k < bitCount s)
  rw [bdecDone_mem, Cells.read_fill, if_pos hk, synAt_congr (s := s) (t := bdecDone s) rfl hl k hk]

theorem profileCurrent_profiled {s : State} (hsw : s.cfg.swlen.toNat ≤ Config.swMax) :
    ProfileCurrent (profiled s) :=
  ⟨rfl, profAt_profiled s hsw⟩

/-- The position the scan accepts fits its registers (R190). -/
theorem syncCurrent_fsyncDone {s : State} (hd : DataInv (profiled s)) (hp : s.cfg.policy ≠ 3#2)
    (hsw : s.cfg.swlen.toNat ≤ Config.swMax) (hf : (scanOf (profiled s)).found = true) :
    SyncCurrent (fsyncDone s (scanOf (profiled s))) := by
  have hscan : scanOf (fsyncDone s (scanOf (profiled s))) = scanOf (profiled s) :=
    scanOf_congr rfl rfl rfl rfl rfl rfl (hd.profile rfl)
  rw [SyncCurrent, hscan]
  have hhalf : halfPat s.cfg ≤ 1052 := Nat.div_le_of_le_mul (patLen_lt hsw)
  have hcount : bitCount s < 65536 := hd.symbols
  have hcases := scanUpTo_cases (profAt (profiled s)) s.cfg.th.toNat s.cfg.policy (halfPat s.cfg)
    (bitCount s - 2) hp
  change ((scanOf (profiled s)).found = false ∧ _) ∨ ((scanOf (profiled s)).found = true ∧
    1 ≤ (scanOf (profiled s)).syncIndex ∧ (scanOf (profiled s)).syncIndex ≤ bitCount s - 2 ∧ _ ∧
    (scanOf (profiled s)).payloadStart = (scanOf (profiled s)).syncIndex + halfPat s.cfg) at hcases
  obtain ⟨hn, -⟩ | ⟨-, -, hle, -, hstart⟩ := hcases
  · rw [hn] at hf; cases hf
  · exact ⟨hf, Nat.mod_eq_of_lt (by omega), Nat.mod_eq_of_lt (by omega)⟩

theorem payloadCurrent_pextDone {s : State} (hl : Listed s.mem.bits (bitCount s))
    (hlen : s.res.paystart.toNat + 8 * s.cfg.paysz.toNat ≤ bitCount s) :
    PayloadCurrent (pextDone s) := by
  intro b (hb : b < s.cfg.paysz.toNat)
  rw [pextDone_mem, Cells.read_fill, if_pos hb]
  exact congrArg some (packByte_bitAt_congr (s := s) (t := pextDone s) rfl hl hlen b hb).symm

/-! ## The bodies of the commands keep every result current -/

/-- The data invariant, with every result marked valid current: what a stage needs and leaves. -/
structure Coherent (s : State) : Prop where
  data : DataInv s
  current : ResultsCurrent s

theorem Coherent.clearFrom {s t : State} (h : Coherent s) (st : Stage) (hd : DataInv t)
    (hv : t.valid = s.valid.clearFrom st) (hk : KeptBefore st s t) : Coherent t :=
  ⟨hd, h.current.clearFrom st hv hk h.data⟩

/-- What `complete`, `discardWork` and host reads do not touch. -/
theorem Coherent.congr {s t : State} (h : Coherent s) (hv : t.valid = s.valid) (hc : t.cond = s.cond)
    (hcfg : t.cfg = s.cfg) (hw : t.syncw = s.syncw) (hres : t.res = s.res) (hmem : t.mem = s.mem) :
    Coherent t := by
  refine h.clearFrom .none (h.data.congr hv hc hcfg hres hmem) hv ?_
  simp only [KeptBefore, payloadPart, syncPart, profilePart, bitsPart, timingPart, envelopePart, hc, hcfg,
    hw, hres, hmem]

theorem Coherent.complete {s : State} (h : Coherent s) (r : Record) : Coherent (complete s r) :=
  h.congr rfl rfl rfl rfl rfl rfl

theorem Coherent.discardWork {s : State} (h : Coherent s) : Coherent (discardWork s) :=
  h.congr rfl rfl rfl rfl rfl rfl

theorem Coherent.envDone {s : State} (hr : RatesChecked s.cfg) (h : Coherent s) : Coherent (envDone s) := by
  refine ⟨h.data.envDone hr, .carry h.data h.current ?_ nofun nofun nofun nofun nofun⟩
  exact fun _ => .inr (envelopeCurrent_envDone s hr.2)

theorem Coherent.trecRaised {s : State} (h : Coherent s) :
    Coherent (Machine.discardWork (beginStage .trec s)) :=
  h.clearFrom .trec h.data.trecRaised rfl rfl

theorem Coherent.trecDone {s : State} {l : TimingLoop} (henv : s.valid.env = true)
    (hl : timingOf s = some l) (h0 : l.index ≠ 0) (h : Coherent s) : Coherent (trecDone s l) := by
  have hp := h.data.envelope henv
  obtain ⟨l', hl', hr⟩ := timingOf_result hp
  cases hl.symm.trans hl'
  refine ⟨h.data.trecDone henv hr h0, .carry h.data h.current ?_ ?_ nofun nofun nofun nofun⟩
  · exact fun _ => .inl ⟨henv, rfl⟩
  · exact fun _ => .inr (timingCurrent_trecDone hp hl)

theorem Coherent.bdecDone {s : State} (htr : s.valid.tr = true) (h : Coherent s) :
    Coherent (bdecDone s) := by
  obtain ⟨-, -, -, hsyn⟩ := h.data.timing htr
  exact ⟨h.data.bdecDone htr, .carry h.data h.current (fun k => .inl ⟨k, rfl⟩) (fun k => .inl ⟨k, rfl⟩)
    (fun _ => .inr (bitsCurrent_bdecDone hsyn)) nofun nofun nofun⟩

theorem Coherent.profiled {s : State} (hbd : s.valid.bd = true)
    (hsw : s.cfg.swlen.toNat ≤ Config.swMax) (h : Coherent s) : Coherent (profiled s) := by
  exact ⟨h.data.profiled hbd, .carry h.data h.current (fun k => .inl ⟨k, rfl⟩) (fun k => .inl ⟨k, rfl⟩)
    (fun k => .inl ⟨k, rfl⟩) (fun _ => .inr (profileCurrent_profiled hsw)) nofun nofun⟩

theorem Coherent.fsyncDone {s : State} (hbd : s.valid.bd = true) (hp : s.cfg.policy ≠ 3#2)
    (hsw : s.cfg.swlen.toNat ≤ Config.swMax) (hf : (scanOf (Machine.profiled s)).found = true)
    (h : Coherent s) : Coherent (fsyncDone s (scanOf (Machine.profiled s))) := by
  have hpr := h.profiled hbd hsw
  exact ⟨h.data.fsyncDone hbd hp hsw hf, .carry hpr.data hpr.current (fun k => .inl ⟨k, rfl⟩)
    (fun k => .inl ⟨k, rfl⟩) (fun k => .inl ⟨k, rfl⟩) (fun k => .inl ⟨k, rfl⟩)
    (fun _ => .inr (syncCurrent_fsyncDone hpr.data hp hsw hf)) nofun⟩

theorem Coherent.pextRaised {s : State} (h : Coherent s) :
    Coherent (Machine.discardWork (beginStage .pext s)) :=
  h.clearFrom .pext (h.data.invalidate_pext rfl rfl rfl rfl ⟨_, rfl⟩) rfl rfl

theorem Coherent.pextDone {s : State} (hbd : s.valid.bd = true) (hfs : s.valid.fs = true)
    (hlen : s.res.paystart.toNat + 8 * s.cfg.paysz.toNat ≤ bitCount s) (h : Coherent s) :
    Coherent (pextDone s) := by
  exact ⟨h.data.pextDone hfs hlen, .carry h.data h.current (fun k => .inl ⟨k, rfl⟩)
    (fun k => .inl ⟨k, rfl⟩) (fun k => .inl ⟨k, rfl⟩) (fun k => .inl ⟨k, rfl⟩) (fun k => .inl ⟨k, rfl⟩)
    (fun _ => .inr (payloadCurrent_pextDone (h.data.bitsListed hbd) hlen))⟩

/-- The body of a stage ends, its state having `P` after a normal end and `Q` after a `raise`. -/
def StageEnd.Ends (P Q : State → Prop) (e : StageEnd) : Prop :=
  match e with
  | .ok s => P s
  | .raised s _ => Q s
  | .overrun => False

theorem StageEnd.Ends.andThen {P P' Q : State → Prop} {e : StageEnd} {f : State → StageEnd}
    (he : e.Ends P Q) (hf : ∀ s, P s → (f s).Ends P' Q) : (e.andThen f).Ends P' Q := by
  cases e with
  | ok s => exact hf s he
  | raised s r => exact he
  | overrun => exact he

/-- The command of stage `st` is accepted in a coherent state. -/
structure Ready (st : Stage) (s : State) : Prop extends Coherent s where
  accepted : prologue st s = none

theorem Ready.legal {st : Stage} {s : State} (h : Ready st s) : configCheck s.cfg = none :=
  ((prologue_eq_none_iff st s).mp h.accepted).1

theorem Ready.met {st : Stage} {s : State} (h : Ready st s) : prerequisite st s.valid = true :=
  ((prologue_eq_none_iff st s).mp h.accepted).2

/-- The stage after an accepted one is accepted, once its prerequisite is met. -/
theorem Ready.next {st st' : Stage} {s t : State} (h : Ready st s) (hc : t.cfg = s.cfg)
    (hp : prerequisite st' t.valid = true) (ht : Coherent t) : Ready st' t :=
  ⟨ht, (prologue_eq_none_iff st' t).mpr ⟨hc ▸ h.legal, hp⟩⟩

theorem envBody_ends {s : State} (h : Ready .env s) : (envBody s).Ends (Ready .trec) Coherent :=
  h.next (t := envDone s) rfl rfl (h.toCoherent.envDone (sps_pos_of_legal h.legal))

theorem trecBody_ends {s : State} (h : Ready .trec s) : (trecBody s).Ends (Ready .bdec) Coherent := by
  have henv : s.valid.env = true := h.met
  obtain ⟨hn, -⟩ | ⟨l, -, -, he⟩ | ⟨l, hl, h0, he⟩ := trecBody_cases s
  · obtain ⟨l, hl, -⟩ := timingOf_result (h.data.envelope henv)
    rw [hn] at hl
    cases hl
  · rw [he]
    exact h.toCoherent.trecRaised
  · rw [he]
    exact h.next (t := trecDone s l) rfl rfl (h.toCoherent.trecDone henv hl h0)

theorem bdecBody_ends {s : State} (h : Ready .bdec s) : (bdecBody s).Ends (Ready .fsync) Coherent :=
  h.next (t := bdecDone s) rfl rfl (h.toCoherent.bdecDone h.met)

theorem fsyncBody_ends {s : State} (h : Ready .fsync s) : (fsyncBody s).Ends (Ready .pext) Coherent := by
  have hbd : s.valid.bd = true := h.met
  obtain ⟨-, -, -, hsw, -, hp⟩ := (configCheck_eq_none_iff s.cfg).mp h.legal
  obtain ⟨hf, he⟩ | ⟨-, he⟩ := fsyncBody_cases s <;> rw [he]
  · exact h.next (t := fsyncDone s _) rfl (by simp [prerequisite, Valid.clearFrom, hbd])
      (h.toCoherent.fsyncDone hbd hp hsw hf)
  · exact (h.toCoherent.profiled hbd hsw).discardWork

theorem pextBody_ends {s : State} (h : Ready .pext s) : (pextBody s).Ends Coherent Coherent := by
  obtain ⟨hbd, hfs⟩ := Bool.and_eq_true_iff.mp h.met
  obtain ⟨hlen, he⟩ | ⟨-, he⟩ := pextBody_cases s <;> rw [he]
  · exact h.toCoherent.pextDone hbd hfs hlen
  · exact h.toCoherent.pextRaised

/-- RUN has no prerequisite, and neither has its first stage (R231). -/
theorem runBody_ends {s : State} (h : Ready .none s) : (runBody s).Ends Coherent Coherent :=
  ((((envBody_ends (h.next rfl rfl h.toCoherent)).andThen fun _ => trecBody_ends).andThen
    fun _ => bdecBody_ends).andThen fun _ => fsyncBody_ends).andThen fun _ => pextBody_ends

/-- A command that keeps the results current in its body does so to its end (R228, R259). -/
theorem command_coherent {st : Stage} {body : State → StageEnd} {s t : State} {P : State → Prop}
    (hP : ∀ u, P u → Coherent u) (hb : Ready st s → (body s).Ends P Coherent) (hs : Coherent s)
    (h : command st body s = .next t) : Coherent t := by
  obtain ⟨r, -, rfl⟩ | ⟨hp, ⟨u, hu, rfl⟩ | ⟨u, r, hu, rfl⟩⟩ := command_cases h
  · exact hs.complete r
  · have hend := hb ⟨hs, hp⟩
    rw [hu] at hend
    exact (hP u hend).complete _
  · have hend := hb ⟨hs, hp⟩
    rw [hu] at hend
    exact Coherent.complete hend r

theorem exec_coherent {i : Instr} {s t : State} (hs : Coherent s) (h : exec i s = .next t) :
    Coherent t := by
  cases i with
  | env => exact command_coherent (fun _ h => h.toCoherent) envBody_ends hs h
  | trec => exact command_coherent (fun _ h => h.toCoherent) trecBody_ends hs h
  | bdec => exact command_coherent (fun _ h => h.toCoherent) bdecBody_ends hs h
  | fsync => exact command_coherent (fun _ h => h.toCoherent) fsyncBody_ends hs h
  | pext => exact command_coherent (fun _ => id) pextBody_ends hs h
  | run => exact command_coherent (fun _ => id) runBody_ends hs h
  | clr =>
    cases h
    refine Coherent.complete (hs.clearFrom (t := clearResults s) .env ?_ rfl trivial) okRecord
    exact .invalidate_env (s := s) rfl rfl hs.data.memory (by decide : (0#17).toNat < Config.nMax)

/-! ## The host's writes and every step -/

theorem memWrite_coherent {s t : State} {space idx : Nat} {v : Word}
    (h : memWrite s space idx v = some t) (hs : Coherent s) : Coherent t := by
  have hd := hs.data
  obtain rfl | ⟨c, rfl⟩ | ⟨c, rfl, hfs, hbr, hn, -⟩ | ⟨p, rfl⟩ | ⟨n, hlt, x, rfl⟩ | ⟨w, rfl⟩ :=
    memWrite_cases h
  · exact hs.congr rfl rfl rfl rfl rfl rfl
  · exact hs.clearFrom .env (.invalidate_env (s := s) rfl rfl hd.memory hd.symbols) rfl trivial
  · refine hs.clearFrom .fsync (.invalidate_fsync (s := s) rfl rfl rfl hfs hbr hn rfl rfl hd) rfl ?_
    simp only [KeptBefore, bitsPart, timingPart, envelopePart, writeCfg_cfg, hfs, hbr, hn]
    rfl
  · exact hs.clearFrom .pext (.invalidate_pext (s := s) rfl rfl rfl rfl ⟨p, rfl⟩ hd) rfl rfl
  · refine hs.clearFrom .env (.invalidate_env (s := s) rfl rfl ?_ hd.symbols) rfl trivial
    obtain ⟨hiq, hrest⟩ := (Memory.wf_iff _).mp hd.memory
    exact (Memory.wf_iff _).mpr ⟨Cells.wf_write _ _ _ _ hlt hiq, hrest⟩
  · exact hs.clearFrom .fsync (.invalidate_fsync (s := s) rfl rfl rfl rfl rfl rfl rfl rfl hd) rfl rfl

theorem hostWrite_coherent (a : HostAddr) (v : Word) {s : State} (hs : Coherent s) :
    Coherent (hostWrite s a v) := by
  obtain h | ⟨t, -, hm, h⟩ := hostWrite_cases s a v <;> rw [h]
  · exact hs.congr rfl rfl rfl rfl rfl rfl
  · exact (memWrite_coherent hm hs).congr rfl rfl rfl rfl rfl rfl

theorem coreStep_coherent {s t : State} (hs : Coherent s) (h : coreStep s = .next t) : Coherent t := by
  obtain ⟨-, he⟩ | ⟨-, -, he⟩ | ⟨i, -, -, he⟩ := coreStep_cases s <;> rw [he] at h
  · cases h; exact hs
  · cases h; exact hs.complete _
  · exact exec_coherent hs h

/-- Nothing is marked valid after the reset input (R52, R291). -/
theorem resetEvent_coherent (s : State) : Coherent (resetEvent s) where
  data := .invalidate_env (s := State.reset) rfl rfl rfl (by decide : (0#17).toNat < Config.nMax)
  current := ⟨nofun, nofun, nofun, nofun, nofun, nofun⟩

theorem step_coherent {s t : State} (hs : Coherent s) (h : step s = .next t) : Coherent t := by
  have hport : ∀ p, Coherent { s with port := p } := fun p => hs.congr rfl rfl rfl rfl rfl rfl
  obtain ⟨-, he⟩ | ⟨rest, -, he⟩ | ⟨a, rest, -, he⟩ | ⟨a, v, rest, -, he⟩ | ⟨rest, -, he⟩ | ⟨rest, -, he⟩ :=
    step_cases s <;> rw [he] at h
  · exact coreStep_coherent hs h
  · exact coreStep_coherent (hport rest) h
  · cases h; exact (hport rest).congr rfl rfl rfl rfl rfl rfl
  · cases h; exact hostWrite_coherent a v (hport rest)
  · cases h; exact resetEvent_coherent _
  · cases h; exact hport _

/-- Settles O52: `Coherent` is kept by every step, and `Inv` gives its data part. -/
theorem validResultsStayCurrent : Obligations.ValidResultsStayCurrent := by
  intro s t hinv hcur hstep
  exact (step_coherent ⟨hinv.data, hcur⟩ hstep).current

end Sys2Proof.Machine
end

section
/-! The host port's registers and flags (10_state.md R28 to R46), the record of a completion (R35, R36), and the
state after reset (R52). -/

namespace Sys2Proof.Machine

/-! ## Addresses (20_memory.md R61) -/

theorem spaceOf_eq (a : HostAddr) : spaceOf a = a.toNat / 2 ^ 20 := by
  have := a.isLt
  rw [spaceOf, BitVec.extractLsb'_toNat, Nat.shiftRight_eq_div_pow]
  omega

theorem indexOf_eq (a : HostAddr) : indexOf a = a.toNat % 2 ^ 20 := by
  rw [indexOf, BitVec.extractLsb'_toNat, Nat.shiftRight_zero]

theorem spaceOf_register {idx : Nat} (h : idx < 2 ^ 20) : spaceOf (BitVec.ofNat 24 idx) = 0 := by
  rw [spaceOf_eq, BitVec.toNat_ofNat]
  omega

theorem indexOf_register {idx : Nat} (h : idx < 2 ^ 20) : indexOf (BitVec.ofNat 24 idx) = idx := by
  rw [indexOf_eq, BitVec.toNat_ofNat]
  omega

/-! ## Transactions on registers -/

/-- An idle core answers a read of any readable register (R63). -/
theorem readResponse_register {s : State} {idx : Nat} {w : Word} (hb : s.busy = false)
    (hi : idx < 2 ^ 20) (h : regRead s idx = some w) :
    readResponse s (BitVec.ofNat 24 idx) = .data w := by
  rw [readResponse, spaceOf_register hi, indexOf_register hi, if_pos (by simp [readAllowed, hb]), memRead, h]

/-- A write an idle core accepts leaves what `regWrite` says (R64). -/
theorem hostWrite_register {s t : State} {idx : Nat} {v : Word} (hb : s.busy = false)
    (hi : idx < 2 ^ 20) (h : regWrite s idx v = some t) :
    hostWrite s (BitVec.ofNat 24 idx) v = { t with resp := some .ok } := by
  rw [hostWrite, hb, if_neg Bool.false_ne_true, spaceOf_register hi, indexOf_register hi, memWrite, h]

theorem hostWrite_of_busy {s : State} (hb : s.busy = true) (a : HostAddr) (v : Word) :
    hostWrite s a v = { s with resp := some .err } := by
  rw [hostWrite, if_pos hb]

/-- A write that gets `OK` is one `memWrite` takes. -/
theorem memWrite_of_accepted {s : State} {a : HostAddr} {v : Word}
    (h : (hostWrite s a v).resp = some .ok) :
    ∃ t, memWrite s (spaceOf a) (indexOf a) v = some t ∧ hostWrite s a v = { t with resp := some .ok } := by
  obtain he | ⟨t, -, hm, he⟩ := hostWrite_cases s a v
  · rw [he] at h
    cases h
  · exact ⟨t, hm, he⟩

/-- The identification word, also while a command is pending (R33, R66). -/
theorem readResponse_id (s : State) : readResponse s 0x000000#24 = .data Config.coreId := by
  rw [readResponse, show spaceOf 0x000000#24 = 0 from rfl, show indexOf 0x000000#24 = 0 from rfl,
    if_pos (by simp [readAllowed])]
  rfl

/-- `CMD` is write-only (R34). -/
theorem readResponse_cmd (s : State) : readResponse s 0x000001#24 = .err := by
  rw [readResponse, show spaceOf 0x000001#24 = 0 from rfl, show indexOf 0x000001#24 = 1 from rfl]
  exact ite_self _

/-- Settles O35: the cases of `BUSY`, and that no read is answered from index 1. -/
theorem cmdWriteStartsCommand : Obligations.CmdWriteStartsCommand := fun s w =>
  ⟨fun hb => hostWrite_register (idx := 1) hb (by norm_num) rfl, fun hb => hostWrite_of_busy hb _ w,
    readResponse_cmd s⟩

/-- Settles O42: `ID` is readable in every state, and the constant has the fields of R33. -/
theorem identificationWord : Obligations.IdentificationWord :=
  ⟨readResponse_id, by decide, by decide, by decide⟩

/-! ## Which flags a write clears (R28) -/

/-- The stage whose flags, with those of the later stages, a write to this place clears (R28). -/
def inputStage (space idx : Nat) : Stage :=
  match space, idx with
  | 1, _ => .env
  | 8, _ => .fsync
  | 0, 0x04 => .env
  | 0, 0x05 => .env
  | 0, 0x07 => .env
  | 0, 0x08 => .fsync
  | 0, 0x09 => .fsync
  | 0, 0x0A => .fsync
  | 0, 0x0C => .fsync
  | 0, 0x0D => .fsync
  | 0, 0x0E => .pext
  | _, _ => .none

theorem regWrite_flags {s t : State} {idx : Nat} {v : Word} (h : regWrite s idx v = some t) :
    t.valid = s.valid.clearFrom (inputStage 0 idx) ∧ t.cond = s.cond.clearFrom (inputStage 0 idx) ∧
      t.res = s.res := by
  unfold regWrite at h
  split at h <;> cases h <;> exact ⟨rfl, rfl, rfl⟩

/-- An accepted write clears the flags of its stage's results, and moves no result register (R28, R45). -/
theorem memWrite_flags {s t : State} {space idx : Nat} {v : Word}
    (h : memWrite s space idx v = some t) :
    t.valid = s.valid.clearFrom (inputStage space idx) ∧
      t.cond = s.cond.clearFrom (inputStage space idx) ∧ t.res = s.res := by
  unfold memWrite at h
  split at h
  · exact regWrite_flags h
  · split_ifs at h
    cases h
    exact ⟨rfl, rfl, rfl⟩
  · split_ifs at h
    cases h
    exact ⟨rfl, rfl, rfl⟩
  · cases h

theorem hostWrite_flags {s : State} {a : HostAddr} {v : Word} {st : Stage}
    (h : (hostWrite s a v).resp = some .ok) (hst : inputStage (a.toNat / 2 ^ 20) (a.toNat % 2 ^ 20) = st) :
    (hostWrite s a v).valid = s.valid.clearFrom st ∧ (hostWrite s a v).cond = s.cond.clearFrom st := by
  obtain ⟨t, hm, he⟩ := memWrite_of_accepted h
  obtain ⟨hv, hc, -⟩ := memWrite_flags hm
  rw [spaceOf_eq, indexOf_eq, hst] at hv hc
  rw [he]
  exact ⟨hv, hc⟩

/-- Settles O36: each row of R28's table names the addresses of one `inputStage`. -/
theorem hostWritesClearFlags : Obligations.HostWritesClearFlags := by
  intro s a v h
  refine ⟨fun ha => hostWrite_flags (st := .env) h ?_, fun ha => hostWrite_flags (st := .fsync) h ?_,
    fun ha => hostWrite_flags (st := .pext) h ?_, fun ha => hostWrite_flags (st := .none) h ?_, ?_⟩
  · obtain ha | ha | ha | ha := ha <;> rw [ha] <;> rfl
  · obtain ha | ha | ha | ha | ha | ha := ha <;> rw [ha] <;> rfl
  · rw [ha]; rfl
  · rw [ha]; rfl
  · obtain ⟨t, hm, he⟩ := memWrite_of_accepted h
    rw [he]
    exact (memWrite_flags hm).2.2

/-! ## The configuration registers (R32, R37 to R44) -/

/-- The index and the width of each configuration register. -/
def configWidths : List (Nat × Nat) :=
  [(0x04, 32), (0x05, 32), (0x07, 17), (0x08, 8), (0x09, 8), (0x0A, 8), (0x0C, 16), (0x0D, 2), (0x0E, 16)]

/-- A configuration register as the host reads it. -/
def configWord (c : Cfg) (idx : Nat) : Word :=
  match idx with
  | 0x04 => c.fs.setWidth 64
  | 0x05 => c.br.setWidth 64
  | 0x07 => c.nsamp.setWidth 64
  | 0x08 => c.pre.setWidth 64
  | 0x09 => c.npre.setWidth 64
  | 0x0A => c.swlen.setWidth 64
  | 0x0C => c.th.setWidth 64
  | 0x0D => c.policy.setWidth 64
  | 0x0E => c.paysz.setWidth 64
  | _ => 0#64

theorem regRead_config (s : State) {idx : Nat} (h : idx ∈ configWidths.map Prod.fst) :
    regRead s idx = some (configWord s.cfg idx) := by
  simp only [configWidths, List.map, List.mem_cons, List.not_mem_nil, or_false] at h
  obtain rfl | rfl | rfl | rfl | rfl | rfl | rfl | rfl | rfl := h <;> rfl

theorem config_lt {idx : Nat} (h : idx ∈ configWidths.map Prod.fst) : idx < 2 ^ 20 := by
  revert idx
  decide

theorem readResponse_config {s : State} (hb : s.busy = false) {idx : Nat}
    (h : idx ∈ configWidths.map Prod.fst) :
    readResponse s (BitVec.ofNat 24 idx) = .data (configWord s.cfg idx) :=
  readResponse_register hb (config_lt h) (regRead_config s h)

theorem setWidth_setWidth_eq_ofNat_mod (v : Word) (w : Nat) :
    (v.setWidth w).setWidth 64 = BitVec.ofNat 64 (v.toNat % 2 ^ w) := by
  apply BitVec.eq_of_toNat_eq
  rw [BitVec.toNat_setWidth, BitVec.toNat_setWidth, BitVec.toNat_ofNat]

/-- A write stores the word modulo the register's width and moves no other configuration register (R32). -/
theorem regWrite_config (s : State) {idx width : Nat} (v : Word) (h : (idx, width) ∈ configWidths) :
    ∃ st c, regWrite s idx v = some (writeCfg s st c) ∧
      configWord c idx = BitVec.ofNat 64 (v.toNat % 2 ^ width) ∧
      ∀ j, j ≠ idx → configWord c j = configWord s.cfg j := by
  simp only [configWidths, List.mem_cons, Prod.mk.injEq, List.not_mem_nil, or_false] at h
  obtain ⟨rfl, rfl⟩ | ⟨rfl, rfl⟩ | ⟨rfl, rfl⟩ | ⟨rfl, rfl⟩ | ⟨rfl, rfl⟩ | ⟨rfl, rfl⟩ | ⟨rfl, rfl⟩ |
    ⟨rfl, rfl⟩ | ⟨rfl, rfl⟩ := h <;>
  · refine ⟨_, _, rfl, setWidth_setWidth_eq_ofNat_mod v _, fun j hj => ?_⟩
    unfold configWord
    split <;> simp_all

/-- Settles O37: the write is `writeCfg` of the stored word, which moves nothing else the host reads here. -/
theorem registerWriteReadBack : Obligations.RegisterWriteReadBack := by
  intro s idx width v hb h
  have hidx : idx ∈ configWidths.map Prod.fst := List.mem_map_of_mem (f := Prod.fst) h
  obtain ⟨st, c, hw, hself, hother⟩ := regWrite_config s v h
  have hread : ∀ j ∈ configWidths.map Prod.fst,
      readResponse { writeCfg s st c with resp := some .ok } (BitVec.ofNat 24 j) = .data (configWord c j) :=
    fun _ => readResponse_config (s := { writeCfg s st c with resp := some .ok }) hb
  rw [hostWrite_register hb (config_lt hidx) hw]
  refine ⟨rfl, ?_, fun j hj hmem => ?_, rfl, rfl, rfl, hb, rfl, rfl, rfl, rfl, rfl⟩
  · rw [← hself]
    exact hread idx hidx
  · rw [readResponse_config hb hmem, ← hother j hj]
    exact hread j hmem

/-! ## `STATUS` and `ERRINFO` (R35, R36) -/

theorem toNat_append_eq_add {m n : Nat} (x : BitVec m) (y : BitVec n) :
    (x ++ y).toNat = 2 ^ n * x.toNat + y.toNat := by
  rw [BitVec.toNat_append, ← Nat.shiftLeft_add_eq_or_of_lt y.isLt, Nat.shiftLeft_eq, Nat.mul_comm]

theorem toNat_bitOf (b : Bool) : (bitOf b).toNat = b.toNat := BitVec.toNat_ofBool b

theorem toNat_statusWord (s : State) :
    (statusWord s).toNat =
      s.busy.toNat + 2 * s.done.toNat + 16 * s.err.bits.toNat + 256 * s.lastop.toNat +
        65536 * s.valid.env.toNat + 131072 * s.valid.tr.toNat + 262144 * s.valid.bd.toNat +
        524288 * s.valid.prof.toNat + 1048576 * s.valid.fs.toNat + 2097152 * s.valid.pe.toNat +
        16777216 * s.cond.envZero.toNat + 33554432 * s.cond.wTrec.toNat +
        67108864 * s.cond.wFsync.toNat := by
  simp only [statusWord, toNat_append_eq_add, toNat_bitOf, BitVec.toNat_zero]
  omega

/-- Bits 7:4 of `STATUS` are the code's number (R35, R251). -/
theorem statusWord_err (s : State) : (statusWord s).toNat / 16 % 16 = s.err.bits.toNat := by
  have herr := s.err.bits.isLt
  have hbusy := s.busy.toNat_le
  have hdone := s.done.toNat_le
  rw [toNat_statusWord]
  omega

theorem toNat_errinfoWord (s : State) :
    (errinfoWord s).toNat = 16 * s.errSub.toNat + s.errStage.bits.toNat := by
  simp only [errinfoWord, toNat_append_eq_add, BitVec.toNat_zero]
  omega

theorem memRead_sps (s : State) :
    (s.cfg.br.toNat = 0 → memRead s 0 0x06 = some 0#64) ∧
      (s.cfg.br.toNat ≠ 0 →
        memRead s 0 0x06 = some (BitVec.ofNat 64 (s.cfg.fs.toNat / s.cfg.br.toNat))) := by
  have h : memRead s 0 0x06 = some (BitVec.ofNat 64 (sps s.cfg)) := rfl
  exact ⟨fun h0 => by rw [h, sps, if_pos h0], fun h0 => by rw [h, sps, if_neg h0]⟩

/-- Settles O41: the words as numbers, the table of codes and stages, and the register map row by row. -/
theorem statusWordLayout : Obligations.StatusWordLayout := by
  intro s
  have herr : ∀ c, s.err = c → (statusWord s).toNat / 16 % 16 = c.bits.toNat := fun c h => by
    rw [statusWord_err, h]
  have hstage : ∀ st, s.errStage = st → (errinfoWord s).toNat = 16 * s.errSub.toNat + st.bits.toNat :=
    fun st h => by rw [toNat_errinfoWord, h]
  obtain ⟨hsps0, hsps⟩ := memRead_sps s
  exact ⟨toNat_statusWord s, herr .ok, herr .config, herr .insuff, herr .nosync, herr .illcmd, herr .seq,
    toNat_errinfoWord s, hstage .none, hstage .env, hstage .trec, hstage .bdec, hstage .fsync, hstage .pext,
    rfl, rfl, hsps0, hsps, rfl, rfl, rfl, rfl, congrArg some (BitVec.ofNat_toNat _ _).symm, rfl,
    congrArg some (BitVec.ofNat_toNat _ _).symm, congrArg some (BitVec.ofNat_toNat _ _).symm⟩

/-! ## The record of a completion (R35, R36) -/

/-- `ERR`, `LASTOP` and `ERRINFO` are as before. -/
def RecordKept (s t : State) : Prop :=
  t.err = s.err ∧ t.lastop = s.lastop ∧ t.errStage = s.errStage ∧ t.errSub = s.errSub

theorem memWrite_recordKept {s t : State} {space idx : Nat} {v : Word}
    (h : memWrite s space idx v = some t) : RecordKept s t := by
  obtain rfl | ⟨c, rfl⟩ | ⟨c, rfl, -⟩ | ⟨p, rfl⟩ | ⟨n, -, x, rfl⟩ | ⟨w, rfl⟩ := memWrite_cases h <;>
    exact ⟨rfl, rfl, rfl, rfl⟩

theorem hostWrite_recordKept (s : State) (a : HostAddr) (v : Word) : RecordKept s (hostWrite s a v) := by
  obtain h | ⟨t, -, hm, h⟩ := hostWrite_cases s a v <;> rw [h]
  · exact ⟨rfl, rfl, rfl, rfl⟩
  · exact memWrite_recordKept (t := t) hm

/-- A turn of the core that ends no command does nothing: a busy core always ends its command (R226, R228). -/
theorem coreStep_of_not_completed {s t : State} (h : coreStep s = .next t)
    (hnot : s.busy = false ∨ t.busy = true) : t = s := by
  obtain ⟨-, he⟩ | ⟨hb, -, he⟩ | ⟨i, hb, -, he⟩ := coreStep_cases s <;> rw [he] at h
  · cases h; rfl
  · cases h; simp [hb] at hnot
  · obtain ⟨-, hidle, -⟩ := exec_keeps h
    simp [hb, hidle] at hnot

/-- Settles O12, event by event of the schedule. -/
theorem onlyCompletionChangesTheRecord : Obligations.OnlyCompletionChangesTheRecord := by
  intro s t h hreset hnot
  change RecordKept s t
  obtain ⟨-, he⟩ | ⟨rest, -, he⟩ | ⟨a, rest, -, he⟩ | ⟨a, v, rest, -, he⟩ | ⟨rest, hp, -⟩ | ⟨rest, -, he⟩ :=
    step_cases s
  · rw [coreStep_of_not_completed (he ▸ h) hnot]
    exact ⟨rfl, rfl, rfl, rfl⟩
  · rw [coreStep_of_not_completed (s := { s with port := rest }) (he ▸ h) hnot]
    exact ⟨rfl, rfl, rfl, rfl⟩
  · cases he ▸ h
    exact ⟨rfl, rfl, rfl, rfl⟩
  · cases he ▸ h
    exact hostWrite_recordKept { s with port := rest } a v
  · rw [hp] at hreset
    exact absurd rfl hreset
  · cases he ▸ h
    exact ⟨rfl, rfl, rfl, rfl⟩

/-! ## A placed command word (log 2) -/

theorem decode_encode (i : Instr) : decode (encode i) = .command i := by
  cases i with
  | env => exact Laws.TableWord.env.2.1
  | trec => exact Laws.TableWord.trec.2.1
  | bdec => exact Laws.TableWord.bdec.2.1
  | fsync => exact Laws.TableWord.fsync.2.1
  | pext => exact Laws.TableWord.pext.2.1
  | run => exact Laws.TableWord.run.2.1
  | clr => exact Laws.TableWord.clr.2.1

/-- The core's turn with a command's word pending (R226). -/
theorem coreStep_of_pending {s : State} {i : Instr} (hb : s.busy = true) (hp : s.pend = encode i) :
    coreStep s = exec i s := by
  rw [coreStep, if_pos hb, hp, decode_encode]

theorem ofNat_toNat_encode (i : Instr) : BitVec.ofNat 64 ((encode i).toNat % 2 ^ 64) = encode i := by
  rw [Nat.mod_eq_of_lt (encode i).isLt, BitVec.ofNat_toNat, BitVec.setWidth_eq]

/-- Settles O5: with or without a schedule, the step after the placement is the core's turn. -/
theorem placedWordRunsNext : Obligations.PlacedWordRunsNext := by
  intro s i
  have hturn : step (s.withFetchWord 64 (encode i).toNat) =
      coreStep { s with pend := encode i, busy := true, done := false } := by
    simp only [State.withFetchWord, ofNat_toNat_encode, step]
    cases h : s.port with
    | nil => rfl
    | cons e rest => rfl
  exact hturn.trans (coreStep_of_pending rfl rfl)

/-! ## Reset (R52) -/

/-- Settles O47: every register by evaluation; the memories list nothing. -/
theorem resetState : Obligations.ResetState :=
  ⟨rfl, rfl, by decide, by decide, by decide, by decide,
    fun _ => ⟨rfl, rfl, rfl, rfl, rfl, rfl, rfl⟩⟩

/-- Settles O49: no flag is set after reset, so every clause on results is empty. -/
theorem resetHasInvariant : Obligations.ResetHasInvariant := fun _ =>
  .of_data (.invalidate_env (s := State.reset) rfl rfl rfl (by decide : (0#17).toNat < Config.nMax)) rfl
    nofun ⟨rfl, rfl⟩

end Sys2Proof.Machine
end

section
/-! The memories as the host port shows them (20_memory.md R61 to R66): where an address leads, what a read of each
space is answered with, and what a write of a sample or a sync byte leaves. -/

namespace Sys2Proof.Machine

/-! ## Addresses (R61) -/

theorem spaceOf_ofNat {space idx : Nat} (hs : space < 16) (hi : idx < 2 ^ 20) :
    spaceOf (BitVec.ofNat 24 (space * 2 ^ 20 + idx)) = space := by
  rw [spaceOf_eq, BitVec.toNat_ofNat]
  omega

theorem indexOf_ofNat (space : Nat) {idx : Nat} (hi : idx < 2 ^ 20) :
    indexOf (BitVec.ofNat 24 (space * 2 ^ 20 + idx)) = idx := by
  rw [indexOf_eq, BitVec.toNat_ofNat]
  omega

theorem hostAddr_ext {a b : HostAddr} (hs : spaceOf a = spaceOf b) (hi : indexOf a = indexOf b) : a = b := by
  rw [spaceOf_eq, spaceOf_eq] at hs
  rw [indexOf_eq, indexOf_eq] at hi
  apply BitVec.eq_of_toNat_eq
  omega

/-! ## The busy rule (R66) -/

theorem readAllowed_of_busy {s : State} (hb : s.busy = true) (space idx : Nat) :
    readAllowed s space idx = true ↔ space = 0 ∧ (idx = 0x02 ∨ idx = 0x00) := by
  simp [readAllowed, hb]

theorem readResponse_of_busy {s : State} {a : HostAddr} (hb : s.busy = true) (hstatus : a ≠ 0x000002#24)
    (hid : a ≠ 0x000000#24) : readResponse s a = .err := by
  have hrefused : ¬readAllowed s (spaceOf a) (indexOf a) = true := by
    rw [readAllowed_of_busy hb]
    rintro ⟨hs, hi | hi⟩
    · exact hstatus (hostAddr_ext hs hi)
    · exact hid (hostAddr_ext hs hi)
  rw [readResponse, if_neg hrefused]

/-- Settles O33: an address is `STATUS`, `ID` or refused, and a busy core refuses every write. -/
theorem busyRule : Obligations.BusyRule := fun s a v hb =>
  ⟨fun ha => ha ▸ readResponse_status s, fun ha => ha ▸ readResponse_id s, readResponse_of_busy hb,
    hostWrite_of_busy hb a v⟩

/-! ## Transactions of an idle core on a memory (R63, R64) -/

/-- The read counterpart of `readResponse_register`, for every space. -/
theorem readResponse_memory {s : State} {space idx : Nat} {w : Word} (hb : s.busy = false)
    (hs : space < 16) (hi : idx < 2 ^ 20) (h : memRead s space idx = some w) :
    readResponse s (BitVec.ofNat 24 (space * 2 ^ 20 + idx)) = .data w := by
  rw [readResponse, spaceOf_ofNat hs hi, indexOf_ofNat space hi, if_pos (by simp [readAllowed, hb]), h]

theorem hostWrite_memory {s t : State} {space idx : Nat} {v : Word} (hb : s.busy = false)
    (hs : space < 16) (hi : idx < 2 ^ 20) (h : memWrite s space idx v = some t) :
    hostWrite s (BitVec.ofNat 24 (space * 2 ^ 20 + idx)) v = { t with resp := some .ok } := by
  rw [hostWrite, hb, if_neg Bool.false_ne_true, spaceOf_ofNat hs hi, indexOf_ofNat space hi, h]

/-! ## The specified entries of the output memories (R48, R61) -/

theorem hostEntry_of_read {w : Nat} {valid : Bool} {len idx : Nat} {m : Cells (BitVec w)} {v : BitVec w}
    (free space : Nat) (hv : valid = true) (hlen : idx < len) (h : Cells.read m idx = some v) :
    hostEntry valid len m free space idx = v := by
  rw [hostEntry, if_pos (by simp [hv, hlen]), entryOr_of_read m free space idx h]

/-- A specified entry of a memory that lists its meaningful part does not depend on the counter. -/
theorem hostEntry_congr {w : Nat} {valid : Bool} {len idx : Nat} {m : Cells (BitVec w)} (free free' space : Nat)
    (hl : valid = true → Listed m len) (h : valid = true ∧ idx < len) :
    hostEntry valid len m free space idx = hostEntry valid len m free' space idx := by
  obtain ⟨hv, hlen⟩ := h
  obtain ⟨v, hread⟩ := Option.isSome_iff_exists.mp (hl hv idx hlen)
  rw [hostEntry_of_read free space hv hlen hread, hostEntry_of_read free' space hv hlen hread]

/-- A narrow entry as the host reads it: zero extended. -/
theorem setWidth_hostEntry_of_read {w : Nat} {valid : Bool} {len idx : Nat} {m : Cells (BitVec w)} {v : BitVec w}
    (free space : Nat) (hv : valid = true) (hlen : idx < len) (h : Cells.read m idx = some v) :
    (hostEntry valid len m free space idx).setWidth 64 = BitVec.ofNat 64 v.toNat := by
  rw [hostEntry_of_read free space hv hlen h, BitVec.ofNat_toNat]

/-- Settles O39: below the depth each space answers with its `hostEntry`, which is the listed entry. -/
theorem outputMemoriesReadBack : Obligations.OutputMemoriesReadBack := by
  intro s n hb hn
  have hidx : n < 2 ^ 20 := by omega
  refine ⟨fun c hv hlen h => ?cent, fun t hv hlen h => ?clk, fun y hv hlen h => ?syn,
    fun b hv hlen h => ?bits, fun p hv hlen h => ?prof, fun b hv hlen hdepth h => ?pay⟩
  case cent =>
    exact readResponse_memory (space := 2) hb (by decide) hidx
      ((if_pos hn).trans (congrArg some (hostEntry_of_read s.free 2 hv hlen h)))
  case clk =>
    exact readResponse_memory (space := 3) hb (by decide) hidx
      ((if_pos hn).trans (congrArg some (setWidth_hostEntry_of_read s.free 3 hv hlen h)))
  case syn =>
    exact readResponse_memory (space := 4) hb (by decide) hidx
      ((if_pos hn).trans (congrArg some (hostEntry_of_read s.free 4 hv hlen h)))
  case bits =>
    exact readResponse_memory (space := 5) hb (by decide) hidx
      ((if_pos hn).trans (congrArg some (setWidth_hostEntry_of_read s.free 5 hv hlen h)))
  case prof =>
    exact readResponse_memory (space := 6) hb (by decide) hidx
      ((if_pos hn).trans (congrArg some (setWidth_hostEntry_of_read s.free 6 hv hlen h)))
  case pay =>
    exact readResponse_memory (space := 7) hb (by decide) hidx
      ((if_pos hdepth).trans (congrArg some (setWidth_hostEntry_of_read s.free 7 hv hlen h)))

/-! ## Samples (R47, R61) -/

theorem iqAt_of_read {s : State} {n : Nat} {x : Sample} (h : Cells.read s.mem.iq n = some x) :
    iqAt s n = x := by
  rw [iqAt, h, Option.getD_some]

theorem iqAt_congr {s t : State} {n : Nat} (hmem : t.mem = s.mem)
    (h : (Cells.read s.mem.iq n).isSome = true) : iqAt t n = iqAt s n := by
  obtain ⟨x, hx⟩ := Option.isSome_iff_exists.mp h
  rw [iqAt_of_read hx, iqAt_of_read (hmem ▸ hx)]

theorem toNat_wordSample_i (v : Word) : (wordSample v).i.toNat = v.toNat % 2 ^ 16 := by
  rw [wordSample, BitVec.extractLsb'_toNat, Nat.shiftRight_zero]

theorem toNat_wordSample_q (v : Word) : (wordSample v).q.toNat = v.toNat / 2 ^ 32 % 2 ^ 16 := by
  rw [wordSample, BitVec.extractLsb'_toNat, Nat.shiftRight_eq_div_pow]

/-- A word is its four 16-bit fields, most significant first. -/
theorem word_eq_append_fields (v : Word) :
    v = v.extractLsb' 48 16 ++ v.extractLsb' 32 16 ++ v.extractLsb' 16 16 ++ v.extractLsb' 0 16 := by
  apply BitVec.eq_of_toNat_eq
  have := v.isLt
  simp only [toNat_append_eq_add, BitVec.extractLsb'_toNat, Nat.shiftRight_eq_div_pow]
  omega

/-- Storing a word as a sample and reading it back keeps bits 15:0 and 47:32: field by field, the mask is all
ones or all zeros. -/
theorem sampleWord_wordSample (v : Word) : sampleWord (wordSample v) = v &&& 0x0000FFFF0000FFFF#64 := by
  have hmask : 0#16 ++ BitVec.allOnes 16 ++ 0#16 ++ BitVec.allOnes 16 = 0x0000FFFF0000FFFF#64 := by decide
  calc sampleWord (wordSample v)
    _ = (v.extractLsb' 48 16 &&& 0#16) ++ (v.extractLsb' 32 16 &&& BitVec.allOnes 16) ++
          (v.extractLsb' 16 16 &&& 0#16) ++ (v.extractLsb' 0 16 &&& BitVec.allOnes 16) := by
      rw [BitVec.and_zero, BitVec.and_zero, BitVec.and_allOnes, BitVec.and_allOnes]
      rfl
    _ = (v.extractLsb' 48 16 ++ v.extractLsb' 32 16 ++ v.extractLsb' 16 16 ++ v.extractLsb' 0 16) &&&
          (0#16 ++ BitVec.allOnes 16 ++ 0#16 ++ BitVec.allOnes 16) := by
      rw [BitVec.and_append, BitVec.and_append, BitVec.and_append]
    _ = v &&& 0x0000FFFF0000FFFF#64 := congrArg₂ _ (word_eq_append_fields v).symm hmask

/-- What an accepted write of a sample leaves (R28, R64). -/
def sampleWritten (s : State) (n : Nat) (x : Sample) : State :=
  { invalidateFrom .env { s with mem := { s.mem with iq := Cells.write s.mem.iq n x } } with
    resp := some .ok }

theorem hostWrite_sample {s : State} (hb : s.busy = false) {n : Nat} (hn : n < Config.nMax) (v : Word) :
    hostWrite s (BitVec.ofNat 24 (0x100000 + n)) v = sampleWritten s n (wordSample v) :=
  hostWrite_memory (space := 1) hb (by decide) (hn.trans (by decide)) (if_pos hn)

theorem readResponse_sample {s : State} (hb : s.busy = false) {n : Nat} (hn : n < Config.nMax) {x : Sample}
    (h : Cells.read s.mem.iq n = some x) :
    readResponse s (BitVec.ofNat 24 (0x100000 + n)) = .data (sampleWord x) :=
  readResponse_memory (space := 1) hb (by decide) (hn.trans (by decide))
    ((if_pos hn).trans (by rw [iqAt_of_read h]))

theorem Memory.wf_write_iq {m : Memory} {n : Nat} (hn : n < Config.nMax) (x : Sample)
    (h : Memory.wf m = true) : Memory.wf { m with iq := Cells.write m.iq n x } = true := by
  obtain ⟨hiq, hrest⟩ := (Memory.wf_iff m).mp h
  exact (Memory.wf_iff _).mpr ⟨Cells.wf_write _ _ _ _ hn hiq, hrest⟩

/-! ## Sync bytes (R46, R61) -/

theorem syncByte_setSyncByte_self (w : Vector Byte 8) {q : Nat} (hq : q < 8) (b : Byte) :
    syncByte (setSyncByte w q b) q = b := by
  rw [syncByte, setSyncByte, dif_pos hq, dif_pos hq, Vector.getElem_set_self]

theorem syncByte_setSyncByte_of_ne (w : Vector Byte 8) {p q : Nat} (h : p ≠ q) (b : Byte) :
    syncByte (setSyncByte w q b) p = syncByte w p := by
  unfold syncByte setSyncByte
  by_cases hq : q < 8
  · by_cases hp : p < 8
    · rw [dif_pos hp, dif_pos hp, dif_pos hq, Vector.getElem_set_ne _ _ h.symm]
    · rw [dif_neg hp, dif_neg hp]
  · rw [dif_neg hq]

theorem setWidth_setWidth_byte (v : Word) : (v.setWidth 8).setWidth 64 = v &&& 0xFF#64 := by
  apply BitVec.eq_of_toNat_eq
  have hmask : (v &&& 0xFF#64).toNat = v.toNat % 2 ^ 8 :=
    (BitVec.toNat_and v 0xFF#64).trans (Nat.and_two_pow_sub_one_eq_mod v.toNat 8)
  rw [setWidth_setWidth_eq_ofNat_mod, BitVec.toNat_ofNat, hmask]
  omega

/-- What an accepted write of a sync byte leaves (R28, R64). -/
def syncByteWritten (s : State) (q : Nat) (b : Byte) : State :=
  { invalidateFrom .fsync { s with syncw := setSyncByte s.syncw q b } with resp := some .ok }

@[simp] theorem syncByteWritten_syncw (s : State) (q : Nat) (b : Byte) :
    (syncByteWritten s q b).syncw = setSyncByte s.syncw q b := rfl

theorem hostWrite_syncByte {s : State} (hb : s.busy = false) {q : Nat} (hq : q < Config.swMax) (v : Word) :
    hostWrite s (BitVec.ofNat 24 (0x800000 + q)) v = syncByteWritten s q (v.setWidth 8) :=
  hostWrite_memory (space := 8) hb (by decide) (hq.trans (by decide)) (if_pos hq)

theorem readResponse_syncByte {s : State} (hb : s.busy = false) {q : Nat} (hq : q < Config.swMax) :
    readResponse s (BitVec.ofNat 24 (0x800000 + q)) = .data ((syncByte s.syncw q).setWidth 64) :=
  readResponse_memory (space := 8) hb (by decide) (hq.trans (by decide)) (if_pos hq)

/-- Settles O38: `Cells.read` after `Cells.write`, and `syncByte` after `setSyncByte`, in the host's formats. -/
theorem sampleAndSyncByteReadBack : Obligations.SampleAndSyncByteReadBack := by
  intro s v hb
  constructor
  · intro n hn
    have hstored : Cells.read (sampleWritten s n (wordSample v)).mem.iq n = some (wordSample v) :=
      Cells.read_write_self s.mem.iq n (wordSample v)
    have hbt : (sampleWritten s n (wordSample v)).busy = false := hb
    rw [hostWrite_sample hb hn v]
    refine ⟨rfl, ?_, ⟨wordSample v, hstored, toNat_wordSample_i v, toNat_wordSample_q v⟩,
      fun m hm => Cells.read_write_of_ne s.mem.iq (wordSample v) hm, rfl, rfl, rfl,
      Memory.wf_write_iq hn (wordSample v)⟩
    rw [← sampleWord_wordSample]
    exact readResponse_sample hbt hn hstored
  · intro q hq
    have hbt : (syncByteWritten s q (v.setWidth 8)).busy = false := hb
    rw [hostWrite_syncByte hb hq v]
    refine ⟨rfl, ?_, fun p hp hpq => ?_, rfl, rfl⟩
    · rw [readResponse_syncByte hbt hq, syncByteWritten_syncw, syncByte_setSyncByte_self s.syncw hq,
        setWidth_setWidth_byte]
    · rw [readResponse_syncByte hbt hp, readResponse_syncByte hb hp, syncByteWritten_syncw,
        syncByte_setSyncByte_of_ne s.syncw hpq]

/-! ## Reading twice (R63, R69) -/

theorem Inv.listed_cent {s : State} (h : Inv s) (hv : s.valid.env = true) :
    Listed s.mem.cent (sampleCount s.cfg) := by
  obtain ⟨-, hcent, -⟩ := h.envelope hv
  exact hcent

theorem Inv.listed_clk {s : State} (h : Inv s) (hv : s.valid.tr = true) : Listed s.mem.clk (bitCount s) := by
  obtain ⟨-, -, hclk, -⟩ := h.timing hv
  exact hclk

theorem Inv.listed_syn {s : State} (h : Inv s) (hv : s.valid.tr = true) : Listed s.mem.syn (bitCount s) := by
  obtain ⟨-, -, -, hsyn⟩ := h.timing hv
  exact hsyn

theorem Inv.listed_pay {s : State} (h : Inv s) (hv : s.valid.pe = true) :
    Listed s.mem.pay s.cfg.paysz.toNat := by
  obtain ⟨-, hpay⟩ := h.payload hv
  exact hpay

/-- What an output memory of this depth answers, in the format `f`, does not depend on the counter where the
entry is specified or the index is refused. -/
theorem outputRead_congr {w depth : Nat} {valid : Bool} {len idx : Nat} {m : Cells (BitVec w)}
    (free free' space : Nat) (f : BitVec w → Word) (hl : valid = true → Listed m len)
    (h : (valid = true ∧ idx < len) ∨ depth ≤ idx) :
    (if idx < depth then some (f (hostEntry valid len m free space idx)) else none) =
      if idx < depth then some (f (hostEntry valid len m free' space idx)) else none := by
  obtain hspec | hout := h
  · rw [hostEntry_congr free free' space hl hspec]
  · rw [if_neg (Nat.not_lt.mpr hout), if_neg (Nat.not_lt.mpr hout)]

/-- The same for a sample (R49). -/
theorem sampleRead_congr {s t : State} {depth idx : Nat} (hmem : t.mem = s.mem)
    (h : (Cells.read s.mem.iq idx).isSome = true ∨ depth ≤ idx) :
    (if idx < depth then some (sampleWord (iqAt t idx)) else none) =
      if idx < depth then some (sampleWord (iqAt s idx)) else none := by
  obtain hspec | hout := h
  · rw [iqAt_congr hmem hspec]
  · rw [if_neg (Nat.not_lt.mpr hout), if_neg (Nat.not_lt.mpr hout)]

theorem readResponse_hostRead {s : State} {a b : HostAddr}
    (h : memRead (hostRead s a) (spaceOf b) (indexOf b) = memRead s (spaceOf b) (indexOf b)) :
    readResponse (hostRead s a) b = readResponse s b := by
  rw [readResponse, readResponse, h]
  rfl

/-- Settles O40: a read moves only the response and the counter of free values, which no register, sync byte,
refused index or listed entry depends on; the invariant lists what a set flag specifies. -/
theorem readsAreRepeatable : Obligations.ReadsAreRepeatable := by
  intro s a b hinv hiq hcent htr hbits hprof hpay
  apply readResponse_hostRead
  rw [spaceOf_eq, indexOf_eq]
  generalize b.toNat / 2 ^ 20 = space at *
  unfold memRead
  split
  · rfl
  · exact sampleRead_congr rfl (hiq rfl)
  · exact outputRead_congr _ _ 2 id hinv.listed_cent (hcent rfl)
  · exact outputRead_congr _ _ 3 (·.setWidth 64) hinv.listed_clk (htr (.inl rfl))
  · exact outputRead_congr _ _ 4 id hinv.listed_syn (htr (.inr rfl))
  · exact outputRead_congr _ _ 5 (·.setWidth 64) hinv.bitsListed (hbits rfl)
  · exact outputRead_congr _ _ 6 (·.setWidth 64) hinv.profile (hprof rfl)
  · exact outputRead_congr _ _ 7 (·.setWidth 64) hinv.listed_pay (hpay rfl)
  · rfl
  · rfl

end Sys2Proof.Machine
end

section
/-! Command words (30_encoding.md R91 to R94) and the sync pattern (R97). -/

namespace Sys2Proof.Machine

/-! ## The two fields of a word (R91) -/

theorem toNat_opField (w : Word) : (opField w).toNat = w.toNat % 16 := by
  rw [opField, BitVec.extractLsb'_toNat, Nat.shiftRight_zero]

theorem toNat_zeroField (w : Word) : (zeroField w).toNat = w.toNat / 16 := by
  have := w.isLt
  rw [zeroField, BitVec.extractLsb'_toNat, Nat.shiftRight_eq_div_pow]
  omega

theorem zeroField_eq_zero_iff (w : Word) : zeroField w = 0#60 ↔ w.toNat / 16 = 0 := by
  rw [← BitVec.toNat_inj, toNat_zeroField, BitVec.toNat_zero]

theorem zeroField_append_opField (w : Word) : zeroField w ++ opField w = w := by
  apply BitVec.eq_of_toNat_eq
  rw [toNat_append_eq_add, toNat_zeroField, toNat_opField]
  omega

/-! ## Decoding (R94) -/

theorem decode_of_zeroField_ne {w : Word} (h : w.toNat / 16 ≠ 0) : decode w = .illegal := by
  rw [decode, if_pos fun h0 => h ((zeroField_eq_zero_iff w).mp h0)]

/-- A word with no bit above bit 3 is the operation code it carries. -/
theorem decode_of_toNat {w : Word} {n : Nat} (h : w.toNat / 16 = 0) (hn : w.toNat % 16 = n) :
    decode w = decode (BitVec.ofNat 64 n) := by
  rw [show w = BitVec.ofNat 64 n from BitVec.eq_of_toNat_eq (by rw [BitVec.toNat_ofNat]; omega)]

theorem decode_of_reserved {w : Word} (h : w.toNat / 16 = 0)
    (hop : w.toNat % 16 = 0 ∨ 8 ≤ w.toNat % 16) : decode w = .illegal := by
  have hreserved : ∀ n < 16, n = 0 ∨ 8 ≤ n → decode (BitVec.ofNat 64 n) = .illegal := by decide
  rw [decode_of_toNat h rfl]
  exact hreserved _ (Nat.mod_lt _ (by decide)) hop

/-- Settles O2: the words above 15, the nine reserved codes, and the seven words of R93's table. -/
theorem decodeIsTotal : Obligations.DecodeIsTotal := fun _ =>
  ⟨decode_of_zeroField_ne, fun h => ⟨decode_of_reserved h, decode_of_toNat h, decode_of_toNat h,
    decode_of_toNat h, decode_of_toNat h, decode_of_toNat h, decode_of_toNat h, decode_of_toNat h⟩⟩

/-- What the decoder checked of a word that it took for a command (R94). -/
theorem fields_of_decode {w : Word} {i : Instr} (h : decode w = .command i) :
    zeroField w = 0#60 ∧ opField w = opcode i := by
  unfold decode at h
  split_ifs at h with h0
  refine ⟨not_not.mp h0, BitVec.eq_of_toNat_eq ?_⟩
  split at h <;> cases h <;> assumption

theorem eq_encode_of_decode {w : Word} {i : Instr} (h : decode w = .command i) : w = encode i := by
  obtain ⟨hzero, hop⟩ := fields_of_decode h
  rw [← zeroField_append_opField w, hzero, hop, encode]

theorem decodeTableWord_encode (i : Instr) : decodeTableWord 64 (encode i).toNat = some i := by
  have hlt : (encode i).toNat % 2 ^ 64 < 2 ^ 64 := Nat.mod_lt _ (by decide)
  rw [decodeTableWord, if_pos hlt, ofNat_toNat_encode, decode_encode]

/-- Settles O1: encoding then decoding, and the fields of a decoded word are those of the encoded one. -/
theorem commandWordRoundTrip : Obligations.CommandWordRoundTrip := fun i _ =>
  ⟨decode_encode i, decodeTableWord_encode i, fun _ => eq_encode_of_decode⟩

/-- Settles O3: four words of the table, and three that no command has. -/
theorem tableWordsDecode : Obligations.TableWordsDecode :=
  ⟨decodeTableWord_encode .env, decodeTableWord_encode .bdec, decodeTableWord_encode .run,
    decodeTableWord_encode .clr, by decide, by decide, by decide⟩

/-! ## The sync pattern (R97) -/

theorem patByte_preamble {c : Cfg} {m : Nat} (w : Vector Byte 8) (hm : m < c.npre.toNat) :
    patByte c w m = c.pre := by
  rw [patByte, if_pos hm]

theorem patByte_syncWord (c : Cfg) (w : Vector Byte 8) {q : Nat} (hq : q < 8) :
    patByte c w (c.npre.toNat + q) = w[q] := by
  rw [patByte, if_neg (by omega), Nat.add_sub_cancel_left, syncByte, dif_pos hq]

/-- Bit `k` of byte `m` of the pattern, most significant first. -/
theorem patBit_of_byte (c : Cfg) (w : Vector Byte 8) (m : Nat) {k : Nat} (hk : k < 8) :
    patBit c w (8 * m + k) = (patByte c w m).getLsbD (7 - k) := by
  rw [patBit, show (8 * m + k) / 8 = m by omega, show (8 * m + k) % 8 = k by omega]

/-- Settles O23: the byte a bit lies in is a preamble byte or one of the sync word. -/
theorem syncPatternAssembly : Obligations.SyncPatternAssembly := by
  refine ⟨fun c w _ => ⟨rfl, Nat.mul_mod_right 8 _, fun m k _ hk => ⟨fun hpre => ?_, ?_⟩⟩, by decide, by decide⟩
  · rw [patBit_of_byte c w m hk, patByte_preamble w hpre]
  · rintro q hq rfl
    rw [patBit_of_byte c w _ hk, patByte_syncWord c w hq]

end Sys2Proof.Machine
end

section
/-! Hexadecimal text (30_encoding.md R105 to R107), and the lines SYNCWORD and PREAMBLE (R106, R108). -/

namespace Sys2Proof.Machine

/-! ## Text to bytes and back (R105 to R107) -/

theorem hexBytes_of_malformed {text : List Char} (h : Malformed text) : hexBytes text = none := by
  obtain ⟨-, he⟩ | ⟨hn, -⟩ := hexBytes_cases text
  · exact he
  · exact absurd h hn

theorem hexDigit_hexChar {d : Nat} (h : d < 16) : hexDigit (hexChar d) = some d := by
  have hall : ∀ d < 16, hexDigit (hexChar d) = some d := by decide
  exact hall d h

theorem hexBytes_displayByte (b : Byte) : hexBytes ((displayByte b).drop 2) = some [b] := by
  have hhigh : b.toNat / 16 < 16 := by have := b.isLt; omega
  have hlow : b.toNat % 16 < 16 := Nat.mod_lt _ (by decide)
  have hdigits : hexDigits ((displayByte b).drop 2) = some [b.toNat / 16, b.toNat % 16] := by
    simp only [displayByte, List.drop_succ_cons, List.drop_zero, hexDigits, hexDigit_hexChar hhigh,
      hexDigit_hexChar hlow]
  have hbyte : BitVec.ofNat 8 (16 * (b.toNat / 16) + b.toNat % 16) = b := by
    rw [Nat.div_add_mod, BitVec.ofNat_toNat, BitVec.setWidth_eq]
  simp [hexBytes, hdigits, pairBytes, hbyte]

/-- Settles O45: digit by digit for the display; `hexBytes_cases` for the malformed texts. -/
theorem hexTextRoundTrip : Obligations.HexTextRoundTrip :=
  ⟨hexBytes_displayByte, by decide, by decide, by decide, by decide, by decide,
    fun _ => hexBytes_of_malformed⟩

/-- A text is refused, or gives half as many bytes as digits, rounded up (R105, R106). -/
theorem hexBytes_length_cases (text : List Char) :
    (Malformed text ∧ hexBytes text = none) ∨
      (¬Malformed text ∧ ∃ bytes, hexBytes text = some bytes ∧ bytes.length = (text.length + 1) / 2) := by
  by_cases h : Malformed text
  · exact .inl ⟨h, hexBytes_of_malformed h⟩
  · obtain ⟨bytes, he, hlen, -⟩ := hexBytes_of_wellFormed h
    exact .inr ⟨h, bytes, he, hlen⟩

/-! ## Addresses of a line (R104) -/

theorem placeAddr_eq_ofNat (space : Nat) {idx : Nat} (hi : idx < 2 ^ 20) :
    placeAddr space idx = BitVec.ofNat 24 (space * 2 ^ 20 + idx) := by
  apply BitVec.eq_of_toNat_eq
  rw [placeAddr, toNat_append_eq_add, BitVec.toNat_ofNat, BitVec.toNat_ofNat, BitVec.toNat_ofNat]
  omega

/-! ## SYNCWORD (R106, R108) -/

/-- The events of an accepted sync word: its length, then its bytes. -/
def syncwordEvents (bytes : List Byte) : List HostEvent :=
  lineWr 0 0x0A (BitVec.ofNat 64 bytes.length) :: lineFill 8 0 (bytes.map fun b => b.setWidth 64)

theorem lineSyncword_of_bytes {text : List Char} {bytes : List Byte} (h : hexBytes text = some bytes) :
    lineSyncword text = if bytes.length ≤ Config.swMax then some (syncwordEvents bytes) else none := by
  rw [lineSyncword, h]
  rfl

theorem lineSyncword_eq_none_iff (text : List Char) :
    lineSyncword text = none ↔ Malformed text ∨ 2 * Config.swMax < text.length := by
  obtain ⟨hm, he⟩ | ⟨hm, bytes, he, hlen⟩ := hexBytes_length_cases text
  · exact iff_of_true (by rw [lineSyncword, he]) (.inl hm)
  · have hcount : bytes.length ≤ Config.swMax ↔ ¬2 * Config.swMax < text.length := by
      simp only [hlen, Config.swMax]
      omega
    rw [lineSyncword_of_bytes he, ite_eq_right_iff, hcount]
    simp [hm]

theorem syncwordEvents_length (bytes : List Byte) :
    (syncwordEvents bytes).length = bytes.length + 1 := by
  rw [syncwordEvents, List.length_cons, lineFill_length, List.length_map]

/-- Byte `q` goes to `SYNCW[q]`. -/
theorem syncwordEvents_byte {bytes : List Byte} {q : Nat} (hq : q < bytes.length) (h : q < 2 ^ 20) :
    (syncwordEvents bytes)[q + 1]? =
      some (.write (BitVec.ofNat 24 (0x800000 + q)) ((bytes[q]).setWidth 64)) := by
  rw [syncwordEvents, List.getElem?_cons_succ, lineFill_getElem?, List.getElem?_map,
    List.getElem?_eq_getElem hq, Nat.zero_add]
  exact congrArg (fun a => some (HostEvent.write a _)) (placeAddr_eq_ofNat 8 h)

theorem lineSyncword_eq_some {text : List Char} {events : List HostEvent} {bytes : List Byte}
    (h : lineSyncword text = some events) (hb : hexBytes text = some bytes) :
    bytes.length ≤ Config.swMax ∧ events = syncwordEvents bytes := by
  rw [lineSyncword_of_bytes hb] at h
  split_ifs at h with hle
  exact ⟨hle, (Option.some.inj h).symm⟩

/-! ## PREAMBLE (R105, R106, R108) -/

theorem linePreamble_of_byte {text : List Char} {b : Byte} (n : Word) (h : hexBytes text = some [b]) :
    linePreamble text n = some [lineWr 0 0x08 (b.setWidth 64), lineWr 0 0x09 n] := by
  rw [linePreamble, h]

/-- Every way `PREAMBLE` is answered: one byte, or a refusal. -/
theorem linePreamble_cases (text : List Char) (n : Word) :
    (∃ b, hexBytes text = some [b] ∧
        linePreamble text n = some [lineWr 0 0x08 (b.setWidth 64), lineWr 0 0x09 n]) ∨
      ((∀ b, hexBytes text ≠ some [b]) ∧ linePreamble text n = none) := by
  by_cases h : ∃ b, hexBytes text = some [b]
  · obtain ⟨b, hb⟩ := h
    exact .inl ⟨b, hb, linePreamble_of_byte n hb⟩
  · refine .inr ⟨not_exists.mp h, ?_⟩
    unfold linePreamble
    split
    · exact absurd ⟨_, ‹_›⟩ h
    · rfl

theorem hexBytes_eq_singleton_iff (text : List Char) :
    (∃ b, hexBytes text = some [b]) ↔ ¬(Malformed text ∨ text.length = 0 ∨ 2 < text.length) := by
  obtain ⟨hm, he⟩ | ⟨hm, bytes, he, hlen⟩ := hexBytes_length_cases text
  · simp [hm, he]
  · have hone : (∃ b, hexBytes text = some [b]) ↔ bytes.length = 1 := by
      simp [he, List.length_eq_one_iff]
    rw [hone, hlen, or_iff_right hm]
    omega

theorem linePreamble_eq_none_iff (text : List Char) (n : Word) :
    linePreamble text n = none ↔ Malformed text ∨ text.length = 0 ∨ 2 < text.length := by
  rw [← not_iff_not, ← hexBytes_eq_singleton_iff]
  obtain ⟨b, hb, he⟩ | ⟨hb, he⟩ := linePreamble_cases text n
  · exact iff_of_true (by rw [he]; nofun) ⟨b, hb⟩
  · exact iff_of_false (not_not.mpr he) (not_exists.mpr hb)

theorem linePreamble_eq_some {text : List Char} {n : Word} {events : List HostEvent}
    (h : linePreamble text n = some events) : ∃ b, hexBytes text = some [b] ∧
      events = [.write 0x000008#24 (b.setWidth 64), .write 0x000009#24 n] := by
  obtain ⟨b, hb, he⟩ | ⟨-, he⟩ := linePreamble_cases text n <;> rw [he] at h
  · exact ⟨b, hb, (Option.some.inj h).symm⟩
  · cases h

/-- Settles O55: the value of the bytes is `hexBytes_of_wellFormed`; each refusal counts the bytes from the
digits. -/
theorem hexTextLines : Obligations.HexTextLines := by
  refine ⟨fun _ => hexBytes_of_wellFormed, lineSyncword_eq_none_iff, linePreamble_eq_none_iff, ?_,
    fun _ _ _ => linePreamble_eq_some⟩
  intro text events bytes h hb
  obtain ⟨hle, rfl⟩ := lineSyncword_eq_some h hb
  exact ⟨syncwordEvents_length bytes, rfl, fun q hq =>
    syncwordEvents_byte hq (hq.trans_le (hle.trans (by decide)))⟩

end Sys2Proof.Machine
end

section
/-! The host lines EXEC, LOADIQ and DEMOD on the schedule (30_encoding.md R108): the states their events lead
through, and that RUN always ends (45_control_commands.md R231). -/

namespace Sys2Proof.Machine

/-! ## One event of the schedule (R63, R64) -/

theorem step_read {s : State} {a : HostAddr} {rest : List HostEvent} (h : s.port = .read a :: rest) :
    step s = .next (hostRead { s with port := rest } a) := by
  rw [step, h]

theorem step_write {s : State} {a : HostAddr} {v : Word} {rest : List HostEvent}
    (h : s.port = .write a v :: rest) : step s = .next (hostWrite { s with port := rest } a v) := by
  rw [step, h]

theorem step_core {s : State} {rest : List HostEvent} (h : s.port = .core :: rest) :
    step s = coreStep { s with port := rest } := by
  rw [step, h]

theorem step_demodReads {s : State} {rest : List HostEvent} (h : s.port = .demodReads :: rest) :
    step s = .next { s with port := demodDecision s ++ rest } := by
  rw [step, h]

theorem run_one (s : State) : Host.Core.run Sys2Proof.core 1 s = step s := by
  rw [run_succ]
  cases step s <;> rfl

/-! ## EXEC -/

/-- The command word of `i` is pending: the state after its write and `polls` reads of `STATUS` (R34, R63). -/
def commandPending (s : State) (i : Instr) (polls : Nat) (port : List HostEvent) : State :=
  { s with
    pend := encode i
    busy := true
    done := false
    port := port
    resp := some (if polls = 0 then .ok else
      .data (statusWord { s with pend := encode i, busy := true, done := false }))
    free := s.free + polls }

@[simp] theorem commandPending_port (s : State) (i : Instr) (polls : Nat) (port : List HostEvent) :
    (commandPending s i polls port).port = port := rfl

theorem statusWord_commandPending (s : State) (i : Instr) (polls : Nat) (port : List HostEvent) :
    statusWord (commandPending s i polls port) =
      statusWord { s with pend := encode i, busy := true, done := false } := rfl

theorem commandPending_resp_of_polled (s : State) (i : Instr) {k : Nat} (hk : 1 ≤ k) (polls : Nat)
    (port port' : List HostEvent) : (commandPending s i k port).resp =
      some (.data (statusWord (commandPending s i polls port'))) := by
  rw [statusWord_commandPending]
  exact congrArg some (if_neg (by omega))

/-- An idle core accepts the command word (R34). -/
theorem step_lineCmd {s : State} {i : Instr} {rest : List HostEvent} (hb : s.busy = false)
    (h : s.port = lineCmd i :: rest) : step s = .next (commandPending s i 0 rest) :=
  (step_write h).trans (congrArg Host.Outcome.next
    (hostWrite_register (s := { s with port := rest }) (idx := 1) hb (by norm_num) rfl))

/-- The word of `i`, then polls of `STATUS`. -/
theorem run_lineCmd_polls {s : State} {i : Instr} {rest : List HostEvent} (hb : s.busy = false) (k : Nat)
    (h : s.port = lineCmd i :: (List.replicate k (lineRd 0 0x02) ++ rest)) :
    Host.Core.run Sys2Proof.core (k + 1) s = .next (commandPending s i k rest) := by
  rw [run_succ_of_next (step_lineCmd hb h), run_polls k (commandPending_port s i 0 _)]
  cases k <;> rfl

theorem lineExec_append (i : Instr) (polls : Nat) (rest : List HostEvent) :
    lineExec i polls ++ rest =
      lineCmd i :: (List.replicate polls (lineRd 0 0x02) ++ .core :: lineRd 0 0x02 :: rest) := by
  rw [lineExec, lineWait, List.cons_append, List.append_assoc]
  rfl

/-- The state in EXEC after the first `k` of its polls. -/
theorem run_lineExec_polls {s : State} {i : Instr} {polls : Nat} {rest : List HostEvent}
    (hb : s.busy = false) (h : s.port = lineExec i polls ++ rest) {k : Nat} (hk : k ≤ polls) :
    Host.Core.run Sys2Proof.core (k + 1) s = .next (commandPending s i k
      (List.replicate (polls - k) (lineRd 0 0x02) ++ .core :: lineRd 0 0x02 :: rest)) := by
  apply run_lineCmd_polls hb
  rw [h, lineExec_append, ← List.append_assoc, ← List.replicate_add, Nat.add_sub_cancel' hk]

/-- The core's turn with the word of `i` pending (R226). -/
theorem step_commandPending (s : State) (i : Instr) (polls : Nat) (rest : List HostEvent) :
    step (commandPending s i polls (.core :: rest)) = exec i (commandPending s i polls rest) :=
  (step_core rfl).trans (coreStep_of_pending rfl rfl)

/-- The last read of `STATUS`, after the command. -/
theorem step_poll_of_exec {s t : State} {i : Instr} {rest : List HostEvent}
    (hport : s.port = lineRd 0 0x02 :: rest) (h : exec i s = .next t) :
    step t = .next { t with port := rest, resp := some (.data (statusWord t)), free := t.free + 1 } := by
  obtain ⟨⟨-, -, -, -, hkept, -⟩, -, -⟩ := exec_keeps h
  exact step_poll (hkept.trans hport)

/-- Settles O43: the write, the polls, the core's turn and the last read, one after another. -/
theorem execLineRunsCommand : Obligations.ExecLineRunsCommand := by
  intro s i polls rest hb h
  have hturn : Host.Core.run Sys2Proof.core (polls + 1) s =
      .next (commandPending s i polls (.core :: lineRd 0 0x02 :: rest)) := by
    simpa using run_lineExec_polls hb h le_rfl
  refine ⟨_, hturn, rfl, fun h0 => congrArg some (if_pos h0), fun k hk hle => ?_,
    step_commandPending s i polls _, fun t ht => ⟨?_, ?_⟩⟩
  · exact ⟨_, run_lineExec_polls hb h hle, commandPending_resp_of_polled s i hk polls _ _,
      statusWord_bit_zero _⟩
  · obtain ⟨-, hidle, -⟩ := exec_keeps ht
    rw [statusWord_bit_zero, hidle]
  · rw [run_add 2 hturn, run_succ_of_next ((step_commandPending s i polls _).trans ht), run_one]
    exact step_poll_of_exec rfl ht

/-! ## LOADIQ -/

theorem wordSample_sampleWord (x : Sample) : wordSample (sampleWord x) = x := by
  have hword : (sampleWord x).toNat = 2 ^ 32 * x.q.toNat + x.i.toNat := by
    simp only [sampleWord, toNat_append_eq_add, BitVec.toNat_zero]
    omega
  have hi : (wordSample (sampleWord x)).i = x.i := by
    apply BitVec.eq_of_toNat_eq
    rw [toNat_wordSample_i, hword]
    omega
  have hq : (wordSample (sampleWord x)).q = x.q := by
    apply BitVec.eq_of_toNat_eq
    rw [toNat_wordSample_q, hword]
    omega
  exact congrArg₂ Sample.mk hi hq

/-- Entry `n` of the list as `IQMEM` stores it (log 9). -/
def listedSample (samples : List (Int × Int)) (n : Nat) : Sample :=
  { i := BitVec.ofInt 16 (samples.getD n (0, 0)).1, q := BitVec.ofInt 16 (samples.getD n (0, 0)).2 }

theorem listedSample_of_lt {samples : List (Int × Int)} {n : Nat} (h : n < samples.length) :
    listedSample samples n = { i := BitVec.ofInt 16 samples[n].1, q := BitVec.ofInt 16 samples[n].2 } := by
  rw [listedSample, List.getD_eq_getElem _ _ h]

/-- The state after `NSAMP` and the first `n` samples of the list have been written (R28, R64). -/
def samplesLoaded (s : State) (samples : List (Int × Int)) (n : Nat) (port : List HostEvent) : State :=
  { invalidateFrom .env
      { s with
        cfg := { s.cfg with nsamp := BitVec.ofNat 17 samples.length }
        mem := { s.mem with iq := Cells.fill s.mem.iq (listedSample samples) n } } with
    port := port
    resp := some .ok }

/-- The writes of the samples from entry `n` on. -/
def sampleLines (samples : List (Int × Int)) (n : Nat) : List HostEvent :=
  lineFill 1 n ((samples.drop n).map fun x => pairWord x.1 x.2)

theorem sampleLines_of_lt {samples : List (Int × Int)} {n : Nat} (h : n < samples.length) :
    sampleLines samples n =
      lineWr 1 n (sampleWord (listedSample samples n)) :: sampleLines samples (n + 1) := by
  rw [sampleLines, List.drop_eq_getElem_cons h, List.map_cons, lineFill, listedSample_of_lt h]
  rfl

theorem sampleLines_length (samples : List (Int × Int)) : sampleLines samples samples.length = [] := by
  rw [sampleLines, List.drop_length, List.map_nil, lineFill]

theorem step_lineWr_nsamp {s : State} {samples : List (Int × Int)} {rest : List HostEvent}
    (hb : s.busy = false) (h : s.port = lineWr 0 0x07 (BitVec.ofNat 64 samples.length) :: rest) :
    step s = .next (samplesLoaded s samples 0 rest) := by
  have hwidth : (BitVec.ofNat 64 samples.length).setWidth 17 = BitVec.ofNat 17 samples.length :=
    BitVec.setWidth_ofNat_of_le (by norm_num) _
  rw [step_write h]
  refine congrArg Host.Outcome.next ((hostWrite_register (s := { s with port := rest }) (idx := 7) hb
    (by norm_num) rfl).trans ?_)
  rw [hwidth]
  rfl

theorem step_lineWr_sample {s : State} {samples : List (Int × Int)} {n : Nat} {rest : List HostEvent}
    (hb : s.busy = false) (hn : n < Config.nMax) :
    step (samplesLoaded s samples n (lineWr 1 n (sampleWord (listedSample samples n)) :: rest)) =
      .next (samplesLoaded s samples (n + 1) rest) := by
  rw [step_write rfl, placeAddr_eq_ofNat 1 (hn.trans (by decide))]
  refine congrArg Host.Outcome.next
    ((hostWrite_sample (s := samplesLoaded s samples n rest) hb hn _).trans ?_)
  rw [wordSample_sampleWord]
  rfl

/-- The state in LOADIQ after the length and the first `n` samples. -/
theorem run_lineLoadiq {s : State} {samples : List (Int × Int)} {rest : List HostEvent}
    (hb : s.busy = false) (hlen : samples.length ≤ Config.nMax) (h : s.port = lineLoadiq samples ++ rest)
    {n : Nat} (hn : n ≤ samples.length) : Host.Core.run Sys2Proof.core (n + 1) s =
      .next (samplesLoaded s samples n (sampleLines samples n ++ rest)) := by
  induction n with
  | zero => exact (run_one s).trans (step_lineWr_nsamp hb h)
  | succ n ih =>
    rw [run_add 1 (ih (by omega)), run_one, sampleLines_of_lt (by omega)]
    exact step_lineWr_sample hb (by omega)

/-- Settles O44: `samplesLoaded` at the end of the list; `Cells.read_fill` for its entries. -/
theorem loadiqLinesStoreSamples : Obligations.LoadiqLinesStoreSamples := by
  intro s samples rest hb hlen h
  refine ⟨_, run_lineLoadiq hb hlen h le_rfl, ?_, hb, ?_, rfl, fun n hn => ?_, fun n hn => ?_, rfl, rfl⟩
  · exact congrArg (· ++ rest) (sampleLines_length samples)
  · exact Nat.mod_eq_of_lt (by omega)
  · rw [← listedSample_of_lt hn]
    exact (Cells.read_fill ..).trans (if_pos hn)
  · exact (Cells.read_fill ..).trans (if_neg (by omega))

/-! ## RUN always ends (R231) -/

/-- The body ends: with `P` after a normal end, else with a code that is not `OK`. -/
def StageEnd.Reaches (P : State → Prop) (e : StageEnd) : Prop :=
  match e with
  | .ok s => P s
  | .raised _ r => r.code ≠ .ok
  | .overrun => False

theorem StageEnd.Reaches.andThen {P Q : State → Prop} {e : StageEnd} {f : State → StageEnd}
    (he : e.Reaches P) (hf : ∀ s, P s → (f s).Reaches Q) : (e.andThen f).Reaches Q := by
  cases e with
  | ok s => exact hf s he
  | raised s r => exact he
  | overrun => exact he

theorem StageEnd.Reaches.finish {P : State → Prop} {e : StageEnd} (he : e.Reaches P) :
    ∃ t, e.finish = .next t ∧ (t.err = .ok → ∃ u, P u ∧ t = complete u okRecord) := by
  cases e with
  | ok u => exact ⟨_, rfl, fun _ => ⟨u, he, rfl⟩⟩
  | raised u r => exact ⟨_, rfl, fun h => absurd h he⟩
  | overrun => exact he.elim

/-- The bit count is below the depth of `BITMEM` (R47): what PEXT's range check needs to bound the payload. -/
def BitsFit (s : State) : Prop := bitCount s < Config.nMax

/-- The payload is marked valid, fits `PAYMEM` and is written. -/
def PayloadReadable (s : State) : Prop :=
  s.valid.pe = true ∧ s.cfg.paysz.toNat ≤ Config.payDepth ∧ Listed s.mem.pay s.cfg.paysz.toNat

theorem envBody_reaches {s : State} (h : RatesChecked s.cfg) : (envBody s).Reaches EnvelopePresent :=
  envelopePresent_envDone s h

theorem trecBody_reaches {s : State} (h : EnvelopePresent s) : (trecBody s).Reaches BitsFit := by
  obtain ⟨l, hl, hr⟩ := timingOf_result h
  obtain ⟨⟨-, hN⟩, -⟩ := h
  obtain ⟨hn, -⟩ | ⟨-, -, -, he⟩ | ⟨l', hl', h0, he⟩ := trecBody_cases s
  · rw [hn] at hl
    cases hl
  · rw [he]
    exact nofun
  · cases hl.symm.trans hl'
    have hlt : l.index < Config.nMax := (hr.below.resolve_left h0).trans_le hN
    rw [he]
    exact (bitCount_trecDone s hlt.le).trans_lt hlt

theorem bdecBody_reaches {s : State} (h : BitsFit s) : (bdecBody s).Reaches BitsFit := h

theorem fsyncBody_reaches {s : State} (h : BitsFit s) : (fsyncBody s).Reaches BitsFit := by
  obtain ⟨-, he⟩ | ⟨-, he⟩ := fsyncBody_cases s <;> rw [he]
  · exact h
  · exact nofun

/-- The range check of R212 bounds the payload by the bits. -/
theorem pextBody_reaches {s : State} (h : BitsFit s) : (pextBody s).Reaches PayloadReadable := by
  obtain ⟨hlen, he⟩ | ⟨-, he⟩ := pextBody_cases s <;> rw [he]
  · have hfit : s.cfg.paysz.toNat ≤ Config.payDepth := by
      simp only [BitsFit, Config.nMax, Config.payDepth] at h ⊢
      omega
    exact ⟨rfl, hfit, Listed.fill _ _ _⟩
  · exact nofun

theorem runBody_reaches {s : State} (h : RatesChecked s.cfg) : (runBody s).Reaches PayloadReadable :=
  ((((envBody_reaches h).andThen fun _ => trecBody_reaches).andThen fun _ => bdecBody_reaches).andThen
    fun _ => fsyncBody_reaches).andThen fun _ => pextBody_reaches

/-- From every state RUN answers a next state, and its code is `OK` only with a payload that can be read. -/
theorem exec_run_completes (s : State) :
    ∃ t, exec .run s = .next t ∧ (t.err = .ok → PayloadReadable t) := by
  change ∃ t, command .none runBody s = .next t ∧ _
  cases hp : prologue .none s with
  | some r =>
    refine ⟨_, command_of_refused runBody hp, fun hok => ?_⟩
    obtain ⟨sub, -, rfl⟩ | ⟨-, -, rfl⟩ := prologue_cases hp <;> cases hok
  | none =>
    obtain ⟨hlegal, -⟩ := (prologue_eq_none_iff .none s).mp hp
    obtain ⟨t, ht, hok⟩ := (runBody_reaches (sps_pos_of_legal hlegal)).finish
    refine ⟨t, (command_of_accepted runBody hp).trans ht, fun h => ?_⟩
    obtain ⟨u, hu, rfl⟩ := hok h
    exact hu

/-! ## DEMOD -/

/-- The bits the host tests are the code of the word (R35, R108). -/
theorem statusWord_errField (s : State) : (statusWord s).extractLsb' 4 4 = s.err.bits := by
  apply BitVec.eq_of_toNat_eq
  rw [← statusWord_err, BitVec.extractLsb'_toNat, Nat.shiftRight_eq_div_pow]

theorem statusWord_errField_eq_zero_iff (s : State) :
    (statusWord s).extractLsb' 4 4 = 0#4 ↔ s.err = .ok := by
  rw [statusWord_errField]
  cases s.err <;> decide

/-- The reads of `PAYMEM[0]` to `PAYMEM[PAYSZ-1]` by address (R61). -/
def payloadReads (paysz : Nat) : List HostEvent :=
  (List.range paysz).map fun b => .read (BitVec.ofNat 24 (0x700000 + b))

theorem map_lineRd_pay {paysz : Nat} (h : paysz ≤ 2 ^ 20) :
    ((List.range paysz).map fun b => lineRd 7 b) = payloadReads paysz := by
  refine List.map_congr_left fun b hb => ?_
  exact congrArg HostEvent.read (placeAddr_eq_ofNat 7 ((List.mem_range.mp hb).trans_le h))

/-- The host's decision on the `STATUS` word of `t` (R108). -/
theorem demodDecision_of_status {s t : State} (h : s.resp = some (.data (statusWord t))) :
    demodDecision s = if t.err = .ok then payloadReads s.cfg.paysz.toNat else [] := by
  have hsize : s.cfg.paysz.toNat ≤ 2 ^ 20 := s.cfg.paysz.isLt.le.trans (by norm_num)
  rw [demodDecision_of_data h, map_lineRd_pay hsize]
  exact if_congr (statusWord_errField_eq_zero_iff t) rfl rfl

/-- A schedule of reads: each is answered from a state that differs from the first in the model's own fields. -/
theorem run_reads (addrs : List HostAddr) {s : State} {rest : List HostEvent}
    (h : s.port = addrs.map HostEvent.read ++ rest) {k : Nat} (hk : k < addrs.length) :
    ∃ t w, Host.Core.run Sys2Proof.core (k + 1) s = .next w ∧
      w.resp = some (readResponse t addrs[k]) ∧
      t = { s with port := t.port, resp := t.resp, free := t.free } := by
  induction addrs generalizing s k with
  | nil => cases hk
  | cons a addrs ih =>
    have hstep := step_read (rest := addrs.map HostEvent.read ++ rest) h
    cases k with
    | zero => exact ⟨_, _, (run_one s).trans hstep, rfl, rfl⟩
    | succ k =>
      obtain ⟨t, w, hw, hresp, ht⟩ := ih (s := hostRead { s with port := addrs.map HostEvent.read ++ rest } a)
        rfl (Nat.lt_of_succ_lt_succ hk)
      exact ⟨t, w, (run_succ_of_next hstep).trans hw, hresp, ht⟩

theorem readResponse_payload {s : State} (hb : s.busy = false) (h : PayloadReadable s) {b : Nat}
    (hlt : b < s.cfg.paysz.toNat) {byte : Byte} (hread : Cells.read s.mem.pay b = some byte) :
    readResponse s (BitVec.ofNat 24 (0x700000 + b)) = .data (byte.setWidth 64) := by
  obtain ⟨hpe, hfit, -⟩ := h
  have hdepth : b < Config.payDepth := hlt.trans_le hfit
  refine readResponse_memory (space := 7) hb (by decide) (hdepth.trans (by decide)) ((if_pos hdepth).trans ?_)
  rw [hostEntry_of_read s.free 7 hpe hlt hread]

/-- The reads of a payload that can be read answer its bytes. -/
theorem run_payloadReads {s : State} {rest : List HostEvent} (hb : s.busy = false) (h : PayloadReadable s)
    (hport : s.port = payloadReads s.cfg.paysz.toNat ++ rest) {b : Nat} (hlt : b < s.cfg.paysz.toNat) :
    ∃ w byte, Host.Core.run Sys2Proof.core (b + 1) s = .next w ∧ Cells.read s.mem.pay b = some byte ∧
      w.resp = some (.data (byte.setWidth 64)) := by
  have ⟨_, _, hlisted⟩ := h
  obtain ⟨byte, hbyte⟩ := Option.isSome_iff_exists.mp (hlisted b hlt)
  obtain ⟨t, w, hw, hresp, ht⟩ := run_reads
    ((List.range s.cfg.paysz.toNat).map fun b => BitVec.ofNat 24 (0x700000 + b))
    (hport.trans (by rw [payloadReads, List.map_map]; rfl)) (k := b) (by simpa using hlt)
  refine ⟨w, byte, hw, hbyte, ?_⟩
  rw [hresp, List.getElem_map, List.getElem_range, ht,
    readResponse_payload (s := { s with port := t.port, resp := t.resp, free := t.free }) hb h hlt hbyte]

theorem lineDemod_append (polls : Nat) (rest : List HostEvent) :
    lineDemod polls ++ rest = lineExec .run polls ++ (.demodReads :: rest) := by
  rw [lineDemod, List.append_assoc]
  rfl

/-- Settles O54: EXEC RUN, then the host's decision on the `STATUS` word, then the reads. -/
theorem demodLineReadsPayload : Obligations.DemodLineReadsPayload := by
  intro s polls rest hb h
  obtain ⟨u, hu, hstate, -, -, -, hexec⟩ :=
    execLineRunsCommand s .run polls (.demodReads :: rest) hb (h.trans (lineDemod_append polls rest))
  obtain ⟨t, ht, hpay⟩ := exec_run_completes { u with port := lineRd 0 0x02 :: .demodReads :: rest }
  obtain ⟨-, hrun⟩ := hexec t ht
  obtain ⟨⟨hcfg, -⟩, hidle, -⟩ := exec_keeps ht
  have hpaysz : t.cfg.paysz = s.cfg.paysz := by rw [hcfg, hstate]
  have hdecide := (run_add 1 hrun).trans ((run_one _).trans (step_demodReads rfl))
  rw [demodDecision_of_status rfl] at hdecide
  refine ⟨u, t, _, hu, hstate, ht, hdecide, rfl, fun herr => ?_, fun hok => ⟨?_, fun b hlt => ?_⟩⟩
  · simp [herr]
  · simp [hok, hpaysz, payloadReads]
  · obtain ⟨w, byte, hw, hbyte, hresp⟩ := run_payloadReads (s := { t with
        port := payloadReads t.cfg.paysz.toNat ++ rest
        resp := some (.data (statusWord t))
        free := t.free + 1 }) hidle (hpay hok) rfl (hpaysz ▸ hlt)
    refine ⟨w, byte, ?_, hbyte, hresp⟩
    rw [if_pos hok] at hdecide
    rw [show polls + 5 + b = polls + 4 + (b + 1) by omega, run_add (b + 1) hdecide]
    exact hw

end Sys2Proof.Machine
end

section
/-! The envelope stage (40_envelope.md R120 to R131): the amplitude, what ENV leaves in every register and memory,
its centered sequence, and TREC over an all-zero envelope (R127). -/

namespace Sys2Proof.Machine

/-! ## The amplitude (R123) -/

theorem magWith_eq_sqrt (f : Nat) (x : Sample) :
    magWith f x = Nat.sqrt ((x.i.toInt ^ 2 + x.q.toInt ^ 2).toNat * 4 ^ f) := by
  rw [magWith, isqrt_eq_sqrt, pow_two, pow_two]

/-- The radicand is a natural number: a sum of two squares, scaled. -/
theorem cast_radicand (f : Nat) (x : Sample) :
    (((x.i.toInt ^ 2 + x.q.toInt ^ 2).toNat * 4 ^ f : Nat) : Int) =
      (x.i.toInt ^ 2 + x.q.toInt ^ 2) * 4 ^ f := by
  have hnonneg : 0 ≤ x.i.toInt ^ 2 + x.q.toInt ^ 2 := by positivity
  rw [Nat.cast_mul, Int.toNat_of_nonneg hnonneg]
  norm_cast

theorem amplitude_of_read {s : State} {n : Nat} {x : Sample} (h : Cells.read s.mem.iq n = some x) :
    amplitude s n = magWith Config.magFrac x := by
  rw [amplitude, iqAt_of_read h, mag]

/-- Settles O13, by the two inequalities that say what `Nat.sqrt` is. -/
theorem amplitudeIsIntegerSquareRoot : Obligations.AmplitudeIsIntegerSquareRoot := by
  refine ⟨fun f x => ?_, fun s n x => amplitude_of_read, by decide, by decide, by decide, by decide⟩
  rw [← cast_radicand, magWith_eq_sqrt]
  exact ⟨mod_cast Nat.sqrt_le' _, mod_cast Nat.lt_succ_sqrt' _⟩

/-! ## A stage command that ends normally (R227, R228) -/

theorem command_of_body_ok {st : Stage} {body : State → StageEnd} {s u : State} (hlegal : LegalConfig s.cfg)
    (hmet : prerequisite st s.valid = true) (hbody : body s = .ok u) :
    command st body s = .next (complete u okRecord) := by
  have hp : prologue st s = none := (prologue_eq_none_iff st s).mpr ⟨(legalConfig_iff _).mp hlegal, hmet⟩
  rw [command_of_accepted body hp, hbody, StageEnd.finish]

theorem completedWith_complete {s u : State} (hpend : u.pend = s.pend) (r : Record) :
    CompletedWith s (complete u r) r.code r.stage r.sub :=
  ⟨rfl, rfl, rfl, rfl, by rw [complete_lastop, hpend, toNat_opField], rfl, rfl⟩

theorem LegalConfig.rates {c : Cfg} (h : LegalConfig c) : RatesChecked c :=
  sps_pos_of_legal ((legalConfig_iff c).mp h)

/-! ## ENV (R121, R124, R125, R128) -/

theorem exec_env_of_legal {s : State} (h : LegalConfig s.cfg) :
    exec .env s = .next (complete (envDone s) okRecord) :=
  command_of_body_ok (body := envBody) h rfl rfl

/-- The result registers of ENV hold the rules' values: none is truncated (R14). -/
theorem results_envDone {s : State} (hN : sampleCount s.cfg ≤ Config.nMax) :
    (envDone s).res.envmax.toNat = ruleMax s ∧ (envDone s).res.envsum.toNat = ruleTotal s ∧
      (envDone s).res.envden.toNat = if ruleMax s = 0 then 1 else sampleCount s.cfg * ruleMax s := by
  have hden := envden_envDone s hN
  obtain ⟨hmax, htotal, -⟩ := envelope_le s hN
  rw [envelopeOf_eq_rule] at hden hmax htotal
  rw [envDone_res, envelopeOf_eq_rule] at *
  exact ⟨Nat.mod_eq_of_lt (by omega), Nat.mod_eq_of_lt (by omega), hden⟩

theorem cond_envDone_eq_rule (s : State) :
    (envDone s).cond = { envZero := decide (ruleMax s = 0), wTrec := false, wFsync := false } := by
  rw [envDone_cond, envelopeOf_eq_rule]

theorem centAt_envDone_eq_rule {s : State} (hN : sampleCount s.cfg ≤ Config.nMax) {n : Nat}
    (hn : n < sampleCount s.cfg) :
    centAt (envDone s) n =
      if ruleMax s = 0 then 0 else (sampleCount s.cfg : Int) * ruleWindow s n - ruleTotal s := by
  rw [centAt_envDone s hN n hn, centered_eq_rule]

/-- A listed entry of `CENTMEM`, with the integer a stage reads there. -/
theorem Listed.read_cent {s : State} {len n : Nat} (h : Listed s.mem.cent len) (hn : n < len) :
    ∃ v, Cells.read s.mem.cent n = some v ∧ v.toInt = centAt s n := by
  obtain ⟨v, hv⟩ := Option.isSome_iff_exists.mp (h n hn)
  exact ⟨v, hv, by rw [centAt, entryOr_of_read _ _ _ _ hv]⟩

theorem keptBeyond_fill {α : Type} (m : Cells α) (f : Nat → α) (len : Nat) :
    KeptBeyond m (Cells.fill m f len) len := fun n hn => by
  rw [Cells.read_fill, if_neg (by omega)]

/-- Settles O14: ENV ends in `envDone`, whose fields are the rules' formulas. -/
theorem envComputesCenteredSequence : Obligations.EnvComputesCenteredSequence := by
  intro s hlegal
  have hrates := hlegal.rates
  obtain ⟨-, hlisted, -⟩ := envelopePresent_envDone s hrates
  obtain ⟨hmax, hsum, hden⟩ := results_envDone hrates.2
  refine ⟨_, exec_env_of_legal hlegal, completedWith_complete rfl okRecord, fun n hn => ?_, hmax, hsum, hden,
    cond_envDone_eq_rule s, rfl, rfl, rfl, rfl, rfl, ⟨rfl, rfl, rfl, rfl, rfl, rfl⟩, keptBeyond_fill _ _ _,
    rfl, rfl, rfl, rfl, rfl⟩
  obtain ⟨v, hread, hv⟩ := hlisted.read_cent hn
  exact ⟨v, hread, hv.trans (centAt_envDone_eq_rule hrates.2 hn)⟩

/-! ## The centered sequence (R129) -/

@[simp] theorem centAt_complete (s : State) (r : Record) : centAt (complete s r) = centAt s := rfl

theorem ruleWindow_le_ruleMax (s : State) {n : Nat} (hn : n < sampleCount s.cfg) : ruleWindow s n ≤ ruleMax s :=
  Finset.le_sup (Finset.mem_range.mpr hn)

theorem ruleTotal_le (s : State) : ruleTotal s ≤ sampleCount s.cfg * ruleMax s := by
  rw [ruleTotal, ← sumUpTo_eq_sum]
  exact sumUpTo_le_mul _ _ _ fun _ => ruleWindow_le_ruleMax s

theorem ruleMax_attained {s : State} (h : ruleMax s ≠ 0) :
    ∃ n < sampleCount s.cfg, ruleWindow s n = ruleMax s := by
  rw [ruleMax, ← maxUpTo_eq_sup] at h ⊢
  exact maxUpTo_attained _ _ h

/-- R129 (a): `Σ (N·S[n] - T) = N·T - N·T`. -/
theorem sum_centered_eq_zero (s : State) :
    ∑ n ∈ Finset.range (sampleCount s.cfg), ((sampleCount s.cfg : Int) * ruleWindow s n - ruleTotal s) = 0 := by
  rw [Finset.sum_sub_distrib, ← Finset.mul_sum, Finset.sum_const, Finset.card_range, nsmul_eq_mul, ruleTotal,
    Nat.cast_sum, sub_self]

/-- Settles O16: the sum is `N·T - N·T`, the bounds are `0 ≤ S[n] ≤ Smax`, and `Smax` is a window
sum; the strict bounds are those every present envelope has. -/
theorem centeredSequenceProperties : Obligations.CenteredSequenceProperties := by
  intro s t hlegal hexec hzero
  cases (exec_env_of_legal hlegal).symm.trans hexec
  have hrates := hlegal.rates
  obtain ⟨-, -, -, hstrict, -⟩ := envelopePresent_envDone s hrates
  obtain ⟨-, hsum, hden⟩ := results_envDone hrates.2
  have hmax : ruleMax s ≠ 0 := by
    rw [complete_cond, cond_envDone_eq_rule] at hzero
    exact of_decide_eq_false hzero
  have hcent : ∀ n < sampleCount s.cfg,
      centAt (envDone s) n = (sampleCount s.cfg : Int) * ruleWindow s n - ruleTotal s := fun n hn => by
    rw [centAt_envDone_eq_rule hrates.2 hn, if_neg hmax]
  rw [if_neg hmax] at hden
  simp only [hden, envDone_cfg] at hstrict
  simp only [complete_res, centAt_complete, hsum, hden]
  refine ⟨?_, fun n hn => ⟨?_, ?_, hstrict n hn⟩, ?_⟩
  · rw [← sum_centered_eq_zero s]
    exact Finset.sum_congr rfl fun n hn => hcent n (Finset.mem_range.mp hn)
  · have hnonneg : (0 : Int) ≤ sampleCount s.cfg * ruleWindow s n := by positivity
    rw [hcent n hn]
    omega
  · have hle := Nat.mul_le_mul_left (sampleCount s.cfg) (ruleWindow_le_ruleMax s hn)
    rw [hcent n hn]
    zify at hle ⊢
    omega
  · obtain ⟨n, hn, hattained⟩ := ruleMax_attained hmax
    have hle := ruleTotal_le s
    refine ⟨n, hn, ?_, ?_⟩ <;> rw [hcent n hn, hattained]
    · rw [Nat.cast_mul]
    · zify at hle
      omega

/-! ## An all-zero envelope (R127) -/

/-- Zero amplitudes give zero window sums, and so `Smax = 0`. -/
theorem ruleMax_eq_zero {s : State} (h : ∀ n < sampleCount s.cfg, ruleAmplitude s n = 0) : ruleMax s = 0 := by
  have hwindow : ∀ n, ruleWindow s n = 0 := fun n =>
    Finset.sum_eq_zero fun j _ => by
      split_ifs with hj
      · exact h _ (by omega)
      · rfl
  exact Nat.eq_zero_of_le_zero (Finset.sup_le fun n _ => (hwindow n).le)

theorem padRead_of_zero {c : Nat → Int} {count : Nat} (h : ∀ n < count, c n = 0) (j : Int) :
    padRead 0 count c j = 0 := by
  obtain ⟨n, hn, -, hread⟩ | ⟨-, hread⟩ := padRead_cases (0 : Int) count c j
  · rw [hread, h n hn]
  · exact hread

/-- A zero sequence gives no phase error, so no update (R146). -/
theorem phaseUpdate_of_zero {c : Nat → Int} {count den : Nat} (h : ∀ n < count, c n = 0) (hden : 0 < den)
    (width index : Nat) (epsilon : Int) : phaseUpdate c count width den index epsilon = 0 := by
  simp only [phaseUpdate, padRead_of_zero h, mul_zero]
  exact roundDiv_zero _ (by positivity)

/-- Over a zero sequence the loop never moves `epsilon` (R127, R154 (c)). -/
theorem LoopTrace.eps_of_zero {c : Nat → Int} {count width den : Nat} {m : Memory} {l : TimingLoop}
    {eps : Nat → Int} (h : ∀ n < count, c n = 0) (hden : 0 < den)
    (ht : LoopTrace c count width den m l eps) : ∀ k ≤ l.index, eps k = 0 := by
  obtain ⟨hstart, -, hpass, -⟩ := ht
  intro k
  induction k with
  | zero => exact fun _ => hstart
  | succ k ih =>
    intro hk
    obtain ⟨-, hnext, -⟩ := hpass k hk
    rw [hnext, ih (by omega), phaseUpdate_of_zero h hden, add_zero]

/-- What TREC's loop leaves over a zero sequence longer than one symbol: the instants `k·sps`, zero samples, and
`(N-1)//sps` symbols, the number of instants below `N - sps` (R127, R143, R154 (c)). -/
theorem timingRun_of_zero {c : Nat → Int} {count width den fuel : Nat} {m : Memory} {l : TimingLoop}
    (h : ∀ n < count, c n = 0) (hden : 0 < den) (hwidth : width < count)
    (hl : timingRun c count width den fuel (timingInit m) = some l) :
    l.epsilon = 0 ∧ l.index ≠ 0 ∧ l.index = (count - 1) / width ∧
      ∀ k < l.index, Cells.read l.syn k = some 0#64 ∧
        Cells.read l.clk k = some (BitVec.ofNat 16 (k * width)) := by
  obtain ⟨eps, ht, hended⟩ := timingRun_trace hl
  have heps := ht.eps_of_zero h hden
  obtain ⟨-, hlast, hpass, -⟩ := ht
  have hzero : l.epsilon = 0 := hlast ▸ heps l.index le_rfl
  have hstop : count ≤ (l.index + 1) * width := by
    simp only [timingGuard, hzero, decide_eq_false_iff_not] at hended
    zify
    linarith
  have hne : l.index ≠ 0 := fun h0 => by
    rw [h0] at hstop
    omega
  have hbefore : l.index * width < count := by
    obtain ⟨k, hk⟩ := Nat.exists_eq_succ_of_ne_zero hne
    obtain ⟨hguard, -⟩ := hpass k (by omega)
    rw [heps k (by omega)] at hguard
    rw [hk]
    zify
    linarith
  refine ⟨hzero, hne, ?_, fun k hk => ?_⟩
  · exact (Nat.div_eq_of_lt_le (by omega) (by omega)).symm
  · obtain ⟨-, -, hclk, hsyn⟩ := hpass k hk
    rw [heps (k + 1) hk, add_zero] at hclk hsyn
    rw [hclk, hsyn, padRead_of_zero h, ← Nat.cast_mul, BitVec.ofInt_natCast]
    exact ⟨rfl, rfl⟩

theorem exec_trec_of_loop {s : State} {l : TimingLoop} (hlegal : LegalConfig s.cfg)
    (henv : s.valid.env = true) (hl : timingOf s = some l) (h0 : l.index ≠ 0) :
    exec .trec s = .next (complete (trecDone s l) okRecord) :=
  command_of_body_ok (body := trecBody) hlegal henv (by rw [trecBody, hl]; exact if_neg h0)

/-- TREC on a present envelope that is zero throughout (R127, R154 (c)). -/
theorem exec_trec_of_zero {s : State} (hlegal : LegalConfig s.cfg) (henv : s.valid.env = true)
    (hp : EnvelopePresent s) (hzero : ∀ n < sampleCount s.cfg, centAt s n = 0)
    (hlong : sps s.cfg < sampleCount s.cfg) :
    ∃ u, exec .trec s = .next u ∧ u.err = .ok ∧ u.res.eps = 0#64 ∧
      u.res.nbits.toNat = (sampleCount s.cfg - 1) / sps s.cfg ∧
      ∀ k < u.res.nbits.toNat, Cells.read u.mem.syn k = some 0#64 ∧
        Cells.read u.mem.clk k = some (BitVec.ofNat 16 (k * sps s.cfg)) := by
  obtain ⟨l, hl, hr⟩ := timingOf_result hp
  have ⟨⟨_, hN⟩, _, hden, _⟩ := hp
  obtain ⟨heps, hne, hindex, houtputs⟩ := timingRun_of_zero hzero hden hlong hl
  have hbits : (complete (trecDone s l) okRecord).res.nbits.toNat = l.index :=
    bitCount_trecDone s ((hr.below.resolve_left hne).le.trans hN)
  refine ⟨_, exec_trec_of_loop hlegal henv hl hne, rfl, ?_, hbits.trans hindex, fun k hk => ?_⟩
  · rw [complete_res, trecDone_res, heps]
    rfl
  · exact houtputs k (hbits ▸ hk)

/-- Settles O15: `Smax = 0`, so ENV leaves the zero sequence over `D = 1`, on which TREC never moves `epsilon`. -/
theorem allZeroEnvelope : Obligations.AllZeroEnvelope := by
  intro s hlegal hamp
  have hrates := hlegal.rates
  have hmax := ruleMax_eq_zero hamp
  have hpresent := envelopePresent_envDone s hrates
  have ⟨_, hlisted, _⟩ := hpresent
  obtain ⟨-, -, hden⟩ := results_envDone hrates.2
  have hcent : ∀ n < sampleCount s.cfg, centAt (envDone s) n = 0 := fun n hn => by
    rw [centAt_envDone_eq_rule hrates.2 hn, if_pos hmax]
  refine ⟨_, exec_env_of_legal hlegal, rfl, ?_, ?_, fun n hn => ?_, fun hlong => ?_⟩
  · rw [complete_cond, cond_envDone_eq_rule, hmax]
    rfl
  · exact BitVec.eq_of_toNat_eq (hden.trans (if_pos hmax))
  · obtain ⟨v, hread, hv⟩ := hlisted.read_cent hn
    exact hread.trans (congrArg some (BitVec.toInt_inj.mp (hv.trans (hcent n hn))))
  · exact exec_trec_of_zero (s := complete (envDone s) okRecord) hlegal rfl
      (hpresent.congr rfl rfl rfl) hcent hlong

end Sys2Proof.Machine
end

section
/-! The timing recovery stage (41_timing_recovery.md R140 to R156): `round`, the sign of a phase update, what TREC
leaves in every register and memory, and the invariants of the recovered clock. -/

namespace Sys2Proof.Machine

/-! ## `round` (R147) -/

section
variable {ties : RoundTies} {n d : Int}

theorem roundDivWith_of_lt_half (h : 2 * (n - n / d * d) < d) : roundDivWith ties n d = n / d :=
  if_pos h

theorem roundDivWith_of_half_lt (h : d < 2 * (n - n / d * d)) : roundDivWith ties n d = n / d + 1 :=
  (if_neg h.not_gt).trans (if_pos h)

theorem roundDivWith_halfEven_of_half (h : 2 * (n - n / d * d) = d) :
    roundDivWith .halfEven n d = if n / d % 2 = 0 then n / d else n / d + 1 :=
  (if_neg h.not_lt).trans (if_neg h.not_gt)

theorem roundDivWith_halfAway_of_half (h : 2 * (n - n / d * d) = d) :
    roundDivWith .halfAway n d = if 0 < n then n / d + 1 else n / d :=
  (if_neg h.not_lt).trans (if_neg h.not_gt)

/-- A value within half a unit is nearest: any other integer is at least a whole unit away from it. -/
theorem abs_sub_roundDivWith_le (ties : RoundTies) (n : Int) (hd : 0 < d) (v : Int) :
    |n - roundDivWith ties n d * d| ≤ |n - v * d| := by
  obtain ⟨hlo, hhi⟩ := roundDivWith_near ties n d hd
  generalize roundDivWith ties n d = r at hlo hhi ⊢
  have hhalf : 2 * |n - r * d| ≤ d := by
    rw [← abs_two, ← abs_mul]
    exact abs_le.mpr ⟨hlo, hhi⟩
  by_cases hv : v = r
  · rw [hv]
  · have hunit : d ≤ |(v - r) * d| := by
      rw [abs_mul, abs_of_pos hd]
      exact le_mul_of_one_le_left hd.le (Int.one_le_abs (sub_ne_zero.mpr hv))
    have htriangle : |(v - r) * d| ≤ |n - r * d| + |n - v * d| := by
      rw [show (v - r) * d = (n - r * d) - (n - v * d) by ring]
      exact abs_sub _ _
    linarith

theorem roundDivWith_nonpos (ties : RoundTies) (hd : 0 < d) (hn : n ≤ 0) : roundDivWith ties n d ≤ 0 := by
  obtain ⟨hlo, -⟩ := roundDivWith_near ties n d hd
  by_contra! hpos
  have hunit := le_mul_of_one_le_left hd.le hpos
  linarith

theorem roundDivWith_nonneg (ties : RoundTies) (hd : 0 < d) (hn : 0 ≤ n) : 0 ≤ roundDivWith ties n d := by
  obtain ⟨-, hhi⟩ := roundDivWith_near ties n d hd
  by_contra! hneg
  have hunit := mul_le_mul_of_nonneg_right (Int.le_sub_one_of_lt hneg) hd.le
  linarith

end

/-- Settles O17: one equation for each branch of `round`, and the half-unit bound. -/
theorem roundIsNearestInteger : Obligations.RoundIsNearestInteger := by
  refine ⟨fun ties n d hd => ⟨roundDivWith_of_lt_half, roundDivWith_of_half_lt, fun h => ⟨?_, ?_, ?_⟩,
    abs_sub_roundDivWith_le ties n hd⟩, by decide, by decide, by decide, by decide, by decide, by decide,
    roundDiv_zero⟩
  · rintro rfl
    rw [roundDivWith_halfEven_of_half h]
    split_ifs <;> omega
  · rintro rfl hn
    rw [roundDivWith_halfAway_of_half h, if_pos hn]
  · rintro rfl hn
    rw [roundDivWith_halfAway_of_half h, if_neg hn.not_gt]

/-! ## The sign of a phase update (R146) -/

/-- Settles O18: `num` has the sign of `-(xm - xp)·xe` and `round` keeps it; a zero error has both signs. -/
theorem phaseUpdateSign : Obligations.PhaseUpdateSign := by
  intro c count width den index epsilon hden
  have hd : 0 < 2 * (den : Int) * den := by positivity
  have hgain : -(width : Int) ≤ 0 := by omega
  simp only [phaseUpdate]
  generalize padRead 0 count c (midInstant width index epsilon) = xm
  generalize padRead 0 count c (prevInstant width index epsilon) = xp
  generalize padRead 0 count c (earlyInstant width index epsilon) = xe
  rw [mul_assoc]
  have hfall (h : 0 ≤ (xm - xp) * xe) : roundDiv (-(width : Int) * ((xm - xp) * xe)) (2 * den * den) ≤ 0 :=
    roundDivWith_nonpos _ hd (mul_nonpos_of_nonpos_of_nonneg hgain h)
  have hrise (h : (xm - xp) * xe ≤ 0) : 0 ≤ roundDiv (-(width : Int) * ((xm - xp) * xe)) (2 * den * den) :=
    roundDivWith_nonneg _ hd (mul_nonneg_of_nonpos_of_nonpos hgain h)
  refine ⟨hfall, hrise, fun h => ?_⟩
  have herror : (xm - xp) * xe = 0 := mul_eq_zero.mpr (h.imp_left sub_eq_zero.mpr)
  exact le_antisymm (hfall herror.ge) (hrise herror.le)

/-! ## The instants of the loop (R148, R151) -/

/-- `t_k = k·sps + eps (k+1)`, the instant that pass `k` puts out (R148). -/
def outputInstant (width : Nat) (eps : Nat → Int) (k : Nat) : Int := (k : Int) * width + eps (k + 1)

/-- `clock[k]`, the instant as a sample index; no instant is negative (`LoopTrace.cast_recoveredClock`). -/
def recoveredClock (width : Nat) (eps : Nat → Int) (k : Nat) : Nat := (outputInstant width eps k).toNat

section
variable {c : Nat → Int} {count width den k : Nat} {m : Memory} {l : TimingLoop} {eps : Nat → Int}

/-- R151 (c). -/
theorem LoopTrace.instant_zero (hc : CenteredBounds c count den) (hw : 1 ≤ width)
    (ht : LoopTrace c count width den m l eps) (h : 0 < l.index) : outputInstant width eps 0 = 0 := by
  obtain ⟨-, -, hfirst, -⟩ := ht.steps hc hw 0 h
  simp [outputInstant, hfirst rfl]

/-- The lower half of R151 (e), summed over the passes. -/
theorem LoopTrace.le_instant (hc : CenteredBounds c count den) (hw : 1 ≤ width)
    (ht : LoopTrace c count width den m l eps) (hk : k < l.index) :
    ((k * ((width + 1) / 2) : Nat) : Int) ≤ outputInstant width eps k := by
  obtain ⟨hlo, -⟩ := ht.steps hc hw k hk
  have hceil : (((width + 1) / 2 : Nat) : Int) = width - (width / 2 : Nat) := by omega
  rwa [Nat.cast_mul, hceil]

/-- R151 (g). -/
theorem LoopTrace.instant_le (hc : CenteredBounds c count den) (hw : 1 ≤ width)
    (ht : LoopTrace c count width den m l eps) (hk : k < l.index) :
    outputInstant width eps k + 1 + ((width + 1) / 2 : Nat) ≤ count := by
  obtain ⟨-, -, -, hhi, -⟩ := ht.steps hc hw k hk
  rw [outputInstant]
  omega

/-- Every output read is inside the capture (R151 (g)). -/
theorem LoopTrace.instant_mem (hc : CenteredBounds c count den) (hw : 1 ≤ width)
    (ht : LoopTrace c count width den m l eps) (hk : k < l.index) :
    0 ≤ outputInstant width eps k ∧ outputInstant width eps k < count := by
  have hlo := ht.le_instant hc hw hk
  have hhi := ht.instant_le hc hw hk
  omega

theorem LoopTrace.cast_recoveredClock (hc : CenteredBounds c count den) (hw : 1 ≤ width)
    (ht : LoopTrace c count width den m l eps) (hk : k < l.index) :
    (recoveredClock width eps k : Int) = outputInstant width eps k :=
  Int.toNat_of_nonneg (ht.instant_mem hc hw hk).1

/-- R151 (e): the clock advances by `sps + Δ` and `|Δ| ≤ sps//2`. -/
theorem LoopTrace.instant_succ (hc : CenteredBounds c count den) (hw : 1 ≤ width)
    (ht : LoopTrace c count width den m l eps) (hk : k + 1 < l.index) :
    outputInstant width eps k + ((width + 1) / 2 : Nat) ≤ outputInstant width eps (k + 1) ∧
      outputInstant width eps (k + 1) ≤ outputInstant width eps k + width + (width / 2 : Nat) := by
  obtain ⟨-, -, -, -, hstep⟩ := ht.steps hc hw (k + 1) hk
  have hnext : ((k + 1 : Nat) : Int) * width = k * width + width := by push_cast; ring
  rw [abs_le] at hstep
  simp only [outputInstant, hnext]
  omega

/-- `mid` of the next pass is one symbol after the instant of this one (R151 (d)), and met the guard (R143). -/
theorem LoopTrace.instant_add_lt (ht : LoopTrace c count width den m l eps) (hk : k + 1 < l.index) :
    outputInstant width eps k + width < count - width := by
  obtain ⟨-, -, hpass, -⟩ := ht
  obtain ⟨hguard, -⟩ := hpass (k + 1) hk
  have hnext : ((k + 1 : Nat) : Int) * width = k * width + width := by push_cast; ring
  rw [outputInstant]
  linarith

/-- R151 (h): pass `K-1` met the guard, one symbol after an instant of at least `(K-2)·ceil(sps/2)`. -/
theorem LoopTrace.index_le (hc : CenteredBounds c count den) (hw : 1 ≤ width)
    (ht : LoopTrace c count width den m l eps) :
    l.index ≤ 1 + (count - 2 * width + (width + 1) / 2 - 1) / ((width + 1) / 2) := by
  by_cases hmany : 2 ≤ l.index
  · obtain ⟨k, hk⟩ := Nat.exists_eq_add_of_le' hmany
    have hlo := ht.le_instant hc hw (k := k) (by omega)
    have hguard := ht.instant_add_lt (k := k) (by omega)
    have hstep : (k + 1) * ((width + 1) / 2) = k * ((width + 1) / 2) + (width + 1) / 2 := Nat.succ_mul _ _
    have hquot : k + 1 ≤ (count - 2 * width + (width + 1) / 2 - 1) / ((width + 1) / 2) := by
      rw [Nat.le_div_iff_mul_le (by omega), hstep]
      omega
    omega
  · exact Nat.le_add_right_of_le (by omega)

/-- R151 (i): `|epsilon| ≤ (K-1)·(sps//2)`, which is at most the last instant. -/
theorem LoopTrace.abs_epsilon_lt (hc : CenteredBounds c count den) (hw : 1 ≤ width)
    (ht : LoopTrace c count width den m l eps) (h : 1 ≤ l.index) : |l.epsilon| < count := by
  obtain ⟨k, hk⟩ := Nat.exists_eq_add_of_le' h
  have hlt : k < l.index := by omega
  have ⟨_, hlast, _⟩ := ht
  obtain ⟨-, habs, -⟩ := ht.steps hc hw k hlt
  have hlo := ht.le_instant hc hw hlt
  obtain ⟨-, hhi⟩ := ht.instant_mem hc hw hlt
  have hhalf : k * (width / 2) ≤ k * ((width + 1) / 2) := Nat.mul_le_mul_left k (by omega)
  rw [← hk, hlast] at habs
  zify at habs hhalf hlo
  linarith

/-- R151 (j): at one sample per symbol no update is as large as half a sample. -/
theorem LoopTrace.eps_of_width_one (hc : CenteredBounds c count den)
    (ht : LoopTrace c count 1 den m l eps) (hk : k ≤ l.index) : eps k = 0 := by
  cases k with
  | zero => exact ht.1
  | succ k =>
    obtain ⟨-, habs, -⟩ := ht.steps hc le_rfl k hk
    simpa using habs

/-- A capture longer than one symbol gives at least one pass (R143, R150). -/
theorem LoopTrace.index_ne_zero (ht : LoopTrace c count width den m l eps)
    (hended : timingGuard count width l = false) (hlong : width < count) : l.index ≠ 0 := by
  intro h0
  obtain ⟨hstart, hlast, -⟩ := ht
  rw [h0, hstart] at hlast
  simp only [timingGuard, h0, ← hlast, decide_eq_false_iff_not] at hended
  omega

end

/-! ## TREC (R141, R150) -/

/-- What TREC's loop has done on a present centered sequence, pass by pass (R143 to R149). -/
theorem timingOf_trace {s : State} (h : EnvelopePresent s) :
    ∃ l eps, timingOf s = some l ∧ TimingResult (sampleCount s.cfg) (sps s.cfg) s.mem l ∧
      LoopTrace (centAt s) (sampleCount s.cfg) (sps s.cfg) s.res.envden.toNat s.mem l eps := by
  obtain ⟨l, hl, hr⟩ := timingOf_result h
  obtain ⟨eps, ht, -⟩ := timingRun_trace hl
  exact ⟨l, eps, hl, hr, ht⟩

/-- TREC ends OK only after a loop of at least one pass (R150). -/
theorem exec_trec_ok {s t : State} {l : TimingLoop} (hlegal : LegalConfig s.cfg) (henv : s.valid.env = true)
    (hl : timingOf s = some l) (hexec : exec .trec s = .next t) (hok : t.err = .ok) :
    l.index ≠ 0 ∧ t = complete (trecDone s l) okRecord := by
  have hp : prologue .trec s = none := (prologue_eq_none_iff .trec s).mpr ⟨(legalConfig_iff _).mp hlegal, henv⟩
  have hfinish : (trecBody s).finish = .next t := (command_of_accepted trecBody hp).symm.trans hexec
  obtain ⟨hn, -⟩ | ⟨-, -, -, he⟩ | ⟨l', hl', h0, he⟩ := trecBody_cases s
  · cases hl.symm.trans hn
  · rw [he] at hfinish
    cases hfinish
    cases hok
  · cases hl.symm.trans hl'
    rw [he] at hfinish
    cases hfinish
    exact ⟨h0, rfl⟩

/-- A phase update, with the reads as the rules write them (R144, R146). -/
theorem phaseUpdate_eq_rule (s : State) (den k : Nat) (e : Int) :
    phaseUpdate (centAt s) (sampleCount s.cfg) (sps s.cfg) den k e =
      roundDiv (-(sps s.cfg : Int) * (ruleCentAt s ((k : Int) * sps s.cfg + e) -
          ruleCentAt s (((k : Int) - 1) * sps s.cfg + e)) *
          ruleCentAt s ((k : Int) * sps s.cfg - ((sps s.cfg / 2 : Nat) : Int) + e))
        (2 * (den : Int) * den) := by
  simp only [phaseUpdate, padRead_centAt, midInstant, prevInstant, earlyInstant]

/-- No sample is truncated on its way from `CENTMEM` to `SYNMEM`: both have 64 bits (R14, R47). -/
theorem toInt_ofInt_ruleCentAt (s : State) (j : Int) : (BitVec.ofInt 64 (ruleCentAt s j)).toInt = ruleCentAt s j := by
  rw [ruleCentAt]
  split_ifs
  · rw [centAt, BitVec.ofInt_toInt]
  · rfl

/-- No instant is truncated on its way to `CLKMEM` (R14, R47). -/
theorem toNat_ofInt_instant {t : Int} {count : Nat} (hcount : count ≤ Config.nMax) (h0 : 0 ≤ t) (h : t < count) :
    ((BitVec.ofInt 16 t).toNat : Int) = t := by
  simp only [Config.nMax] at hcount
  rw [BitVec.toNat_ofInt]
  omega

theorem toInt_ofInt_epsilon {e : Int} {count : Nat} (hcount : count ≤ Config.nMax) (h : |e| < count) :
    (BitVec.ofInt 64 e).toInt = e := by
  simp only [Config.nMax] at hcount
  rw [abs_lt] at h
  exact BitVec.toInt_ofInt_eq_self (by norm_num) (by norm_num; omega) (by norm_num; omega)

/-- Settles O19: the trace of the loop is the run the statement describes; R151's bounds say that nothing in it is
padded or truncated. -/
theorem trecRunsTimingLoop : Obligations.TrecRunsTimingLoop := by
  intro s hinv hlegal henv hlong
  have hp := hinv.envelope henv
  obtain ⟨l, eps, hl, hr, ht⟩ := timingOf_trace hp
  obtain ⟨⟨hw, hN⟩, -, hc⟩ := hp
  have hne := ht.index_ne_zero hr.ended hlong
  have hlt := hr.below.resolve_left hne
  have heps := ht.abs_epsilon_lt hc hw (by omega)
  have ⟨hstart, hlast, hpass, hkept, _⟩ := ht
  refine ⟨_, l.index, eps, exec_trec_of_loop hlegal henv hl hne, completedWith_complete rfl okRecord, by omega,
    hstart, fun k hk => ?_, ?_, bitCount_trecDone s (hlt.le.trans hN), ?_, rfl, rfl, rfl, rfl, rfl, rfl, rfl,
    rfl, ⟨rfl, rfl, rfl, rfl, rfl, rfl⟩, rfl, fun n hn => (hkept n hn).1, fun n hn => (hkept n hn).2, rfl, rfl,
    rfl⟩
  · obtain ⟨hguard, hnext, hclk, hsyn⟩ := hpass k hk
    obtain ⟨hlo, hhi⟩ := ht.instant_mem hc hw hk
    rw [phaseUpdate_eq_rule] at hnext
    rw [padRead_centAt] at hsyn
    exact ⟨hguard, hnext, hlo, hhi, ⟨_, hclk, toNat_ofInt_instant hN hlo hhi⟩, _, hsyn, toInt_ofInt_ruleCentAt s _⟩
  · rw [hlast]
    exact of_decide_eq_false hr.ended
  · rw [hlast]
    exact toInt_ofInt_epsilon hN heps

/-! ## The recovered clock (R151) -/

/-- Settles O20: the clock is the sequence of the loop's instants, which lie in the capture. -/
theorem recoveredClockInvariants : Obligations.RecoveredClockInvariants := by
  intro s t hinv hlegal henv hexec hok
  have hp := hinv.envelope henv
  obtain ⟨l, eps, hl, hr, ht⟩ := timingOf_trace hp
  obtain ⟨⟨hw, hN⟩, -, hc⟩ := hp
  obtain ⟨hne, rfl⟩ := exec_trec_ok hlegal henv hl hexec hok
  have hlt := hr.below.resolve_left hne
  have hbits : bitCount (complete (trecDone s l) okRecord) = l.index := bitCount_trecDone s (hlt.le.trans hN)
  have heps := ht.abs_epsilon_lt hc hw (by omega)
  have ⟨_, hlast, hpass, _, hwarn⟩ := ht
  rw [hbits]
  refine ⟨recoveredClock (sps s.cfg) eps, fun k hk => ?_, ?_, fun k hk => ?_, fun k hk => ?_,
    by omega, by omega, ht.index_le hc hw, ?_, fun hone => ?_, hwarn hw (by omega)⟩
  · obtain ⟨-, -, hclk, -⟩ := hpass k hk
    obtain ⟨hlo, hhi⟩ := ht.instant_mem hc hw hk
    refine ⟨_, hclk, ?_⟩
    zify
    exact (toNat_ofInt_instant hN hlo hhi).trans (ht.cast_recoveredClock hc hw hk).symm
  · rw [recoveredClock, ht.instant_zero hc hw (by omega), Int.toNat_zero]
  · zify
    rw [ht.cast_recoveredClock hc hw hk, ht.cast_recoveredClock hc hw (by omega)]
    exact mod_cast ht.instant_succ hc hw hk
  · zify
    rw [ht.cast_recoveredClock hc hw hk]
    exact mod_cast ht.instant_le hc hw hk
  · rw [complete_res, trecDone_res, toInt_ofInt_epsilon hN heps]
    exact heps
  · have hended := hr.ended
    rw [hone] at ht hended
    have hzero : l.epsilon = 0 := hlast ▸ ht.eps_of_width_one hc le_rfl
    refine ⟨by rw [complete_res, trecDone_res, hzero]; rfl, ?_, fun k hk => ?_⟩
    · simp only [timingGuard, hzero, decide_eq_false_iff_not] at hended
      omega
    · simp [recoveredClock, outputInstant, hone, ht.eps_of_width_one hc hk]

end Sys2Proof.Machine
end

section
/-! The command BDEC: one bit per synced sample by a strict comparison with 0 (42_bit_decision.md R170 to R172). -/

namespace Sys2Proof.Machine

/-! ## The decision (R171) -/

theorem decideBit_of_pos {y : Int} (h : 0 < y) : decideBit y = 1#1 := if_pos h

/-- Zero decides 0: the comparison is strict. -/
theorem decideBit_of_nonpos {y : Int} (h : y ≤ 0) : decideBit y = 0#1 := if_neg h.not_gt

/-! ## BDEC (R171) -/

theorem exec_bdec_of_legal {s : State} (hlegal : LegalConfig s.cfg) (htr : s.valid.tr = true) :
    exec .bdec s = .next (complete (bdecDone s) okRecord) :=
  command_of_body_ok (body := bdecBody) hlegal htr rfl

/-- `BITMEM[k]` after BDEC is the decision on the sample that stood in `SYNMEM[k]` before it. -/
theorem read_bits_bdecDone {s : State} {k : Nat} (hk : k < bitCount s) :
    Cells.read (bdecDone s).mem.bits k = some (decideBit (synAt s k)) := by
  rw [bdecDone_mem, Cells.read_fill, if_pos hk]

/-- Settles O22: BDEC ends in `bdecDone`, which writes the decided bits and nothing beyond them. -/
theorem bdecDecidesBySign : Obligations.BdecDecidesBySign := by
  intro s hlegal htr
  refine ⟨_, exec_bdec_of_legal hlegal htr, completedWith_complete rfl okRecord,
    fun k hk => ⟨fun hpos => ?_, fun hnonpos => ?_⟩, rfl, rfl, rfl,
    ⟨rfl, rfl, rfl, rfl, rfl, rfl⟩, keptBeyond_fill _ _ _, rfl, rfl, rfl, rfl, rfl⟩
  · rw [complete_mem, read_bits_bdecDone hk, decideBit_of_pos hpos]
  · rw [complete_mem, read_bits_bdecDone hk, decideBit_of_nonpos hnonpos]

end Sys2Proof.Machine
end

section
/-! The frame-sync stage (43_frame_sync.md R180 to R195): what FSYNC leaves in `PROFMEM`, the scores and positions the
pattern allows, the two ways FSYNC ends, and the position of an exact copy of the pattern. -/

namespace Sys2Proof.Machine

/-! ## The profile (R184) -/

theorem LegalConfig.swlen_le {c : Cfg} (h : LegalConfig c) : c.swlen.toNat ≤ Config.swMax := by
  obtain ⟨-, -, -, hswlen, -⟩ := h
  exact hswlen

theorem LegalConfig.policy_ne {c : Cfg} (h : LegalConfig c) : c.policy ≠ 3#2 := by
  obtain ⟨-, -, -, -, -, hpolicy⟩ := h
  exact hpolicy

theorem profAt_profiled_eq_rule {s : State} (hlegal : LegalConfig s.cfg) {k : Nat} (hk : k < bitCount s) :
    profAt (profiled s) k = ruleScore s k := by
  rw [profAt_profiled s hlegal.swlen_le k hk, score_eq_rule]

/-- No score is truncated on its way to `PROFMEM` (R14, R184). -/
theorem read_prof_profiled {s : State} (hlegal : LegalConfig s.cfg) {k : Nat} (hk : k < bitCount s) :
    ∃ v, Cells.read (profiled s).mem.prof k = some v ∧ v.toNat = ruleScore s k := by
  have hlisted : Listed (profiled s).mem.prof (bitCount s) := Listed.fill _ _ _
  obtain ⟨v, hv⟩ := Option.isSome_iff_exists.mp (hlisted k hk)
  exact ⟨v, hv, by rw [← profAt_profiled_eq_rule hlegal hk, profAt, entryOr_of_read _ _ _ _ hv]⟩

/-- No pattern, or no 1 bit, gives no coinciding ones (R192 (b), (c)). -/
theorem ruleScore_eq_zero {s : State} (h : patLen s.cfg = 0 ∨ ∀ n < bitCount s, bitAt s n = 0) (i : Nat) :
    ruleScore s i = 0 := by
  obtain hlen | hbits := h
  · rw [ruleScore, hlen, Finset.sum_range_zero]
  · refine Finset.sum_eq_zero fun j _ => ?_
    split_ifs with hj
    · rw [hbits _ (by omega), zero_mul]
    · exact zero_mul _

/-- A copy of the pattern from bit `p` on scores `ones(P)` where its middle lies (R184, R193). -/
theorem ruleScore_of_copy {s : State} {p : Nat} (hfits : p + patLen s.cfg ≤ bitCount s)
    (hcopy : ∀ j < patLen s.cfg, bitAt s (p + j) = (patBit s.cfg s.syncw j).toNat) :
    ruleScore s (p + patLen s.cfg / 2) = patternOnes s := by
  refine Finset.sum_congr rfl fun j hj => ?_
  have hj : j < patLen s.cfg := Finset.mem_range.mp hj
  have hindex : ((p + patLen s.cfg / 2 : Nat) : Int) - ((patLen s.cfg / 2 : Nat) : Int) + j =
      ((p + j : Nat) : Int) := by omega
  rw [hindex, if_pos (by omega), Int.toNat_natCast, hcopy j hj]
  cases patBit s.cfg s.syncw j <;> rfl

/-! ## Eligible positions (R186, R192) -/

theorem Eligible.th_lt_ruleScore {s : State} {i : Nat} (h : Eligible s i) : s.cfg.th.toNat < ruleScore s i := by
  obtain ⟨-, -, hscore, -⟩ := h
  exact mod_cast hscore

/-- R192 (g): of two neighbours at most one is strictly above the other. -/
theorem Eligible.not_succ {s : State} {i : Nat} (h : Eligible s i) : ¬Eligible s (i + 1) := by
  obtain ⟨-, -, -, -, hfall⟩ := h
  rintro ⟨-, -, -, hrise, -⟩
  rw [Nat.add_sub_cancel] at hrise
  omega

/-- R192 (a) to (d). -/
theorem not_eligible_of_degenerate {s : State}
    (h : bitCount s < 3 ∨ patLen s.cfg = 0 ∨ (∀ k < bitCount s, bitAt s k = 0) ∨
      patternOnes s ≤ s.cfg.th.toNat) (i : Nat) : ¬Eligible s i := by
  intro he
  have hth := he.th_lt_ruleScore
  obtain hfew | hlen | hbits | hones := h
  · obtain ⟨hfirst, hlast, -⟩ := he
    omega
  · rw [ruleScore_eq_zero (.inl hlen)] at hth
    omega
  · rw [ruleScore_eq_zero (.inr hbits)] at hth
    omega
  · exact (hth.trans_le (ruleScore_le s i)).not_ge hones

theorem eligible_of_margins {s : State} {i : Nat} (hfirst : 1 ≤ i) (hlast : i + 2 ≤ bitCount s)
    (hscore : s.cfg.th.toNat < ruleScore s i) (hrise : ruleScore s (i - 1) + s.cfg.th.toNat < ruleScore s i)
    (hfall : ruleScore s (i + 1) + s.cfg.th.toNat < ruleScore s i) : Eligible s i :=
  ⟨hfirst, hlast, by omega, by omega, by omega⟩

/-! ## The scan (R186 to R190) -/

theorem Preferred.eligible {s : State} {i : Nat} (h : Preferred s i) : Eligible s i := h.1

/-- Under `LAST` the position kept is the largest eligible one (R187). -/
theorem Preferred.eq_of_last {s : State} {i j : Nat} (h : Preferred s i) (hpolicy : s.cfg.policy = 1#2)
    (hj : Eligible s j) (hlargest : ∀ k, Eligible s k → k ≤ j) : i = j := by
  obtain ⟨hi, -, hlast, -⟩ := h
  exact le_antisymm (hlargest i hi) (hlast hpolicy j hj)

/-- What the scan of the profile FSYNC has just written finds, in the rules' terms. -/
theorem scanOf_profiled_cases {s : State} (hlegal : LegalConfig s.cfg) :
    ((scanOf (profiled s)).found = false ∧ ∀ i, ¬Eligible s i) ∨
      ((scanOf (profiled s)).found = true ∧ Preferred s (scanOf (profiled s)).syncIndex ∧
        (scanOf (profiled s)).payloadStart = (scanOf (profiled s)).syncIndex + halfPat s.cfg) := by
  have hqual := qualifies_iff_eligible s hlegal.swlen_le
  have hscan : scanOf (profiled s) = scanUpTo (profAt (profiled s)) s.cfg.th.toNat s.cfg.policy
    (halfPat s.cfg) (bitCount s - 2) := rfl
  have hpolicy := scanUpTo_policy (profAt (profiled s)) s.cfg.th.toNat s.cfg.policy (halfPat s.cfg)
    (bitCount s - 2) hlegal.policy_ne
  have hcases := scanUpTo_cases (profAt (profiled s)) s.cfg.th.toNat s.cfg.policy (halfPat s.cfg)
    (bitCount s - 2) hlegal.policy_ne
  rw [← hscan] at hpolicy hcases
  -- An eligible position lies in the scanned range, where the profile holds the rules' scores.
  have hscanned : ∀ j, Eligible s j → 1 ≤ j ∧ j ≤ bitCount s - 2 ∧
      qualifies (profAt (profiled s)) s.cfg.th.toNat j = true ∧ profAt (profiled s) j = ruleScore s j := by
    intro j hj
    have ⟨hfirst, hlast, _⟩ := hj
    exact ⟨hfirst, by omega, (hqual j hfirst (by omega)).mpr hj, profAt_profiled_eq_rule hlegal (by omega)⟩
  obtain ⟨hf, hnone⟩ | ⟨hf, hfirst, hlast, hq, hstart⟩ := hcases
  · refine .inl ⟨hf, fun j hj => ?_⟩
    obtain ⟨h1, h2, hqj, -⟩ := hscanned j hj
    exact Bool.false_ne_true ((hnone j h1 h2).symm.trans hqj)
  · have helig := (hqual _ hfirst hlast).mp hq
    obtain ⟨hsmallest, hlargest, hstrongest⟩ := hpolicy hf
    refine .inr ⟨hf, ⟨helig, fun hp j hj => ?_, fun hp j hj => ?_, fun hp j hj => ?_⟩, hstart⟩ <;>
      obtain ⟨h1, h2, hqj, hscore⟩ := hscanned j hj
    · exact hsmallest hp j h1 h2 hqj
    · exact hlargest hp j h1 h2 hqj
    · obtain ⟨-, -, -, hbest⟩ := hscanned _ helig
      rw [← hscore, ← hbest]
      exact hstrongest hp j h1 h2 hqj

/-! ## FSYNC (R181, R190, R191) -/

/-- What FSYNC records when no position qualified (R191). -/
def nosyncRecord : Record := { code := .nosync, stage := .fsync, sub := 0#4 }

/-- The two ways FSYNC ends once its prologue has accepted it: on a position the policy prefers, or with none. -/
theorem exec_fsync_cases {s : State} (hlegal : LegalConfig s.cfg) (hbd : s.valid.bd = true) :
    (∃ st : Scan, Preferred s st.syncIndex ∧ st.payloadStart = st.syncIndex + halfPat s.cfg ∧
        exec .fsync s = .next (complete (fsyncDone s st) okRecord)) ∨
      ((∀ i, ¬Eligible s i) ∧ exec .fsync s = .next (complete (discardWork (profiled s)) nosyncRecord)) := by
  have hp : prologue .fsync s = none := (prologue_eq_none_iff .fsync s).mpr ⟨(legalConfig_iff _).mp hlegal, hbd⟩
  have hexec : exec .fsync s = (fsyncBody s).finish := command_of_accepted fsyncBody hp
  obtain ⟨hf, hnone⟩ | ⟨hf, hpref, hstart⟩ := scanOf_profiled_cases hlegal <;>
    obtain ⟨hf', hbody⟩ | ⟨hf', hbody⟩ := fsyncBody_cases s
  · cases hf.symm.trans hf'
  · exact .inr ⟨hnone, by rw [hexec, hbody]; rfl⟩
  · exact .inl ⟨_, hpref, hstart, by rw [hexec, hbody]; rfl⟩
  · cases hf.symm.trans hf'

theorem exec_fsync_of_not_eligible {s : State} (hlegal : LegalConfig s.cfg) (hbd : s.valid.bd = true)
    (hnone : ∀ i, ¬Eligible s i) : exec .fsync s = .next (complete (discardWork (profiled s)) nosyncRecord) := by
  obtain ⟨st, hpref, -⟩ | ⟨-, hexec⟩ := exec_fsync_cases hlegal hbd
  · exact absurd hpref.eligible (hnone _)
  · exact hexec

/-- An accepted position fits `SYNCIDX` and `PAYSTART` (R14, R190). -/
theorem sync_registers_fsyncDone {s : State} {st : Scan} (hlegal : LegalConfig s.cfg)
    (helig : Eligible s st.syncIndex) (hstart : st.payloadStart = st.syncIndex + halfPat s.cfg) :
    (fsyncDone s st).res.syncidx.toNat = st.syncIndex ∧
      (fsyncDone s st).res.paystart.toNat = st.syncIndex + patLen s.cfg / 2 := by
  obtain ⟨-, hlast, -⟩ := helig
  have hcount : bitCount s < 2 ^ 17 := s.res.nbits.isLt
  have hlen := patLen_lt hlegal.swlen_le
  have hhalf : halfPat s.cfg = patLen s.cfg / 2 := rfl
  rw [fsyncDone_res]
  exact ⟨Nat.mod_eq_of_lt (by omega), by rw [hstart]; exact Nat.mod_eq_of_lt (by omega)⟩

theorem cond_profiled_eq_rule (s : State) :
    (profiled s).cond = { s.cond with wFsync := decide (1 ≤ bitCount s ∧ 8 ≤ patLen s.cfg) } := by
  rw [profiled_cond, corrWarn_eq_rule, Cond.clearFrom]

/-- Settles O24: some position qualifies, so FSYNC ends in `fsyncDone` on the one the policy prefers. -/
theorem fsyncAcceptsByPolicy : Obligations.FsyncAcceptsByPolicy := by
  rintro s hlegal hbd ⟨i, hi⟩
  obtain ⟨st, hpref, hstart, hexec⟩ | ⟨hnone, -⟩ := exec_fsync_cases hlegal hbd
  · obtain ⟨hsyncidx, hpaystart⟩ := sync_registers_fsyncDone hlegal hpref.eligible hstart
    exact ⟨_, st.syncIndex, hexec, completedWith_complete rfl okRecord, hpref, hsyncidx, hpaystart,
      fun k hk => read_prof_profiled hlegal hk, rfl, cond_profiled_eq_rule s, rfl, rfl, rfl, rfl, rfl,
      ⟨rfl, rfl, rfl, rfl, rfl, rfl⟩, keptBeyond_fill _ _ _, rfl, rfl, rfl, rfl, rfl⟩
  · exact absurd hi (hnone i)

/-! ## No position without a peak (R192) -/

/-- However FSYNC ends, `PROFMEM` holds the rules' scores (R184), and an accepted position was scanned (R192 (f)). -/
theorem fsync_stores_scores {s t : State} (hlegal : LegalConfig s.cfg) (hbd : s.valid.bd = true)
    (hexec : exec .fsync s = .next t) :
    (∀ k < bitCount s, ∃ v, Cells.read t.mem.prof k = some v ∧ v.toNat = ruleScore s k) ∧
      (t.err = .ok → Eligible s t.res.syncidx.toNat) := by
  obtain ⟨st, hpref, hstart, he⟩ | ⟨-, he⟩ := exec_fsync_cases hlegal hbd <;> cases he.symm.trans hexec
  · obtain ⟨hsyncidx, -⟩ := sync_registers_fsyncDone hlegal hpref.eligible hstart
    refine ⟨fun k hk => read_prof_profiled hlegal hk, fun _ => ?_⟩
    rw [complete_res, hsyncidx]
    exact hpref.eligible
  · exact ⟨fun k hk => read_prof_profiled hlegal hk, nofun⟩

/-- Settles O26: no score exceeds `ones(P)`, so in the four cases no position passes the threshold. -/
theorem noSpuriousSync : Obligations.NoSpuriousSync := by
  refine ⟨fun s hlegal hbd h => ?_, fun s t hlegal hbd hexec => ?_,
    fun s => ⟨fun i => ⟨ruleScore_le s i, patternOnes_le s⟩, fun h => not_eligible_of_degenerate ?_,
      fun i => Eligible.not_succ⟩⟩
  · refine ⟨_, exec_fsync_of_not_eligible hlegal hbd (not_eligible_of_degenerate h),
      completedWith_complete rfl nosyncRecord, rfl, rfl, rfl, fun hlen => ?_, fun k hk => ?_⟩
    · rw [complete_cond, discardWork_cond, cond_profiled_eq_rule]
      simp [hlen]
    · obtain ⟨v, hread, hv⟩ := read_prof_profiled hlegal hk
      exact ⟨v, hread, fun hzero => hv.trans (ruleScore_eq_zero hzero k)⟩
  · obtain ⟨hscores, haccepted⟩ := fsync_stores_scores hlegal hbd hexec
    refine ⟨fun k hk => ?_, fun hok => ?_⟩
    · obtain ⟨v, hread, hv⟩ := hscores k hk
      have hones := ruleScore_le s k
      exact ⟨v, hread, hv.trans_le hones, hv.trans_le (hones.trans (patternOnes_le s))⟩
    · obtain ⟨hfirst, hlast, -⟩ := haccepted hok
      exact ⟨hfirst, hlast⟩
  · tauto

/-! ## An exact copy of the pattern (R193) -/

/-- The pattern is whole bytes, so its two halves make it up again (R182). -/
theorem half_add_half_patLen (c : Cfg) : patLen c / 2 + patLen c / 2 = patLen c := by
  simp only [patLen]
  omega

/-- Settles O27: the copy's middle scores `ones(P)`; the margins make it eligible, and `LAST` keeps it. -/
theorem exactCopyIsFound : Obligations.ExactCopyIsFound := by
  intro s p hfits hcopy
  have hscore := ruleScore_of_copy hfits hcopy
  refine ⟨hscore, fun hfirst hlast hth hrise hfall => ?_⟩
  rw [← hscore] at hth hrise hfall
  have helig := eligible_of_margins hfirst hlast hth hrise hfall
  refine ⟨helig, fun hlegal hbd hpolicy hlargest => ?_⟩
  obtain ⟨t, i, hexec, ⟨-, hok, -⟩, hpref, hsyncidx, hpaystart, -⟩ :=
    fsyncAcceptsByPolicy s hlegal hbd ⟨_, helig⟩
  obtain rfl := hpref.eq_of_last hpolicy helig hlargest
  exact ⟨t, hexec, hok, hsyncidx, by rw [hpaystart, Nat.add_assoc, half_add_half_patLen]⟩

end Sys2Proof.Machine
end

section
/-! The command PEXT: eight bits to a byte, the earliest the most significant (44_payload_packer.md R210 to R215). -/

namespace Sys2Proof.Machine

/-! ## The byte of eight bits (R213) -/

/-- Bits are at most 1, so their sum is at most 255 and the byte does not truncate it (R213). -/
theorem toNat_packByte {bit : Nat → Nat} (hbit : ∀ k, bit k ≤ 1) (start : Nat) :
    (packByte bit start).toNat = ∑ k ∈ Finset.range 8, bit (start + k) * 2 ^ (7 - k) := by
  have hle : ∑ k ∈ Finset.range 8, bit (start + k) * 2 ^ (7 - k) ≤ 255 :=
    calc ∑ k ∈ Finset.range 8, bit (start + k) * 2 ^ (7 - k)
      _ ≤ ∑ k ∈ Finset.range 8, 1 * 2 ^ (7 - k) :=
        Finset.sum_le_sum fun k _ => Nat.mul_le_mul_right _ (hbit (start + k))
      _ = 255 := by decide
  simp only [packByte, sumUpTo_eq_sum, Nat.shiftLeft_eq, BitVec.toNat_ofNat]
  exact Nat.mod_eq_of_lt (by omega)

/-- The low `n` bits of a number, weighted, are the number modulo `2 ^ n`. -/
theorem sum_testBit (x n : Nat) : ∑ k ∈ Finset.range n, (x.testBit k).toNat * 2 ^ k = x % 2 ^ n := by
  induction n with
  | zero => rw [Finset.sum_range_zero, pow_zero, Nat.mod_one]
  | succ n ih => rw [Finset.sum_range_succ, ih, Nat.toNat_testBit, Nat.mod_pow_succ, Nat.mul_comm (2 ^ n)]

/-- The MSB-first expansion of a byte (R97), summed with R213's weights, is the byte. -/
theorem sum_getLsbD_msbFirst (v : Byte) :
    ∑ k ∈ Finset.range 8, (v.getLsbD (7 - k)).toNat * 2 ^ (7 - k) = v.toNat := by
  rw [Finset.sum_range_reflect (fun k => (v.getLsbD k).toNat * 2 ^ k) 8]
  exact (sum_testBit v.toNat 8).trans (Nat.mod_eq_of_lt v.isLt)

/-- Packing undoes the MSB-first expansion: R213's round trip. -/
theorem packByte_of_expanded {bit : Nat → Nat} {start : Nat} {v : Byte}
    (h : ∀ k < 8, bit (start + k) = (v.getLsbD (7 - k)).toNat) : packByte bit start = v := by
  rw [packByte, sumUpTo_congr fun k hk => by rw [h k hk, Nat.shiftLeft_eq], sumUpTo_eq_sum,
    sum_getLsbD_msbFirst, BitVec.ofNat_toNat, BitVec.setWidth_eq]

/-! ## PEXT (R211, R212) -/

/-- The range check passes up to `PAYSTART + 8·PAYSZ = Nb` (R212, R214 (b)). -/
theorem pextBody_of_le {s : State} (hlen : s.res.paystart.toNat + 8 * s.cfg.paysz.toNat ≤ bitCount s) :
    pextBody s = .ok (pextDone s) := by
  obtain ⟨-, he⟩ | ⟨hlong, -⟩ := pextBody_cases s
  · exact he
  · omega

theorem exec_pext_of_legal {s : State} (hlegal : LegalConfig s.cfg) (hbd : s.valid.bd = true)
    (hfs : s.valid.fs = true)
    (hlen : s.res.paystart.toNat + 8 * s.cfg.paysz.toNat ≤ bitCount s) :
    exec .pext s = .next (complete (pextDone s) okRecord) :=
  command_of_body_ok (body := pextBody) hlegal (by rw [prerequisite, hbd, hfs, Bool.and_self])
    (pextBody_of_le hlen)

/-- `PAYMEM[b]` after PEXT packs the bits that stood at its place of the payload. -/
theorem read_pay_pextDone {s : State} {b : Nat} (hb : b < s.cfg.paysz.toNat) :
    Cells.read (pextDone s).mem.pay b =
      some (packByte (bitAt s) (s.res.paystart.toNat + 8 * b)) := by
  rw [pextDone_mem, Cells.read_fill, if_pos hb]

/-- Settles O28: PEXT ends in `pextDone`, which writes the packed bytes and nothing beyond them. -/
theorem pextPacksPayload : Obligations.PextPacksPayload := by
  intro s hlegal hbd hfs hlen
  refine ⟨_, exec_pext_of_legal hlegal hbd hfs hlen, completedWith_complete rfl okRecord,
    fun b hb => ⟨⟨_, read_pay_pextDone hb, toNat_packByte (bitAt_le_one s) _⟩, fun v hv => ?_⟩,
    rfl, rfl, rfl, ⟨rfl, rfl, rfl, rfl, rfl, rfl⟩, keptBeyond_fill _ _ _, rfl, rfl, rfl, rfl, rfl⟩
  rw [complete_mem, read_pay_pextDone hb, packByte_of_expanded hv]

end Sys2Proof.Machine
end

section
/-! The core's turn and the step (45_control_commands.md R225 to R229): which command a turn runs, what a completion
records, and the properties every step keeps. Such a property is proved kept once for each named operation a step
is made of (`KeptByParts`); the walk through the bodies, the commands and the schedule is made once for all. -/

namespace Sys2Proof.Machine

/-! ## The core's turn (R226, R293) -/

theorem coreStep_of_idle {s : State} (hb : s.busy = false) : coreStep s = .next s := by
  rw [coreStep, hb, if_neg Bool.false_ne_true]

theorem coreStep_of_command {s : State} {i : Instr} (hb : s.busy = true)
    (hd : decode s.pend = .command i) : coreStep s = exec i s := by
  rw [coreStep, if_pos hb, hd]

theorem step_nil {s : State} (h : s.port = []) : step s = coreStep s := by
  rw [step, h]

/-- Settles O4: the core has its turn, on an empty schedule or as its first event, and decodes the word. -/
theorem stepRunsDecodedCommand : Obligations.StepRunsDecodedCommand := fun s _ hb hd =>
  ⟨fun h => (step_nil h).trans (coreStep_of_command hb hd),
    fun rest h => (step_core h).trans (coreStep_of_command (s := { s with port := rest }) hb hd)⟩

/-- Settles O6: the idle turn, also as the step of an empty schedule. -/
theorem idleCoreDoesNothing : Obligations.IdleCoreDoesNothing := fun _ hb =>
  ⟨coreStep_of_idle hb, fun h => (step_nil h).trans (coreStep_of_idle hb)⟩

/-! ## The records of refusals and raises (R251, R254, R256) -/

/-- What TREC records when no pass ran (R150). -/
def noPassRecord : Record := { code := .insuff, stage := .trec, sub := 1#4 }

/-- What PEXT records when the payload leaves the bit sequence (R212). -/
def tooLongRecord : Record := { code := .insuff, stage := .pext, sub := 2#4 }

/-- What an illegal word records (R253). -/
def illegalRecord : Record := { code := .illcmd, stage := .none, sub := 0#4 }

/-- The record is a row of R251's table. -/
def Record.Legal (r : Record) : Prop := LegalRecord r.code r.stage r.sub

theorem okRecord_legal : okRecord.Legal := ⟨rfl, rfl⟩

theorem noPassRecord_legal : noPassRecord.Legal := .inl ⟨rfl, rfl⟩

theorem nosyncRecord_legal : nosyncRecord.Legal := ⟨rfl, rfl⟩

theorem tooLongRecord_legal : tooLongRecord.Legal := .inr ⟨rfl, rfl⟩

theorem illegalRecord_legal : illegalRecord.Legal := ⟨rfl, rfl⟩

/-- A refusal names the first condition that holds (R254), or a stage that has a prerequisite (R256). -/
theorem prologue_legal {st : Stage} {s : State} {r : Record} (h : prologue st s = some r) : r.Legal := by
  obtain ⟨sub, hsub, rfl⟩ | ⟨-, hmissing, rfl⟩ := prologue_cases h
  · exact ⟨rfl, configCheck_sub hsub⟩
  · refine ⟨rfl, ?_⟩
    cases st with
    | none => cases hmissing
    | env => cases hmissing
    | trec => decide
    | bdec => decide
    | fsync => decide
    | pext => decide

theorem prologue_code_ne_ok {st : Stage} {s : State} {r : Record} (h : prologue st s = some r) :
    r.code ≠ .ok := by
  obtain ⟨sub, -, rfl⟩ | ⟨-, -, rfl⟩ := prologue_cases h <;> exact nofun

/-! ## What a body leaves, whether or not it ends -/

/-- The body of a stage leaves `P` after a normal end and `Q` with the record of a `raise`. -/
def StageEnd.Leaves (P : State → Prop) (Q : State → Record → Prop) (e : StageEnd) : Prop :=
  match e with
  | .ok s => P s
  | .raised s r => Q s r
  | .overrun => True

theorem StageEnd.Leaves.andThen {P P' : State → Prop} {Q : State → Record → Prop} {e : StageEnd}
    {f : State → StageEnd} (he : e.Leaves P Q) (hf : ∀ s, P s → (f s).Leaves P' Q) :
    (e.andThen f).Leaves P' Q := by
  cases e with
  | ok s => exact hf s he
  | raised s r => exact he
  | overrun => trivial

/-- The command of stage `st` is accepted in a state with the property. -/
structure Accepted (I : State → Prop) (st : Stage) (s : State) : Prop where
  kept : I s
  accepted : prologue st s = none

/-- A `raise` leaves the property, and records a code that is not `OK` with its row of R251's table. -/
structure Raised (I : State → Prop) (s : State) (r : Record) : Prop where
  kept : I s
  legal : r.Legal
  code_ne : r.code ≠ .ok

/-- The command that left `t` ended in a state with the property, by a completion with a legal record (R228). -/
def EndedWith (I : State → Prop) (t : State) : Prop :=
  ∃ u r, I u ∧ Record.Legal r ∧ t = complete u r

section
variable {I : State → Prop} {st : Stage} {s : State}

theorem Accepted.legal (h : Accepted I st s) : LegalConfig s.cfg :=
  (legalConfig_iff s.cfg).mpr ((prologue_eq_none_iff st s).mp h.accepted).1

theorem Accepted.met (h : Accepted I st s) : prerequisite st s.valid = true :=
  ((prologue_eq_none_iff st s).mp h.accepted).2

/-- The stage after an accepted one is accepted, once its prerequisite is met. -/
theorem Accepted.next {st' : Stage} {t : State} (h : Accepted I st s) (hcfg : t.cfg = s.cfg)
    (hmet : prerequisite st' t.valid = true) (ht : I t) : Accepted I st' t :=
  ⟨ht, (prologue_eq_none_iff st' t).mpr ⟨hcfg ▸ (legalConfig_iff s.cfg).mp h.legal, hmet⟩⟩

end

/-! ## The operations a step is made of -/

/-- A property that does not see the model's own fields, and that the core's turn, an accepted host write and the
reset input keep, is kept by every step (R73, R291). -/
theorem step_induct {I : State → Prop} {s t : State}
    (hmodel : ∀ {s : State} port resp free, I s → I { s with port := port, resp := resp, free := free })
    (hcore : ∀ {s t : State}, I s → coreStep s = .next t → I t)
    (hwrite : ∀ {s t : State} {space idx : Nat} {v : Word}, memWrite s space idx v = some t → I s → I t)
    (hreset : I State.reset) (hs : I s) (h : step s = .next t) : I t := by
  have hport : ∀ p, I { s with port := p } := fun p => hmodel p s.resp s.free hs
  obtain ⟨-, he⟩ | ⟨rest, -, he⟩ | ⟨a, rest, -, he⟩ | ⟨a, v, rest, -, he⟩ | ⟨rest, -, he⟩ | ⟨rest, -, he⟩ :=
    step_cases s <;> rw [he] at h
  · exact hcore hs h
  · exact hcore (hport rest) h
  · cases h; exact hmodel _ _ _ (hport rest)
  · cases h
    obtain he | ⟨u, -, hm, he⟩ := hostWrite_cases { s with port := rest } a v <;> rw [he]
    · exact hmodel _ _ _ (hport rest)
    · exact hmodel _ _ _ (hwrite hm (hport rest))
  · cases h; exact hmodel _ _ _ hreset
  · cases h; exact hport _

/-- A property of the data part of the state that each operation a step is made of keeps: the bodies of the
stages where the prologue has accepted them, CLR's clearing, accepted host writes, the reset input. It does not
see the sequencer, `BUSY`, `DONE`, the record, `PEND`, the working registers or the model's own fields. -/
structure KeptByParts (I : State → Prop) : Prop where
  congr : ∀ {s t : State}, I s → t.valid = s.valid → t.cond = s.cond → t.cfg = s.cfg → t.res = s.res →
    t.mem = s.mem → I t
  env : ∀ {s}, LegalConfig s.cfg → I s → I (envDone s)
  trecRaised : ∀ {s}, I s → I (discardWork (beginStage .trec s))
  trec : ∀ {s l}, s.valid.env = true → timingOf s = some l → l.index ≠ 0 → I s → I (trecDone s l)
  bdec : ∀ {s}, s.valid.tr = true → I s → I (bdecDone s)
  fsyncRaised : ∀ {s}, s.valid.bd = true → I s → I (discardWork (profiled s))
  fsync : ∀ {s}, LegalConfig s.cfg → s.valid.bd = true → (scanOf (profiled s)).found = true → I s →
    I (fsyncDone s (scanOf (profiled s)))
  pextRaised : ∀ {s}, I s → I (discardWork (beginStage .pext s))
  pext : ∀ {s}, s.valid.fs = true → s.res.paystart.toNat + 8 * s.cfg.paysz.toNat ≤ bitCount s → I s →
    I (pextDone s)
  clr : ∀ {s}, I s → I (clearResults s)
  host : ∀ {s t space idx v}, memWrite s space idx v = some t → I s → I t
  reset : I State.reset

/-- Nothing is asked, so nothing is lost: for what a step does from every state. -/
theorem keptByParts_true : KeptByParts fun _ => True := by
  constructor <;> intros <;> trivial

namespace KeptByParts

variable {I : State → Prop} {s t : State}

theorem envBody_leaves (hI : KeptByParts I) (h : Accepted I .env s) :
    (envBody s).Leaves (Accepted I .trec) (Raised I) :=
  h.next (t := envDone s) rfl rfl (hI.env h.legal h.kept)

theorem trecBody_leaves (hI : KeptByParts I) (h : Accepted I .trec s) :
    (trecBody s).Leaves (Accepted I .bdec) (Raised I) := by
  obtain ⟨-, he⟩ | ⟨l, -, -, he⟩ | ⟨l, hl, h0, he⟩ := trecBody_cases s <;> rw [he]
  · trivial
  · exact ⟨hI.trecRaised h.kept, noPassRecord_legal, nofun⟩
  · exact h.next (t := trecDone s l) rfl rfl (hI.trec h.met hl h0 h.kept)

theorem bdecBody_leaves (hI : KeptByParts I) (h : Accepted I .bdec s) :
    (bdecBody s).Leaves (Accepted I .fsync) (Raised I) :=
  h.next (t := bdecDone s) rfl rfl (hI.bdec h.met h.kept)

theorem fsyncBody_leaves (hI : KeptByParts I) (h : Accepted I .fsync s) :
    (fsyncBody s).Leaves (Accepted I .pext) (Raised I) := by
  have hbd : s.valid.bd = true := h.met
  obtain ⟨hf, he⟩ | ⟨-, he⟩ := fsyncBody_cases s <;> rw [he]
  · exact h.next (t := fsyncDone s _) rfl (by simp [prerequisite, Valid.clearFrom, hbd])
      (hI.fsync h.legal hbd hf h.kept)
  · exact ⟨hI.fsyncRaised hbd h.kept, nosyncRecord_legal, nofun⟩

theorem pextBody_leaves (hI : KeptByParts I) (h : Accepted I .pext s) : (pextBody s).Leaves I (Raised I) := by
  obtain ⟨-, hfs⟩ := Bool.and_eq_true_iff.mp h.met
  obtain ⟨hlen, he⟩ | ⟨-, he⟩ := pextBody_cases s <;> rw [he]
  · exact hI.pext hfs hlen h.kept
  · exact ⟨hI.pextRaised h.kept, tooLongRecord_legal, nofun⟩

/-- RUN has no prerequisite, and neither has its first stage (R231). -/
theorem runBody_leaves (hI : KeptByParts I) (h : Accepted I .none s) : (runBody s).Leaves I (Raised I) :=
  ((((hI.envBody_leaves (h.next rfl rfl h.kept)).andThen fun _ => hI.trecBody_leaves).andThen
    fun _ => hI.bdecBody_leaves).andThen fun _ => hI.fsyncBody_leaves).andThen fun _ => hI.pextBody_leaves

/-- A command ends by completion: refused, after a normal end of its body, or by a `raise` (R227, R228). -/
theorem command_ends {st : Stage} {body : State → StageEnd} {P : State → Prop} (hP : ∀ u, P u → I u)
    (hbody : Accepted I st s → (body s).Leaves P (Raised I)) (hs : I s)
    (h : command st body s = .next t) : EndedWith I t := by
  obtain ⟨r, hr, rfl⟩ | ⟨hp, ⟨u, hu, rfl⟩ | ⟨u, r, hu, rfl⟩⟩ := command_cases h
  · exact ⟨s, r, hs, prologue_legal hr, rfl⟩
  · have hend := hbody ⟨hs, hp⟩
    rw [hu] at hend
    exact ⟨u, okRecord, hP u hend, okRecord_legal, rfl⟩
  · have hend := hbody ⟨hs, hp⟩
    rw [hu] at hend
    exact ⟨u, r, hend.kept, hend.legal, rfl⟩

theorem exec_ends (hI : KeptByParts I) {i : Instr} (hs : I s) (h : exec i s = .next t) : EndedWith I t := by
  cases i with
  | env => exact command_ends (fun _ h => h.kept) hI.envBody_leaves hs h
  | trec => exact command_ends (fun _ h => h.kept) hI.trecBody_leaves hs h
  | bdec => exact command_ends (fun _ h => h.kept) hI.bdecBody_leaves hs h
  | fsync => exact command_ends (fun _ h => h.kept) hI.fsyncBody_leaves hs h
  | pext => exact command_ends (fun _ => id) hI.pextBody_leaves hs h
  | run => exact command_ends (fun _ => id) hI.runBody_leaves hs h
  | clr => cases h; exact ⟨_, okRecord, hI.clr hs, okRecord_legal, rfl⟩

/-- A busy core's turn, an illegal word included, ends by completion with a legal record (R228, R253). -/
theorem coreStep_ends (hI : KeptByParts I) (hs : I s) (hb : s.busy = true) (h : coreStep s = .next t) :
    EndedWith I t := by
  obtain ⟨hidle, -⟩ | ⟨-, -, he⟩ | ⟨i, -, -, he⟩ := coreStep_cases s
  · cases hidle.symm.trans hb
  · cases he.symm.trans h
    exact ⟨s, illegalRecord, hs, illegalRecord_legal, rfl⟩
  · exact hI.exec_ends hs (he.symm.trans h)

theorem coreStep_keeps (hI : KeptByParts I) (hs : I s) (h : coreStep s = .next t) : I t := by
  cases hb : s.busy with
  | false =>
    cases (coreStep_of_idle hb).symm.trans h
    exact hs
  | true =>
    obtain ⟨u, r, hu, -, rfl⟩ := hI.coreStep_ends hs hb h
    exact hI.congr hu rfl rfl rfl rfl rfl

theorem step_keeps (hI : KeptByParts I) (hs : I s) (h : step s = .next t) : I t :=
  step_induct (fun _ _ _ hs => hI.congr hs rfl rfl rfl rfl rfl) hI.coreStep_keeps hI.host hI.reset hs h

end KeptByParts

/-! ## What a completion records (R228) -/

theorem coreStep_pend {s t : State} (h : coreStep s = .next t) : t.pend = s.pend := by
  obtain ⟨-, he⟩ | ⟨-, -, he⟩ | ⟨i, -, -, he⟩ := coreStep_cases s <;> rw [he] at h
  · cases h; rfl
  · cases h; rfl
  · obtain ⟨⟨-, -, -, hpend, -⟩, -⟩ := exec_keeps h
    exact hpend

/-- R251's row of `OK`. -/
theorem LegalRecord.of_ok {code : Code} {stage : Stage} {sub : BitVec 4} (h : LegalRecord code stage sub)
    (hok : code = .ok) : stage = .none ∧ sub = 0#4 := by
  subst hok
  exact h

/-- Settles O11: whatever the command, its turn ends in `complete` with a legal record, and `PEND` is kept. -/
theorem completionRecordsTheResult : Obligations.CompletionRecordsTheResult := by
  intro s t hb h
  obtain ⟨u, r, -, hr, rfl⟩ := keptByParts_true.coreStep_ends trivial hb h
  exact ⟨completedWith_complete (coreStep_pend h) r, hr, LegalRecord.of_ok hr⟩

/-! ## The valid and condition flags (R27, R229) -/

/-- The two flag properties of R27 and R229. -/
structure FlagsKept (s : State) : Prop where
  chain : FlagChain s.valid
  guarded : CondGuarded s.valid s.cond

theorem FlagsKept.clearFrom {s t : State} (h : FlagsKept s) (st : Stage) (hv : t.valid = s.valid.clearFrom st)
    (hc : t.cond = s.cond.clearFrom st) : FlagsKept t :=
  ⟨hv ▸ h.chain.clearFrom st, hv ▸ hc ▸ h.guarded.clearFrom st⟩

theorem keptByParts_flags : KeptByParts FlagsKept where
  congr h hv hc _ _ _ := ⟨hv ▸ h.chain, hv ▸ hc ▸ h.guarded⟩
  env _ _ := ⟨⟨nofun, nofun, nofun, nofun, nofun⟩, fun _ => rfl, nofun, nofun⟩
  trecRaised h := h.clearFrom .trec rfl rfl
  trec henv _ _ _ := ⟨⟨fun _ => henv, nofun, nofun, nofun, nofun⟩, fun _ => henv, fun _ => rfl, nofun⟩
  bdec htr := fun ⟨⟨tr_env, _⟩, zero_env, warn_tr, _⟩ =>
    ⟨⟨tr_env, fun _ => htr, nofun, nofun, nofun⟩, zero_env, warn_tr, nofun⟩
  fsyncRaised hbd := fun ⟨⟨tr_env, bd_tr, _⟩, zero_env, warn_tr, _⟩ =>
    ⟨⟨tr_env, bd_tr, fun _ => hbd, nofun, nofun⟩, zero_env, warn_tr, fun _ => rfl⟩
  fsync _ hbd _ := fun ⟨⟨tr_env, bd_tr, _⟩, zero_env, warn_tr, _⟩ =>
    ⟨⟨tr_env, bd_tr, fun _ => hbd, fun _ => rfl, nofun⟩, zero_env, warn_tr, fun _ => rfl⟩
  pextRaised h := h.clearFrom .pext rfl rfl
  pext hfs _ := fun ⟨⟨tr_env, bd_tr, prof_bd, fs_prof, _⟩, guarded⟩ =>
    ⟨⟨tr_env, bd_tr, prof_bd, fs_prof, fun _ => hfs⟩, guarded⟩
  clr h := h.clearFrom .env rfl rfl
  host hm h := by
    obtain ⟨hv, hc, -⟩ := memWrite_flags hm
    exact h.clearFrom _ hv hc
  reset := ⟨⟨nofun, nofun, nofun, nofun, nofun⟩, nofun, nofun, nofun⟩

/-- Settles O51: a stage sets its flag only with its prerequisite met, and every clearing takes the later flags
with it. -/
theorem flagChainKept : Obligations.FlagChainKept := by
  intro s t hchain hguarded h
  obtain ⟨hchain', hguarded'⟩ := keptByParts_flags.step_keeps ⟨hchain, hguarded⟩ h
  exact ⟨hchain', hguarded'⟩

/-! ## The invariant (R29, R35, R229, R251) -/

/-- A host write keeps the data invariant: it clears the flags of all that depends on what it moves (R28). -/
theorem memWrite_keeps_dataInv {s t : State} {space idx : Nat} {v : Word}
    (h : memWrite s space idx v = some t) (hs : DataInv s) : DataInv t := by
  obtain rfl | ⟨c, rfl⟩ | ⟨c, rfl, hfs, hbr, hn, -⟩ | ⟨p, rfl⟩ | ⟨n, hlt, x, rfl⟩ | ⟨w, rfl⟩ :=
    memWrite_cases h
  · exact .congr (s := s) rfl rfl rfl rfl rfl hs
  · exact .invalidate_env (s := s) rfl rfl hs.memory hs.symbols
  · exact .invalidate_fsync (s := s) rfl rfl rfl hfs hbr hn rfl rfl hs
  · exact .invalidate_pext (s := s) rfl rfl rfl rfl ⟨p, rfl⟩ hs
  · exact .invalidate_env (s := s) rfl rfl (Memory.wf_write_iq hlt x hs.memory) hs.symbols
  · exact .invalidate_fsync (s := s) rfl rfl rfl rfl rfl rfl rfl rfl hs

theorem keptByParts_dataInv : KeptByParts DataInv where
  congr h hv hc hcfg hres hmem := h.congr hv hc hcfg hres hmem
  env hlegal h := h.envDone hlegal.rates
  trecRaised h := h.trecRaised
  trec henv hl h0 h := by
    obtain ⟨l', hl', hr⟩ := timingOf_result (h.envelope henv)
    cases hl.symm.trans hl'
    exact h.trecDone henv hr h0
  bdec htr h := h.bdecDone htr
  fsyncRaised hbd h := .congr (s := profiled _) rfl rfl rfl rfl rfl (h.profiled hbd)
  fsync hlegal hbd hf h := h.fsyncDone hbd hlegal.policy_ne hlegal.swlen_le hf
  pextRaised h := .invalidate_pext rfl rfl rfl rfl ⟨_, rfl⟩ h
  pext hfs hlen h := h.pextDone hfs hlen
  clr {s} h := .invalidate_env (s := s) rfl rfl h.memory (by decide : (0#17).toNat < Config.nMax)
  host := memWrite_keeps_dataInv
  reset := (resetHasInvariant []).data

/-- The part of `Inv` that completions and accepted commands set: the sequencer, `BUSY` and `DONE`, the record. -/
structure ControlInv (s : State) : Prop where
  seqIdle : s.seq = .idle
  busyDone : ¬(s.busy = true ∧ s.done = true)
  record : LegalRecord s.err s.errStage s.errSub

theorem Inv.control {s : State} (h : Inv s) : ControlInv s := ⟨h.seqIdle, h.busyDone, h.record⟩

theorem ControlInv.complete (s : State) {r : Record} (h : r.Legal) : ControlInv (complete s r) :=
  ⟨rfl, nofun, h⟩

theorem ControlInv.congr {s t : State} (h : ControlInv s) (hseq : t.seq = s.seq) (hbusy : t.busy = s.busy)
    (hdone : t.done = s.done) (herr : t.err = s.err) (hstage : t.errStage = s.errStage)
    (hsub : t.errSub = s.errSub) : ControlInv t := by
  obtain ⟨h1, h2, h3⟩ := h
  exact ⟨hseq.trans h1, hbusy ▸ hdone ▸ h2, herr ▸ hstage ▸ hsub ▸ h3⟩

/-- Only an accepted command sets `BUSY`, and it clears `DONE` (R34). -/
theorem memWrite_keeps_control {s t : State} {space idx : Nat} {v : Word}
    (h : memWrite s space idx v = some t) (hs : ControlInv s) : ControlInv t := by
  obtain rfl | ⟨c, rfl⟩ | ⟨c, rfl, -⟩ | ⟨p, rfl⟩ | ⟨n, -, x, rfl⟩ | ⟨w, rfl⟩ := memWrite_cases h
  · exact ⟨hs.seqIdle, nofun, hs.record⟩
  all_goals exact hs.congr rfl rfl rfl rfl rfl rfl

theorem coreStep_keeps_control {s t : State} (hs : ControlInv s) (h : coreStep s = .next t) :
    ControlInv t := by
  cases hb : s.busy with
  | false =>
    cases (coreStep_of_idle hb).symm.trans h
    exact hs
  | true =>
    obtain ⟨u, r, -, hr, rfl⟩ := keptByParts_true.coreStep_ends trivial hb h
    exact .complete u hr

theorem step_keeps_control {s t : State} (hs : ControlInv s) (h : step s = .next t) : ControlInv t :=
  step_induct (fun _ _ _ hs => hs.congr rfl rfl rfl rfl rfl rfl) coreStep_keeps_control memWrite_keeps_control
    (resetHasInvariant []).control hs h

/-! ## No step stops (R226, R300) -/

theorem command_answers {st : Stage} {body : State → StageEnd} {s : State}
    (h : prologue st s = none → body s ≠ .overrun) : ∃ t, command st body s = .next t := by
  cases hp : prologue st s with
  | some r => exact ⟨_, command_of_refused body hp⟩
  | none =>
    rw [command_of_accepted body hp]
    cases he : body s with
    | ok u => exact ⟨_, rfl⟩
    | raised u r => exact ⟨_, rfl⟩
    | overrun => exact absurd he (h hp)

/-- TREC is accepted only with a centered sequence present, on which the loop ends (R151 (h)). -/
theorem trecBody_ne_overrun {s : State} (hs : DataInv s) (hp : prologue .trec s = none) :
    trecBody s ≠ .overrun := by
  obtain ⟨-, henv⟩ := (prologue_eq_none_iff .trec s).mp hp
  obtain ⟨l, hl, -⟩ := timingOf_result (hs.envelope henv)
  obtain ⟨hn, -⟩ | ⟨-, -, -, he⟩ | ⟨l, -, -, he⟩ := trecBody_cases s
  · cases hl.symm.trans hn
  · rw [he]; nofun
  · rw [he]; nofun

theorem fsyncBody_ne_overrun (s : State) : fsyncBody s ≠ .overrun := by
  obtain ⟨-, he⟩ | ⟨-, he⟩ := fsyncBody_cases s <;> rw [he] <;> nofun

theorem pextBody_ne_overrun (s : State) : pextBody s ≠ .overrun := by
  obtain ⟨-, he⟩ | ⟨-, he⟩ := pextBody_cases s <;> rw [he] <;> nofun

theorem exec_answers {s : State} (hs : DataInv s) (i : Instr) : ∃ t, exec i s = .next t := by
  cases i with
  | env => exact command_answers (body := envBody) fun _ => nofun
  | trec => exact command_answers (body := trecBody) (trecBody_ne_overrun hs)
  | bdec => exact command_answers (body := bdecBody) fun _ => nofun
  | fsync => exact command_answers (body := fsyncBody) fun _ => fsyncBody_ne_overrun s
  | pext => exact command_answers (body := pextBody) fun _ => pextBody_ne_overrun s
  | run =>
    obtain ⟨t, ht, -⟩ := exec_run_completes s
    exact ⟨t, ht⟩
  | clr => exact ⟨_, rfl⟩

theorem coreStep_answers {s : State} (hs : DataInv s) : ∃ t, coreStep s = .next t := by
  obtain ⟨-, he⟩ | ⟨-, -, he⟩ | ⟨i, -, -, he⟩ := coreStep_cases s <;> rw [he]
  · exact ⟨_, rfl⟩
  · exact ⟨_, rfl⟩
  · exact exec_answers hs i

theorem step_answers {s : State} (hs : DataInv s) : ∃ t, step s = .next t := by
  obtain ⟨-, he⟩ | ⟨rest, -, he⟩ | ⟨_, _, -, he⟩ | ⟨_, _, _, -, he⟩ | ⟨_, -, he⟩ | ⟨_, -, he⟩ := step_cases s
  · rw [he]; exact coreStep_answers hs
  · rw [he]; exact coreStep_answers (.congr (s := s) rfl rfl rfl rfl rfl hs)
  all_goals exact ⟨_, he⟩

/-- Settles O50: the loop of TREC ends on a present envelope, so the step answers; it keeps the data part and the
control part of the invariant. -/
theorem stepKeepsInvariantAndNeverStops : Obligations.StepKeepsInvariantAndNeverStops := by
  intro s hs
  obtain ⟨t, ht⟩ := step_answers hs.data
  obtain ⟨hseq, hbusy, hrecord⟩ := step_keeps_control hs.control ht
  exact ⟨t, ht, .of_data (keptByParts_dataInv.step_keeps hs.data ht) hseq hbusy hrecord⟩

theorem neverStops_of_inv {s : State} (hs : Inv s) : NeverStops s := by
  intro k
  induction k generalizing s with
  | zero => exact ⟨s, rfl⟩
  | succ k ih =>
    obtain ⟨t, ht, hinv⟩ := stepKeepsInvariantAndNeverStops s hs
    rw [run_succ_of_next ht]
    exact ih hinv

/-- Settles O53: the state after reset has the invariant, under every schedule. -/
theorem runsFromResetNeverStop : Obligations.RunsFromResetNeverStop := fun events =>
  neverStops_of_inv (resetHasInvariant events)

end Sys2Proof.Machine
end

section
/-! The commands RUN and CLR (45_control_commands.md R231 to R233): CLR's clearing, RUN as the five stage commands one
after another, the four ways it ends, and its results as functions of the capture. -/

namespace Sys2Proof.Machine

/-! ## CLR (R233) -/

theorem exec_clr (s : State) : exec .clr s = .next (complete (clearResults s) okRecord) := rfl

/-- Every field of `STATUS` after CLR is fixed but `LASTOP`, and that is the word's low four bits (R237). -/
theorem statusWord_clr {s : State} (h : s.pend = encode .clr) :
    statusWord (complete (clearResults s) okRecord) = 0x702#64 := by
  apply BitVec.eq_of_toNat_eq
  rw [toNat_statusWord, complete_lastop, clearResults_pend, h]
  rfl

theorem errinfoWord_clr (s : State) : errinfoWord (complete (clearResults s) okRecord) = 0#64 := by
  apply BitVec.eq_of_toNat_eq
  rw [toNat_errinfoWord]
  rfl

/-- While a valid flag is 0 the host reads a free value, whatever the memory holds (R48). -/
theorem hostEntry_of_not_valid {w : Nat} (len : Nat) (m : Cells (BitVec w)) (free space idx : Nat) :
    hostEntry false len m free space idx = (Config.unspecifiedBits free space idx).setWidth w := rfl

/-- With every valid flag 0 no read of an output memory depends on what the memories hold (R48). -/
theorem memRead_of_not_valid {s : State} (hv : s.valid = s.valid.clearFrom .env) (m : Memory) {space : Nat}
    (idx : Nat) (h2 : 2 ≤ space) (h7 : space ≤ 7) :
    memRead { s with mem := m } space idx = memRead s space idx := by
  rw [Valid.clearFrom] at hv
  interval_cases space <;> simp only [memRead, hv, hostEntry_of_not_valid]

/-- Settles O32: CLR ends in `complete` of `clearResults`, after which no output memory is marked valid. -/
theorem clrClearsResults : Obligations.ClrClearsResults := fun s =>
  ⟨_, exec_clr s, completedWith_complete rfl okRecord, rfl, rfl, rfl, ⟨rfl, rfl, rfl, rfl, rfl, rfl⟩, rfl,
    statusWord_clr, errinfoWord_clr s,
    fun m _ idx => memRead_of_not_valid (s := complete (clearResults s) okRecord) rfl m idx⟩

/-! ## The records of R237 -/

/-- Settles O46: each schedule is run to its end; the four commands are refused, or CLR. -/
theorem statusAfterRefusals : Obligations.StatusAfterRefusals :=
  ⟨⟨_, rfl, rfl, rfl⟩, ⟨_, rfl, rfl, rfl⟩, ⟨_, rfl, rfl, rfl⟩, ⟨_, rfl, rfl, rfl⟩⟩

/-! ## RUN as five commands (R231) -/

/-- `s` with the control part of `c`: what commands record and the next stage does not read. -/
def State.withControl (s c : State) : State :=
  { s with
    seq := c.seq
    busy := c.busy
    done := c.done
    err := c.err
    lastop := c.lastop
    errStage := c.errStage
    errSub := c.errSub
    pend := c.pend }

/-- The host has written the word of `i` to an idle core (R34). -/
def commandIssued (i : Instr) (s : State) : State := { s with pend := encode i, busy := true, done := false }

theorem issue_eq_exec (i : Instr) (s : State) : issue i s = exec i (commandIssued i s) := rfl

/-- A body that does not see the control part: it ends alike, up to the command word and `LASTOP`. -/
def BlindToControl (body : State → StageEnd) : Prop :=
  ∀ s c, withRunWord (body (s.withControl c)).finish = withRunWord (body s).finish

theorem envBody_blind : BlindToControl envBody := fun _ _ => rfl

theorem trecBody_blind : BlindToControl trecBody := fun s c => by
  rw [trecBody, trecBody, show timingOf (s.withControl c) = timingOf s from rfl]
  cases timingOf s with
  | none => rfl
  | some l => dsimp only; split_ifs <;> rfl

theorem bdecBody_blind : BlindToControl bdecBody := fun _ _ => rfl

theorem fsyncBody_blind : BlindToControl fsyncBody := fun s c => by
  rw [fsyncBody, fsyncBody, show scanOf (profiled (s.withControl c)) = scanOf (profiled s) from rfl]
  split_ifs <;> rfl

theorem pextBody_blind : BlindToControl pextBody := fun s c => by
  rw [pextBody, pextBody, show payloadTooLong (s.withControl c) = payloadTooLong s from rfl]
  split_ifs <;> rfl

/-- A body begun with the word of RUN pending completes with `LASTOP = 6`. -/
theorem withRunWord_finish {s : State} {e : StageEnd} (he : e.Keeps s) (hp : s.pend = encode .run) :
    withRunWord e.finish = e.finish := by
  have hword : ∀ u r, u.pend = encode .run →
      { complete u r with pend := encode .run, lastop := 6#4 } = complete u r := by
    intro u r hu
    rw [complete, hu]
    rfl
  cases e with
  | ok u =>
    obtain ⟨-, -, -, hu, -⟩ := he u (.inl rfl)
    exact congrArg Host.Outcome.next (hword u okRecord (hu.trans hp))
  | raised u r =>
    obtain ⟨-, -, -, hu, -⟩ := he u (.inr ⟨r, rfl⟩)
    exact congrArg Host.Outcome.next (hword u r (hu.trans hp))
  | overrun => rfl

/-- The host's commands so far have done what RUN's bodies so far have done; a completion of one is matched by the
end of the other. -/
structure RunMatches (P : State → Prop) (o : Host.Outcome State Fault Refusal) (e : StageEnd) : Prop where
  outcome : withRunWord o = e.finish
  leaves : e.Leaves P (Raised fun _ => True)

theorem thenIssue_of_err_ne {t : State} (h : t.err ≠ .ok) (i : Instr) :
    thenIssue (.next t) i = .next t := if_neg h

/-- The next command does to the host's state what the next body does to RUN's: their data parts agree, and the
body sees nothing else. -/
theorem withRunWord_issue {st : Stage} {i : Instr} {body : State → StageEnd} {t u : State}
    (hexec : ∀ s, exec i s = command st body s) (hblind : BlindToControl body) (hkeeps : ∀ s, (body s).Keeps s)
    (h : withRunWord (.next t) = (StageEnd.ok u).finish) (hp : prologue st u = none) :
    withRunWord (issue i t) = (body u).finish := by
  have heq : { t with pend := encode .run, lastop := 6#4 } = complete u okRecord := Host.Outcome.next.inj h
  have hu : (commandIssued i t).withControl u = u := (congrArg (State.withControl · u) heq :)
  have hpend : u.pend = encode .run := (congrArg State.pend heq).symm
  have hp' : prologue st (commandIssued i t) = none := by
    rw [← hu] at hp
    exact hp
  calc withRunWord (issue i t)
    _ = withRunWord (body (commandIssued i t)).finish := by
      rw [issue_eq_exec, hexec, command_of_accepted body hp']
    _ = withRunWord (body ((commandIssued i t).withControl u)).finish := (hblind _ _).symm
    _ = (body u).finish := by rw [hu, withRunWord_finish (hkeeps u) hpend]

theorem RunMatches.next {st : Stage} {i : Instr} {body : State → StageEnd} {P : State → Prop}
    {o : Host.Outcome State Fault Refusal} {e : StageEnd} (h : RunMatches (Accepted (fun _ => True) st) o e)
    (hexec : ∀ s, exec i s = command st body s) (hblind : BlindToControl body) (hkeeps : ∀ s, (body s).Keeps s)
    (hleaves : ∀ {s}, Accepted (fun _ => True) st s → (body s).Leaves P (Raised fun _ => True)) :
    RunMatches P (thenIssue o i) (e.andThen body) := by
  obtain ⟨houtcome, hend⟩ := h
  refine ⟨?_, hend.andThen fun _ => hleaves⟩
  cases e with
  | ok u =>
    cases o with
    | next t =>
      have hok : t.err = .ok := congrArg State.err (Host.Outcome.next.inj houtcome)
      rw [thenIssue, if_pos hok]
      exact withRunWord_issue hexec hblind hkeeps houtcome hend.accepted
    | fault f => cases houtcome
    | refused r => cases houtcome
  | raised u r =>
    cases o with
    | next t =>
      have herr : t.err = r.code := congrArg State.err (Host.Outcome.next.inj houtcome)
      rw [thenIssue_of_err_ne (herr ▸ hend.code_ne)]
      exact houtcome
    | fault f => cases houtcome
    | refused r => cases houtcome
  | overrun =>
    cases o with
    | next t => cases houtcome
    | fault f => exact houtcome
    | refused r => cases houtcome

/-- ENV has no prerequisite, as RUN has none (R227). -/
theorem issue_env_matches {s : State} (hp : prologue .none (commandIssued .run s) = none) :
    RunMatches (Accepted (fun _ => True) .trec) (issue .env s) (envBody (commandIssued .run s)) where
  outcome := (congrArg withRunWord (command_of_accepted (s := commandIssued .env s) envBody hp)).trans rfl
  leaves := keptByParts_true.envBody_leaves ⟨trivial, hp⟩

theorem issueFive_matches {s : State} (hp : prologue .none (commandIssued .run s) = none) :
    RunMatches (fun _ => True) (issueFive s) (runBody (commandIssued .run s)) :=
  ((((issue_env_matches hp).next (fun _ => rfl) trecBody_blind trecBody_keeps
    keptByParts_true.trecBody_leaves).next (fun _ => rfl) bdecBody_blind bdecBody_keeps
    keptByParts_true.bdecBody_leaves).next (fun _ => rfl) fsyncBody_blind fsyncBody_keeps
    keptByParts_true.fsyncBody_leaves).next (fun _ => rfl) pextBody_blind pextBody_keeps
    keptByParts_true.pextBody_leaves

/-- A configuration that RUN refuses is refused to ENV, and the host stops there. -/
theorem issueFive_of_refused {s : State} {r : Record} (hp : prologue .none (commandIssued .run s) = some r) :
    issueFive s = .next (complete (commandIssued .env s) r) := by
  have henv : issue .env s = .next (complete (commandIssued .env s) r) :=
    command_of_refused (s := commandIssued .env s) envBody hp
  have hstop := thenIssue_of_err_ne (t := complete (commandIssued .env s) r) (prologue_code_ne_ok hp)
  rw [issueFive, henv, hstop, hstop, hstop, hstop]

/-- Settles O30: refused, both record the same at once; accepted, each command matches its body. -/
theorem runEqualsFiveCommands : Obligations.RunEqualsFiveCommands := by
  intro s
  cases hp : prologue .none (commandIssued .run s) with
  | some r =>
    rw [issueFive_of_refused hp]
    exact command_of_refused runBody hp
  | none => exact (command_of_accepted runBody hp).trans (issueFive_matches hp).outcome.symm

/-! ## The four ways RUN ends (R232) -/

/-- The state in which RUN's third stage ends, after a timing loop that ended in `l`. -/
def runBits (s : State) (l : TimingLoop) : State := bdecDone (trecDone (envDone s) l)

/-- The scan in RUN's fourth stage. -/
def runScan (s : State) (l : TimingLoop) : Scan := scanOf (profiled (runBits s l))

/-- The state in which RUN's fourth stage ends on an accepted position. -/
def runSynced (s : State) (l : TimingLoop) : State := fsyncDone (runBits s l) (runScan s l)

/-- Every way RUN's body ends, once its timing loop has (R231, R232): no pass; no position; a payload beyond the
bits; or a payload written. -/
theorem runBody_cases {s : State} {l : TimingLoop} (hl : timingOf (envDone s) = some l) :
    (l.index = 0 ∧ runBody s = .raised (discardWork (beginStage .trec (envDone s))) noPassRecord) ∨
      (l.index ≠ 0 ∧ (runScan s l).found = false ∧
        runBody s = .raised (discardWork (profiled (runBits s l))) nosyncRecord) ∨
      (l.index ≠ 0 ∧ (runScan s l).found = true ∧
        bitCount (runSynced s l) < (runSynced s l).res.paystart.toNat + 8 * s.cfg.paysz.toNat ∧
        runBody s = .raised (discardWork (beginStage .pext (runSynced s l))) tooLongRecord) ∨
      (l.index ≠ 0 ∧ (runScan s l).found = true ∧
        (runSynced s l).res.paystart.toNat + 8 * s.cfg.paysz.toNat ≤ bitCount (runSynced s l) ∧
        runBody s = .ok (pextDone (runSynced s l))) := by
  have hrun : runBody s =
      (((trecBody (envDone s)).andThen bdecBody).andThen fsyncBody).andThen pextBody := rfl
  rw [hrun]
  obtain ⟨hn, -⟩ | ⟨l', hl', h0, he⟩ | ⟨l', hl', h0, he⟩ := trecBody_cases (envDone s)
  · cases hl.symm.trans hn
  · cases hl.symm.trans hl'
    exact .inl ⟨h0, by rw [he]; rfl⟩
  · cases hl.symm.trans hl'
    have hbits : (trecBody (envDone s)).andThen bdecBody = .ok (runBits s l) := by rw [he]; rfl
    rw [hbits]
    refine .inr ?_
    obtain ⟨hf, hsync⟩ | ⟨hf, hsync⟩ := fsyncBody_cases (runBits s l)
    · have hnext : ((StageEnd.ok (runBits s l)).andThen fsyncBody).andThen pextBody =
          pextBody (runSynced s l) := congrArg (StageEnd.andThen · pextBody) hsync
      rw [hnext]
      obtain ⟨hlen, hpext⟩ | ⟨hlen, hpext⟩ := pextBody_cases (runSynced s l)
      · exact .inr (.inr ⟨h0, hf, hlen, hpext⟩)
      · exact .inr (.inl ⟨h0, hf, hlen, hpext⟩)
    · exact .inl ⟨h0, hf, congrArg (StageEnd.andThen · pextBody) hsync⟩

theorem exec_run_of_legal {s : State} (hlegal : LegalConfig s.cfg) : exec .run s = (runBody s).finish :=
  command_of_accepted runBody ((prologue_eq_none_iff .none s).mpr ⟨(legalConfig_iff _).mp hlegal, rfl⟩)

/-- Settles O31: after ENV the timing loop ends, so one of the four cases of `runBody_cases` holds. -/
theorem runAlwaysCompletes : Obligations.RunAlwaysCompletes := by
  intro s hlegal
  obtain ⟨l, hl, -⟩ := timingOf_result (envelopePresent_envDone s hlegal.rates)
  rw [exec_run_of_legal hlegal]
  obtain ⟨-, he⟩ | ⟨-, -, he⟩ | ⟨-, -, -, he⟩ | ⟨-, -, -, he⟩ := runBody_cases hl <;> rw [he]
  · exact ⟨_, rfl, .inr (.inl ⟨completedWith_complete rfl noPassRecord, rfl⟩)⟩
  · exact ⟨_, rfl, .inr (.inr (.inl ⟨completedWith_complete rfl nosyncRecord, rfl⟩))⟩
  · exact ⟨_, rfl, .inr (.inr (.inr ⟨completedWith_complete rfl tooLongRecord, rfl⟩))⟩
  · exact ⟨_, rfl, .inl ⟨completedWith_complete rfl okRecord, rfl⟩⟩

/-! ## RUN's results as functions of the capture -/

/-- What TREC reads inside RUN is ENV's centered sequence of the capture, nothing truncated (R14, R231). -/
theorem timingOf_envDone {s : State} (hN : sampleCount s.cfg ≤ Config.nMax) :
    timingOf (envDone s) = capturedLoop s := by
  rw [timingOf, envden_envDone s hN]
  exact timingRun_congr (centAt_envDone s hN) _ _ _ _

/-- In RUN on a legal configuration the timing loop made at least one pass, and ended in `l`. -/
structure RunLooped (s : State) (l : TimingLoop) : Prop where
  legal : LegalConfig s.cfg
  loop : timingOf (envDone s) = some l
  passed : l.index ≠ 0

namespace RunLooped

variable {s : State} {l : TimingLoop}

/-- A capture longer than one symbol gives at least one pass (R150). -/
theorem of_captured (hlegal : LegalConfig s.cfg) (hlong : sps s.cfg < sampleCount s.cfg)
    (hl : capturedLoop s = some l) : RunLooped s l := by
  have hloop := (timingOf_envDone hlegal.rates.2).trans hl
  obtain ⟨eps, ht, hended⟩ := timingRun_trace hloop
  exact ⟨hlegal, hloop, ht.index_ne_zero hended hlong⟩

theorem result (h : RunLooped s l) : TimingResult (sampleCount s.cfg) (sps s.cfg) (envDone s).mem l := by
  obtain ⟨l', hl', hr⟩ := timingOf_result (envelopePresent_envDone s h.legal.rates)
  cases h.loop.symm.trans hl'
  exact hr

theorem index_lt (h : RunLooped s l) : l.index < sampleCount s.cfg := h.result.below.resolve_left h.passed

theorem bitCount_bits (h : RunLooped s l) : bitCount (runBits s l) = l.index :=
  bitCount_trecDone (envDone s) (h.index_lt.le.trans h.legal.rates.2)

theorem toInt_eps (h : RunLooped s l) : (BitVec.ofInt 64 l.epsilon).toInt = l.epsilon := by
  obtain ⟨⟨hw, hN⟩, -, hc⟩ := envelopePresent_envDone s h.legal.rates
  obtain ⟨eps, ht, -⟩ := timingRun_trace h.loop
  exact toInt_ofInt_epsilon hN (ht.abs_epsilon_lt hc hw (Nat.one_le_iff_ne_zero.mpr h.passed))

/-- The loop writes only the entries of its symbols. -/
theorem keptBeyond (h : RunLooped s l) :
    KeptBeyond s.mem.clk l.clk l.index ∧ KeptBeyond s.mem.syn l.syn l.index := by
  obtain ⟨eps, ⟨-, -, -, hkept, -⟩, -⟩ := timingRun_trace h.loop
  exact ⟨fun n hn => (hkept n hn).1, fun n hn => (hkept n hn).2⟩

/-- BDEC inside RUN decides the loop's samples. -/
theorem read_bits (h : RunLooped s l) {k : Nat} (hk : k < l.index) :
    ∃ b, Cells.read (runBits s l).mem.bits k = some b ∧ b.toNat = loopBit l k := by
  obtain ⟨y, hy⟩ := Option.isSome_iff_exists.mp (h.result.synListed k hk)
  have hsyn : synAt (trecDone (envDone s) l) k = y.toInt := congrArg BitVec.toInt (entryOr_of_read _ _ _ _ hy)
  refine ⟨_, read_bits_bdecDone (h.bitCount_bits.symm ▸ hk), ?_⟩
  rw [hsyn, loopBit, hy]

theorem bitAt_of_bits (h : RunLooped s l) {t : State} (ht : t.mem.bits = (runBits s l).mem.bits) :
    ∀ k < l.index, bitAt t k = loopBit l k := by
  intro k hk
  obtain ⟨b, hread, hb⟩ := h.read_bits hk
  rw [bitAt, ht, entryOr_of_read _ _ _ _ hread, hb]

/-- FSYNC inside RUN scores the loop's bits (R14, R184). -/
theorem profAt_of_prof (h : RunLooped s l) {t : State} (ht : t.mem.prof = (profiled (runBits s l)).mem.prof) :
    ∀ k < l.index, profAt t k = loopScore s l k := by
  have hlisted : Listed (profiled (runBits s l)).mem.prof l.index := h.bitCount_bits ▸ Listed.fill _ _ _
  intro k hk
  have hstored := profAt_profiled (runBits s l) h.legal.swlen_le k (h.bitCount_bits.symm ▸ hk)
  rw [profAt_congr ht hlisted k hk, hstored, h.bitCount_bits, score_congr (h.bitAt_of_bits rfl)]
  rfl

theorem runScan_eq (h : RunLooped s l) : runScan s l = loopScan s l := by
  rw [runScan, scanOf, show bitCount (profiled (runBits s l)) = l.index from h.bitCount_bits]
  exact scanUpTo_congr_below (h.profAt_of_prof rfl) _ _ _

/-- The position RUN accepts is the scan's, in registers wide enough for it (R14, R190). -/
theorem sync_registers (h : RunLooped s l) (hf : (loopScan s l).found = true) :
    (runSynced s l).res.syncidx.toNat = (loopScan s l).syncIndex ∧
      (runSynced s l).res.paystart.toNat = (loopScan s l).payloadStart := by
  rw [← h.runScan_eq] at hf ⊢
  obtain ⟨hn, -⟩ | ⟨-, hpref, hstart⟩ := scanOf_profiled_cases (s := runBits s l) h.legal
  · cases hf.symm.trans hn
  · obtain ⟨hidx, hpay⟩ := sync_registers_fsyncDone (s := runBits s l) h.legal hpref.eligible hstart
    exact ⟨hidx, hpay.trans hstart.symm⟩

theorem exec_run (h : RunLooped s l) (hf : (loopScan s l).found = true)
    (hlen : (loopScan s l).payloadStart + 8 * s.cfg.paysz.toNat ≤ l.index) :
    exec .run s = .next (complete (pextDone (runSynced s l)) okRecord) := by
  have hcount : bitCount (runSynced s l) = l.index := h.bitCount_bits
  obtain ⟨-, hstart⟩ := h.sync_registers hf
  rw [exec_run_of_legal h.legal]
  obtain ⟨h0, -⟩ | ⟨-, hn, -⟩ | ⟨-, -, hlong, -⟩ | ⟨-, -, -, he⟩ := runBody_cases h.loop
  · exact absurd h0 h.passed
  · rw [h.runScan_eq, hf] at hn
    cases hn
  · omega
  · rw [he]; rfl

/-- PEXT inside RUN packs the loop's bits (R213). -/
theorem read_pay (h : RunLooped s l) (hf : (loopScan s l).found = true)
    (hlen : (loopScan s l).payloadStart + 8 * s.cfg.paysz.toNat ≤ l.index) :
    ∀ b < s.cfg.paysz.toNat, Cells.read (pextDone (runSynced s l)).mem.pay b =
      some (packByte (loopBit l) ((loopScan s l).payloadStart + 8 * b)) := by
  intro b hb
  obtain ⟨-, hstart⟩ := h.sync_registers hf
  rw [read_pay_pextDone (s := runSynced s l) hb, hstart]
  exact congrArg some (packByte_congr fun k hk => h.bitAt_of_bits (t := runSynced s l) rfl _ (by omega))

/-- `ENV_ZERO` is ENV's, `W_TREC` the loop's, `W_FSYNC` FSYNC's (R127, R149, R185). -/
theorem cond_eq (h : RunLooped s l) : (profiled (runBits s l)).cond =
    { envZero := decide (ruleMax s = 0), wTrec := l.warn,
      wFsync := decide (1 ≤ l.index ∧ 8 ≤ patLen s.cfg) } := by
  have hbits : (runBits s l).cond = { (envDone s).cond with wTrec := l.warn, wFsync := false } := rfl
  rw [cond_profiled_eq_rule, hbits, cond_envDone_eq_rule, h.bitCount_bits]
  rfl

end RunLooped

/-- Settles O29: RUN ends in `pextDone` of its fourth stage; each register and memory there is the stage's that wrote
it last, in terms of the capture. -/
theorem runDemodulatesPayload : Obligations.RunDemodulatesPayload := by
  intro s l hlegal hlong hl hf hlen
  have h : RunLooped s l := .of_captured hlegal hlong hl
  have hN := hlegal.rates.2
  have hbits := h.bitAt_of_bits (t := complete (pextDone (runSynced s l)) okRecord) rfl
  have hprof := h.profAt_of_prof (t := complete (pextDone (runSynced s l)) okRecord) rfl
  obtain ⟨-, hlisted, -⟩ := envelopePresent_envDone s hlegal.rates
  obtain ⟨hmax, hsum, hden⟩ := results_envDone hN
  obtain ⟨hidx, hstart⟩ := h.sync_registers hf
  obtain ⟨hclk, hsyn⟩ := h.keptBeyond
  refine ⟨_, h.exec_run hf hlen, completedWith_complete rfl okRecord, rfl, h.cond_eq, hmax, hsum, hden,
    fun n hn => ?_, h.bitCount_bits, h.toInt_eps, hidx, hstart,
    fun k hk => ⟨rfl, rfl, hbits k hk, hprof k hk⟩, h.read_pay hf hlen,
    ⟨rfl, rfl, rfl, rfl, rfl, rfl⟩, keptBeyond_fill _ _ _, hclk, hsyn, ?_, ?_, keptBeyond_fill _ _ _⟩
  · obtain ⟨v, hread, hv⟩ := hlisted.read_cent hn
    exact ⟨v, hread, hv.trans (centAt_envDone_eq_rule hN hn)⟩
  · exact h.bitCount_bits ▸ keptBeyond_fill _ _ _
  · exact h.bitCount_bits ▸ keptBeyond_fill _ _ _

end Sys2Proof.Machine
end

section
/-! Refusals and the other ends that are not OK (60_exceptions.md R252 to R268): which commands the prologue refuses and
with what record, the ends a stage raises, and the host transactions that get `ERR`. -/

namespace Sys2Proof.Machine

/-! ## The prologue's refusals (R227, R254, R256) -/

/-- The stage whose prologue a command has (R227): `none` for RUN, and for CLR, which has no prologue. -/
def commandStage (i : Instr) : Stage :=
  match i with
  | .env => .env
  | .trec => .trec
  | .bdec => .bdec
  | .fsync => .fsync
  | .pext => .pext
  | .run => .none
  | .clr => .none

/-- What a command does once its prologue has accepted it. -/
def commandBody (i : Instr) : State → StageEnd :=
  match i with
  | .env => envBody
  | .trec => trecBody
  | .bdec => bdecBody
  | .fsync => fsyncBody
  | .pext => pextBody
  | .run => runBody
  | .clr => fun s => .ok (clearResults s)

/-- Every command but CLR is a prologue and a body (R227, R233). -/
theorem exec_eq_command {i : Instr} (hi : i ≠ .clr) (s : State) :
    exec i s = command (commandStage i) (commandBody i) s := by
  cases i with
  | clr => exact absurd rfl hi
  | env | trec | bdec | fsync | pext | run => rfl

/-- What a configuration refused for the cause `sub` records (R254). -/
def configRecord (sub : BitVec 4) : Record := { code := .config, stage := .none, sub := sub }

/-- What the command of stage `st` records when its input is not valid (R256). -/
def seqRecord (st : Stage) : Record := { code := .seq, stage := .none, sub := st.seqSub }

theorem prologue_of_configCheck {s : State} {sub : BitVec 4} (st : Stage) (h : configCheck s.cfg = some sub) :
    prologue st s = some (configRecord sub) := by
  rw [prologue, h]
  rfl

theorem prologue_of_missing {s : State} {st : Stage} (hlegal : LegalConfig s.cfg)
    (hmissing : prerequisite st s.valid = false) : prologue st s = some (seqRecord st) := by
  rw [prologue, (legalConfig_iff s.cfg).mp hlegal, hmissing]
  rfl

/-- A completion on the state before the command changes the record alone (R259). -/
theorem onlyRecordChanged_complete (s : State) (r : Record) : OnlyRecordChanged s (complete s r) :=
  ⟨rfl, rfl, rfl, rfl, rfl, rfl, rfl, rfl, rfl, rfl⟩

theorem exec_of_refused {i : Instr} {s : State} {r : Record} (hi : i ≠ .clr)
    (h : prologue (commandStage i) s = some r) :
    ∃ t, exec i s = .next t ∧ CompletedWith s t r.code r.stage r.sub ∧ OnlyRecordChanged s t :=
  ⟨complete s r, (exec_eq_command hi s).trans (command_of_refused _ h), completedWith_complete rfl r,
    onlyRecordChanged_complete s r⟩

/-! ## Only the prologue and the decoder refuse (R251) -/

/-- The codes of the commands that are refused with no stage started (R259). -/
def Code.Refuses (c : Code) : Prop := c = .illcmd ∨ c = .config ∨ c = .seq

/-- The records of the commands that a stage ends after it has started (R255, R257). -/
def Record.OfStage (r : Record) : Prop := r = noPassRecord ∨ r = nosyncRecord ∨ r = tooLongRecord

theorem Record.OfStage.not_refuses {r : Record} (h : r.OfStage) : ¬r.code.Refuses := by
  unfold Code.Refuses
  obtain rfl | rfl | rfl := h <;> decide

theorem okRecord_not_refuses : ¬okRecord.code.Refuses := by
  unfold Code.Refuses
  decide

/-- If the body raises, it is with the record of a stage. -/
def StageEnd.RaisesOfStage (e : StageEnd) : Prop := e.Leaves (fun _ => True) fun _ => Record.OfStage

theorem trecBody_raisesOfStage (s : State) : (trecBody s).RaisesOfStage := by
  obtain ⟨-, he⟩ | ⟨l, -, -, he⟩ | ⟨l, -, -, he⟩ := trecBody_cases s <;> rw [he]
  · trivial
  · exact .inl rfl
  · trivial

theorem fsyncBody_raisesOfStage (s : State) : (fsyncBody s).RaisesOfStage := by
  obtain ⟨-, he⟩ | ⟨-, he⟩ := fsyncBody_cases s <;> rw [he]
  · trivial
  · exact .inr (.inl rfl)

theorem pextBody_raisesOfStage (s : State) : (pextBody s).RaisesOfStage := by
  obtain ⟨-, he⟩ | ⟨-, he⟩ := pextBody_cases s <;> rw [he]
  · trivial
  · exact .inr (.inr rfl)

theorem StageEnd.RaisesOfStage.andThen {e : StageEnd} {f : State → StageEnd} (he : e.RaisesOfStage)
    (hf : ∀ s, (f s).RaisesOfStage) : (e.andThen f).RaisesOfStage :=
  StageEnd.Leaves.andThen he fun s _ => hf s

theorem runBody_raisesOfStage (s : State) : (runBody s).RaisesOfStage := by
  have henv : (envBody s).RaisesOfStage := trivial
  have hbdec : ∀ u, (bdecBody u).RaisesOfStage := fun _ => trivial
  exact (((henv.andThen trecBody_raisesOfStage).andThen hbdec).andThen fsyncBody_raisesOfStage).andThen
    pextBody_raisesOfStage

theorem commandBody_raisesOfStage (i : Instr) (s : State) : (commandBody i s).RaisesOfStage := by
  cases i with
  | env => trivial
  | trec => exact trecBody_raisesOfStage s
  | bdec => trivial
  | fsync => exact fsyncBody_raisesOfStage s
  | pext => exact pextBody_raisesOfStage s
  | run => exact runBody_raisesOfStage s
  | clr => trivial

/-- A command that ends with a refusal's code was refused by its prologue: it is not CLR, and no stage started. -/
theorem refused_of_exec {i : Instr} {s t : State} (h : exec i s = .next t) (hcode : t.err.Refuses) :
    i ≠ .clr ∧ ∃ r, prologue (commandStage i) s = some r ∧ t = complete s r := by
  have hi : i ≠ .clr := by
    rintro rfl
    cases (exec_clr s).symm.trans h
    exact okRecord_not_refuses hcode
  rw [exec_eq_command hi] at h
  obtain ⟨r, hr, ht⟩ | ⟨-, ⟨u, -, rfl⟩ | ⟨u, r, hu, rfl⟩⟩ := command_cases h
  · exact ⟨hi, r, hr, ht⟩
  · exact absurd hcode okRecord_not_refuses
  · have hraise := commandBody_raisesOfStage i s
    rw [hu] at hraise
    exact absurd hcode (Record.OfStage.not_refuses hraise)

/-- CONFIG is the code of an illegal configuration alone (R254). -/
theorem not_legalConfig_of_config {i : Instr} {s t : State} (h : exec i s = .next t) (hcode : t.err = .config) :
    i ≠ .clr ∧ ¬LegalConfig s.cfg := by
  obtain ⟨hi, r, hr, rfl⟩ := refused_of_exec h (.inr (.inl hcode))
  refine ⟨hi, fun hlegal => ?_⟩
  obtain ⟨sub, hsub, -⟩ | ⟨-, -, rfl⟩ := prologue_cases hr
  · cases ((legalConfig_iff s.cfg).mp hlegal).symm.trans hsub
  · cases hcode

/-- SEQ is the code of a missing prerequisite alone (R256). -/
theorem missing_of_seq {i : Instr} {s t : State} (h : exec i s = .next t) (hcode : t.err = .seq) :
    prerequisite (commandStage i) s.valid = false := by
  obtain ⟨-, r, hr, rfl⟩ := refused_of_exec h (.inr (.inr hcode))
  obtain ⟨sub, -, rfl⟩ | ⟨-, hmissing, -⟩ := prologue_cases hr
  · cases hcode
  · exact hmissing

/-- Settles O10: an illegal word and a refusing prologue both complete on the state as it was. -/
theorem refusedCommandChangesOnlyRecord : Obligations.RefusedCommandChangesOnlyRecord := by
  intro s t hb h hcode
  obtain ⟨hidle, -⟩ | ⟨-, -, he⟩ | ⟨i, -, -, he⟩ := coreStep_cases s
  · cases hidle.symm.trans hb
  · cases he.symm.trans h
    exact onlyRecordChanged_complete s _
  · obtain ⟨-, r, -, rfl⟩ := refused_of_exec (he.symm.trans h) hcode
    exact onlyRecordChanged_complete s r

/-! ## CONFIG (R254) -/

/-- Row `sub` of R254's table decides: its condition holds and none before it does. -/
def DecidingRow (c : Cfg) (sub : Nat) : Prop :=
  (sub = 1 ∧ c.br.toNat = 0) ∨
    (sub = 2 ∧ c.br.toNat ≠ 0 ∧ c.fs.toNat < c.br.toNat) ∨
    (sub = 3 ∧ c.br.toNat ≠ 0 ∧ c.br.toNat ≤ c.fs.toNat ∧ c.paysz.toNat = 0) ∨
    (sub = 4 ∧ c.br.toNat ≠ 0 ∧ c.br.toNat ≤ c.fs.toNat ∧ c.paysz.toNat ≠ 0 ∧ 8 < c.swlen.toNat) ∨
    (sub = 5 ∧ c.br.toNat ≠ 0 ∧ c.br.toNat ≤ c.fs.toNat ∧ c.paysz.toNat ≠ 0 ∧ c.swlen.toNat ≤ 8 ∧
      65536 < c.nsamp.toNat) ∨
    (sub = 6 ∧ c.br.toNat ≠ 0 ∧ c.br.toNat ≤ c.fs.toNat ∧ c.paysz.toNat ≠ 0 ∧ c.swlen.toNat ≤ 8 ∧
      c.nsamp.toNat ≤ 65536 ∧ c.policy.toNat = 3)

theorem configCheck_of_decidingRow {c : Cfg} {sub : Nat} (h : DecidingRow c sub) :
    configCheck c = some (BitVec.ofNat 4 sub) := by
  unfold configCheck
  obtain ⟨rfl, h1⟩ | ⟨rfl, h1, h2⟩ | ⟨rfl, h1, h2, h3⟩ | ⟨rfl, h1, h2, h3, h4⟩ | ⟨rfl, h1, h2, h3, h4, h5⟩ |
    ⟨rfl, h1, h2, h3, h4, h5, h6⟩ := h
  · rw [if_pos h1]
  · rw [if_neg h1, if_pos h2]
  · rw [if_neg h1, if_neg h2.not_gt, if_pos h3]
  · rw [if_neg h1, if_neg h2.not_gt, if_neg h3, if_pos h4]
  · rw [if_neg h1, if_neg h2.not_gt, if_neg h3, if_neg h4.not_gt, if_pos h5]
  · have hpolicy : c.policy = 3#2 := BitVec.eq_of_toNat_eq h6
    rw [if_neg h1, if_neg h2.not_gt, if_neg h3, if_neg h4.not_gt, if_neg h5.not_gt, if_pos hpolicy]

/-- Settles O8: the deciding row is the one the prologue records, and CONFIG comes from an illegal configuration. -/
theorem configCheckOrder : Obligations.ConfigCheckOrder := by
  refine fun s i => ⟨fun hi sub hrow => ?_, fun h t hexec hcode => ?_⟩
  · exact exec_of_refused hi (prologue_of_configCheck _ (configCheck_of_decidingRow hrow))
  · obtain ⟨hi, hnot⟩ := not_legalConfig_of_config hexec hcode
    exact h.elim hnot hi

/-! ## SEQ (R256) -/

/-- The commands with a prerequisite that is not met, one by one (R256). -/
theorem missing_prerequisite_iff (i : Instr) (v : Valid) :
    prerequisite (commandStage i) v = false ↔
      (i = .trec ∧ v.env = false) ∨ (i = .bdec ∧ v.tr = false) ∨ (i = .fsync ∧ v.bd = false) ∨
        (i = .pext ∧ (v.bd = false ∨ v.fs = false)) := by
  cases i <;> simp [commandStage, prerequisite, Bool.and_eq_false_iff, -Bool.and_eq_false_imp]

/-- Settles O9: the four commands that have a prerequisite are refused without it, and no other end is SEQ. -/
theorem sequenceRefusals : Obligations.SequenceRefusals := by
  refine fun s => ⟨fun hlegal => ?_, fun i t h hcode =>
    (missing_prerequisite_iff i s.valid).mp (missing_of_seq h hcode)⟩
  have hrefused : ∀ i, i ≠ .clr → prerequisite (commandStage i) s.valid = false →
      ∃ t, exec i s = .next t ∧ CompletedWith s t .seq .none (commandStage i).seqSub ∧ OnlyRecordChanged s t :=
    fun i hi hmissing => exec_of_refused hi (prologue_of_missing hlegal hmissing)
  exact ⟨fun henv => hrefused .trec nofun henv, fun htr => hrefused .bdec nofun htr,
    fun hbd => hrefused .fsync nofun hbd,
    fun h => hrefused .pext nofun ((missing_prerequisite_iff .pext s.valid).mpr (.inr (.inr (.inr ⟨rfl, h⟩))))⟩

/-! ## ILLCMD (R253) -/

theorem decode_of_illegal {w : Word} (h : w.toNat / 16 ≠ 0 ∨ w.toNat % 16 = 0 ∨ 8 ≤ w.toNat % 16) :
    decode w = .illegal := by
  by_cases hzero : w.toNat / 16 = 0
  · exact decode_of_reserved hzero (h.resolve_left fun hne => hne hzero)
  · exact decode_of_zeroField_ne hzero

theorem coreStep_of_illegal {s : State} (hb : s.busy = true) (hd : decode s.pend = .illegal) :
    coreStep s = .next (complete s illegalRecord) := by
  rw [coreStep, if_pos hb, hd]
  rfl

theorem opField_eq_ofNat (w : Word) : opField w = BitVec.ofNat 4 (w.toNat % 16) := by
  apply BitVec.eq_of_toNat_eq
  rw [toNat_opField, BitVec.toNat_ofNat]
  omega

/-- Settles O7: the write is accepted like any of `CMD` (R34), and the word left pending is an illegal one. -/
theorem illegalWordEndsIllcmd : Obligations.IllegalWordEndsIllcmd := by
  intro s w hb hw
  obtain ⟨haccepted, -⟩ := cmdWriteStartsCommand s w
  rw [haccepted hb, ← opField_eq_ofNat]
  exact ⟨rfl, coreStep_of_illegal rfl (decode_of_illegal hw)⟩

/-! ## INSUFF (R255) -/

/-- A stage command that is accepted and whose body raises (R252). -/
theorem command_of_body_raised {st : Stage} {body : State → StageEnd} {s u : State} {r : Record}
    (hlegal : LegalConfig s.cfg) (hmet : prerequisite st s.valid = true) (hbody : body s = .raised u r) :
    command st body s = .next (complete u r) := by
  have hp : prologue st s = none := (prologue_eq_none_iff st s).mpr ⟨(legalConfig_iff _).mp hlegal, hmet⟩
  rw [command_of_accepted body hp, hbody, StageEnd.finish]

/-- A capture of at most one symbol lets no pass run (R143, R150). -/
theorem timingOf_of_short {s : State} (h : sampleCount s.cfg ≤ sps s.cfg) :
    timingOf s = some (timingInit s.mem) :=
  timingRun_of_guard_false _ (decide_eq_false (by simp only [timingInit]; omega))

theorem exec_trec_of_short {s : State} (hlegal : LegalConfig s.cfg) (henv : s.valid.env = true)
    (h : sampleCount s.cfg ≤ sps s.cfg) :
    exec .trec s = .next (complete (discardWork (beginStage .trec s)) noPassRecord) :=
  command_of_body_raised (body := trecBody) hlegal henv (by rw [trecBody, timingOf_of_short h]; rfl)

/-- Beyond the bit sequence the range check raises, before any byte is written (R212). -/
theorem pextBody_of_lt {s : State} (h : bitCount s < s.res.paystart.toNat + 8 * s.cfg.paysz.toNat) :
    pextBody s = .raised (discardWork (beginStage .pext s)) tooLongRecord := by
  obtain ⟨hlen, -⟩ | ⟨-, he⟩ := pextBody_cases s
  · omega
  · exact he

theorem exec_pext_of_long {s : State} (hlegal : LegalConfig s.cfg) (hbd : s.valid.bd = true)
    (hfs : s.valid.fs = true) (h : bitCount s < s.res.paystart.toNat + 8 * s.cfg.paysz.toNat) :
    exec .pext s = .next (complete (discardWork (beginStage .pext s)) tooLongRecord) :=
  command_of_body_raised (body := pextBody) hlegal (by rw [prerequisite, hbd, hfs, Bool.and_self])
    (pextBody_of_lt h)

/-- PEXT ends INSUFF only from its range check: a refusal has another code (R212). -/
theorem payload_too_long_of_insuff {s t : State} (h : exec .pext s = .next t) (hcode : t.err = .insuff) :
    bitCount s < s.res.paystart.toNat + 8 * s.cfg.paysz.toNat := by
  obtain ⟨r, hr, rfl⟩ | ⟨-, ⟨u, -, rfl⟩ | ⟨u, r, hu, rfl⟩⟩ := command_cases (body := pextBody) h
  · obtain ⟨sub, -, rfl⟩ | ⟨-, -, rfl⟩ := prologue_cases hr <;> cases hcode
  · cases hcode
  · obtain ⟨-, he⟩ | ⟨hlong, -⟩ := pextBody_cases s
    · cases he.symm.trans hu
    · exact hlong

/-- Settles O21: TREC raises before its first pass, PEXT at its range check; a longer capture is what
`trecRunsTimingLoop` ends OK. -/
theorem insufficientDataEndings : Obligations.InsufficientDataEndings := by
  refine ⟨fun s hlegal henv hshort => ?_, fun s t hinv hlegal henv h => ⟨fun hcode => ?_, fun hshort => ?_⟩,
    fun s hlegal hbd hfs hlong => ?_, fun s t => payload_too_long_of_insuff⟩
  · exact ⟨_, exec_trec_of_short hlegal henv hshort, completedWith_complete rfl noPassRecord, rfl, rfl, rfl, rfl,
      rfl, rfl, rfl, rfl, rfl, rfl⟩
  · by_contra hlong
    obtain ⟨u, k, eps, hexec, ⟨-, hok, -⟩, -⟩ := trecRunsTimingLoop s hinv hlegal henv (by omega)
    cases hexec.symm.trans h
    cases hok.symm.trans hcode
  · cases (exec_trec_of_short hlegal henv hshort).symm.trans h
    rfl
  · exact ⟨_, exec_pext_of_long hlegal hbd hfs hlong, completedWith_complete rfl tooLongRecord, rfl, rfl, rfl, rfl,
      rfl, rfl, rfl, rfl, rfl, rfl⟩

/-! ## NOSYNC (R257) -/

/-- Settles O25: with no eligible position FSYNC ends right after the profile. -/
theorem fsyncReportsNoSync : Obligations.FsyncReportsNoSync := by
  intro s hlegal hbd hnone
  exact ⟨_, exec_fsync_of_not_eligible hlegal hbd hnone, completedWith_complete rfl nosyncRecord,
    fun k hk => read_prof_profiled hlegal hk, rfl, cond_profiled_eq_rule s, rfl, ⟨rfl, rfl, rfl, rfl, rfl, rfl⟩,
    keptBeyond_fill _ _ _, rfl, rfl, rfl, rfl, rfl⟩

/-! ## `ERR` on the host port (R65, R265) -/

/-- The places a read reaches (R61, R63): the registers but `CMD` and the reserved ones, and the eight memories. -/
def ReadablePlace (space idx : Nat) : Prop :=
  (space = 0 ∧ idx ≤ 0x16 ∧ idx ≠ 0x01 ∧ idx ≠ 0x0F) ∨ (1 ≤ space ∧ space ≤ 6 ∧ idx < 65536) ∨
    (space = 7 ∧ idx < 8192) ∨ (space = 8 ∧ idx < 8)

/-- The places a write reaches (R61, R64): `CMD` and the configuration registers, `IQMEM` and `SYNCW`. -/
def WritablePlace (space idx : Nat) : Prop :=
  (space = 0 ∧ idx ∈ [0x01, 0x04, 0x05, 0x07, 0x08, 0x09, 0x0A, 0x0C, 0x0D, 0x0E]) ∨
    (space = 1 ∧ idx < 65536) ∨ (space = 8 ∧ idx < 8)

theorem regRead_eq_none_iff (s : State) (idx : Nat) :
    regRead s idx = none ↔ ¬(idx ≤ 0x16 ∧ idx ≠ 0x01 ∧ idx ≠ 0x0F) := by
  unfold regRead
  split
  case h_22 => simp only [imp_false, true_iff] at *; omega
  all_goals simp

theorem memRead_eq_none_iff (s : State) (space idx : Nat) :
    memRead s space idx = none ↔ ¬ReadablePlace space idx := by
  unfold memRead ReadablePlace
  split
  case h_1 => simp [regRead_eq_none_iff]
  case h_10 => simp only [imp_false, true_iff] at *; omega
  all_goals simp

theorem regWrite_eq_none_iff (s : State) (idx : Nat) (v : Word) :
    regWrite s idx v = none ↔
      idx ∉ [0x01, 0x04, 0x05, 0x07, 0x08, 0x09, 0x0A, 0x0C, 0x0D, 0x0E] := by
  unfold regWrite
  split
  case h_11 => simp only [imp_false] at *; simp [*]
  all_goals simp

theorem memWrite_eq_none_iff (s : State) (space idx : Nat) (v : Word) :
    memWrite s space idx v = none ↔ ¬WritablePlace space idx := by
  unfold memWrite WritablePlace
  split
  case h_1 => simp [regWrite_eq_none_iff]
  case h_4 => simp only [imp_false] at *; simp [*]
  all_goals simp

theorem readResponse_eq_err_iff (s : State) (a : HostAddr) :
    readResponse s a = .err ↔
      readAllowed s (spaceOf a) (indexOf a) = false ∨ memRead s (spaceOf a) (indexOf a) = none := by
  unfold readResponse
  cases readAllowed s (spaceOf a) (indexOf a) <;> cases memRead s (spaceOf a) (indexOf a) <;> simp

/-- What the busy rule forbids: every read but those of `STATUS` and `ID` (R66). -/
theorem readAllowed_eq_false_iff (s : State) (a : HostAddr) :
    readAllowed s (spaceOf a) (indexOf a) = false ↔ s.busy = true ∧ a.toNat ≠ 2 ∧ a.toNat ≠ 0 := by
  cases hb : s.busy with
  | false => simp [readAllowed, hb]
  | true =>
    rw [← Bool.not_eq_true, readAllowed_of_busy hb, spaceOf_eq, indexOf_eq]
    simp only [true_and]
    omega

theorem hostWrite_resp_eq_err_iff (s : State) (a : HostAddr) (v : Word) :
    (hostWrite s a v).resp = some .err ↔ s.busy = true ∨ memWrite s (spaceOf a) (indexOf a) v = none := by
  unfold hostWrite
  cases s.busy <;> cases memWrite s (spaceOf a) (indexOf a) v <;> simp

/-- A write with `ERR` changes nothing but the recorded response (R65). -/
theorem hostWrite_of_err {s : State} {a : HostAddr} {v : Word} (h : (hostWrite s a v).resp = some .err) :
    hostWrite s a v = { s with resp := some .err } := by
  obtain he | ⟨t, -, -, he⟩ := hostWrite_cases s a v
  · exact he
  · rw [he] at h
    cases h

/-- Settles O34: the busy rule or an unreachable place, for reads and for writes; then nothing else moves. -/
theorem hostPortRefusals : Obligations.HostPortRefusals := by
  refine fun s a v => ⟨?_, ?_, hostWrite_of_err, rfl⟩
  · rw [readResponse_eq_err_iff, readAllowed_eq_false_iff, memRead_eq_none_iff, spaceOf_eq, indexOf_eq,
      ReadablePlace]
  · rw [hostWrite_resp_eq_err_iff, memWrite_eq_none_iff, spaceOf_eq, indexOf_eq, WritablePlace]

end Sys2Proof.Machine
end

section
/-! The reset input (70_reset_and_hazards.md R291): `resetEvent` in one step, from any state. What it leaves is what
`State.reset` has, by R52 (`resetState`). -/

namespace Sys2Proof.Machine

/-! ## The reset input (R291) -/

theorem step_reset {s : State} {rest : List HostEvent} (h : s.port = .reset :: rest) :
    step s = .next (resetEvent { s with port := rest }) := by
  rw [step, h]

@[simp] theorem statusWord_resetEvent (s : State) : statusWord (resetEvent s) = statusWord State.reset := by
  simp only [statusWord, resetEvent_cond, resetEvent_valid, resetEvent_lastop, resetEvent_err, resetEvent_done,
    resetEvent_busy]

@[simp] theorem errinfoWord_resetEvent (s : State) :
    errinfoWord (resetEvent s) = errinfoWord State.reset := by
  simp only [errinfoWord, resetEvent_errSub, resetEvent_errStage]

/-- Settles O48: the step is `resetEvent`, which takes every field R52 speaks of from `State.reset`; `STATUS` and
`ERRINFO` are made of such fields alone. -/
theorem resetInput : Obligations.ResetInput := by
  intro s rest hport
  obtain ⟨hseq, hbusy, hstatus, herrinfo, -, -, hmem⟩ := resetState
  exact ⟨_, step_reset hport, (resetEvent_seq _).trans hseq, (resetEvent_busy _).trans hbusy, resetEvent_done _,
    (statusWord_resetEvent _).trans hstatus, (errinfoWord_resetEvent _).trans herrinfo, resetEvent_cfg _,
    resetEvent_syncw _, resetEvent_res _, resetEvent_port _, hmem⟩

end Sys2Proof.Machine
end
